-- ==== Sys2Proof/Word.lean ====
section
/-! DEFINITION. The words of the machine: the byte of the stream, the buffer and the channel (R11, R67, R68), the 16-bit
request header and response word (R61, R65), the 14-bit counters (R20) and the 64-bit instant (R6 `TIME_W`, R91). -/

namespace Sys2Proof

/-- One byte: a stream element (R67), a signal word (R68), a buffer byte (R42). -/
abbrev Byte := BitVec 8

/-- A request header (R61). -/
abbrev Header := BitVec 16

/-- A response word (R65). -/
abbrev RespWord := BitVec 16

/-- A 14-bit counter or length: `LEN` (R63), `IDX`, `DONE` (R20). -/
abbrev Count := BitVec 14

/-- An instant or a settle time, in ticks (R13, R91; `TIME_W` = 64, R6). -/
abbrev Time := BitVec 64

end Sys2Proof
end

