-- ==== Sys2Proof/Syntax.lean ====
section
/-! DEFINITION. The four operations of the block (R3), one constructor per row of spec/opcode_table.json, and what a
header can decode to (R73). -/

namespace Sys2Proof

/-- The operations (R3, R62). The payload of `XINIT` and `XMIT` is no part of the header: it is the stream of the
request in progress, read through `STR` (R40, R61). -/
inductive Instr
  /-- `XINIT`: one raw initialization nibble (R113). -/
  | xinit
  /-- `XMIT`: a stream of `pairs` whole commands (R114, R115), that is `LEN = 2 * pairs` elements: the table's row
  `00LLLLLLLLLLLLL0` has thirteen free bits, and they are `pairs`. -/
  | xmit (pairs : BitVec 13)
  /-- `SETRW v` (R140). -/
  | setrw (v : Bool)
  /-- `SETAUX v` (R141). -/
  | setaux (v : Bool)
deriving DecidableEq, Repr

/-- The two ways a header is rejected (R72). -/
inductive Reject
  /-- A reserved header (R72 a, b): answered `ERR_ILLEGAL`. -/
  | illegal
  /-- A transmit header with a bad length (R72 c, R111): answered `ERR_LENGTH`. -/
  | badLength
deriving DecidableEq, Repr

/-- What a header decodes to (R73): an operation, or a rejection by name. -/
inductive Decoded
  | op (i : Instr)
  | rejected (e : Reject)
deriving DecidableEq, Repr

end Sys2Proof
end

