-- ==== Sys2Proof/WellFormed.lean ====
section
/-! DEFINITION. Which terms of `Instr` are operations of the block. -/

namespace Sys2Proof

/-- R62, R111: an `XMIT` has at least one command (`LEN` even and at least 2). That `LEN` is even and at most 16382
(R63) is already so in the type; the other operations have no ill-formed operand. -/
def Instr.wf : Instr → Bool
  | .xinit => true
  | .xmit pairs => pairs != 0
  | .setrw _ => true
  | .setaux _ => true

end Sys2Proof
end

