-- ==== Sys2Proof/Decode.lean ====
section
/-! DEFINITION. Decoding a request header (R61 to R64, R72, R73) and encoding an operation, from the same tables. -/

namespace Sys2Proof

/-- `OP`, bits 15:14 of the header (R61). -/
def opField (h : Header) : BitVec 2 := h.extractLsb' 14 2

/-- `ARG`, bits 13:0 of the header (R61). For `OP = 0b00` it is `LEN` (R63). -/
def argField (h : Header) : Count := h.extractLsb' 0 14

/-- `ARG[13:1]` (R64): the reserved bits of `SETRW` and `SETAUX`; for an even `LEN`, the number of commands. -/
def argHigh (h : Header) : BitVec 13 := h.extractLsb' 1 13

/-- `ARG[0]` (R64): the new level `V`; for a transmit, the parity of `LEN`. -/
def argBit (h : Header) : Bool := h.getLsbD 0

/-- R73: decoding a header, the cases in the rule's order. Total: every header falls in exactly one case. -/
def decode (h : Header) : Decoded :=
  if opField h = 0b11 ∨ ((opField h = 0b01 ∨ opField h = 0b10) ∧ argHigh h ≠ 0) then .rejected .illegal
  else if opField h = 0b00 ∧ argField h = 1 then .op .xinit
  else if opField h = 0b00 ∧ 2 ≤ argField h ∧ argBit h = false then .op (.xmit (argHigh h))
  else if opField h = 0b00 then .rejected .badLength
  else if opField h = 0b01 then .op (.setrw (argBit h))
  else .op (.setaux (argBit h))

/-- `LEN` of a transmit of `pairs` commands: `2 * pairs`, 14 bits (R63, R114). -/
def lenOf (pairs : BitVec 13) : Count := pairs ++ 0#1

/-- The header of an operation: `OP` in bits 15:14, then `LEN` or the reserved zeros and `V` (R61 to R64). -/
def encode : Instr → Header
  | .xinit => 0b00#2 ++ 1#14
  | .xmit pairs => 0b00#2 ++ lenOf pairs
  | .setrw v => 0b01#2 ++ 0#13 ++ BitVec.ofBool v
  | .setaux v => 0b10#2 ++ 0#13 ++ BitVec.ofBool v

/-- How many stream elements follow a header: `ARG` of them for `OP = 0b00`, none for the others (R61). R74 gives a
rejected header no payload, so for a transmit header of a bad length the two rules differ: the model follows R61 there
(DESIGN CHOICE, log entry 21). Nothing reads those elements (R72). -/
def payloadLen (h : Header) : Nat := if opField h = 0b00 then (argField h).toNat else 0

/-- The host's reading of a table row's word: the table's rows are one 16-bit word, given to `decode` as it stands. -/
def decodeTableWord (nbits w : Nat) : Option Instr :=
  match decode (BitVec.ofNat 16 (w % 2 ^ nbits)) with
  | .op i => some i
  | .rejected _ => none

end Sys2Proof
end

