-- ==== Sys2Proof/Config.lean ====
section
/-! DEFINITION. What an implementation fixes: the construction parameters of R6 and R28 as the record `Cfg`, the values
that `State.reset` takes for them, and the free values the spec leaves open (U8 of 93_implementation_defined.md). -/

namespace Sys2Proof

/-- The operating mode `CFG.MODE` (R6, R28): 0 = `DIRECT`, 1 = `BATCHED`. -/
inductive Mode
  | direct
  | batched
deriving DecidableEq, Repr

/-- `TICK` (R6): the duration of one unit of `now`, a positive number of microseconds, written as the ratio `num / den`
(log entry 1: a ratio stands for the real of R6). -/
structure Tick where
  num : ℕ+
  den : ℕ+
deriving DecidableEq, Repr

/-- The configuration `CFG` (R28), and the platform constant `TICK` (R6): constants of one encoder, read by all rules and written by nothing.
Which values are legal is `cfgOk` of Machine/PinMap.lean (R8). -/
structure Cfg where
  /-- `E_BIT`: the enable line's bit position, 3 bits. -/
  eBit : BitVec 3
  /-- `RW_BIT`: the read/write line's bit position, 3 bits. -/
  rwBit : BitVec 3
  /-- `AUX_BIT`: the auxiliary line's bit position, 3 bits. -/
  auxBit : BitVec 3
  /-- `F`: filler bytes per command slot, 16 bits. -/
  fill : BitVec 16
  /-- `MODE`. -/
  mode : Mode
  /-- `BUF_CAP`: capacity of the batch buffer in bytes, a natural number. -/
  bufCap : Nat
  /-- `T_SLOW`: the settle time after a slow command. -/
  tSlow : Time
  /-- `T_INIT`: the settle time after a raw initialization nibble. -/
  tInit : Time
  /-- `T_FAST`: the settle time after a fast command in direct mode. -/
  tFast : Time
  /-- `TICK`: what one unit of `now` lasts. No rule reads it: it says what the instants and the settle times mean (R13). -/
  tick : Tick
deriving DecidableEq, Repr

/-- Free value (log entry 20): a time in microseconds that is more than `2^64 - 1` ticks, as the settle time it cannot be.
The spec names no default for so small a `TICK`. -/
opaque Config.freeTicks : Tick → Nat → Time

/-- A time given in microseconds, in ticks (R13): the fewest ticks that last at least so long (the rounding is the model's
choice, log entry 1). Where they exceed `2^64 - 1`, the register's range (R6 `TIME_W`, R28), the spec states no value and
the settle time is a free one (DESIGN CHOICE, log entry 20). -/
def Config.ticksOfMicros (tick : Tick) (us : Nat) : Time :=
  if us * tick.den ≤ (2 ^ 64 - 1) * tick.num then BitVec.ofNat 64 ((us * tick.den + (tick.num - 1)) / tick.num)
  else Config.freeTicks tick us

/-- The straps for a given `TICK`: the spec's defaults (R6: bits 4/5/7, `BATCHED`, 16 000 µs, 5 000 µs) and its
suggestion for `T_FAST` (50 µs). `F` and `BUF_CAP` are OPEN in the spec: 2 and 32 are a DESIGN CHOICE (log entry 1);
every statement about the machine is about all configurations. -/
def Config.defaultsAt (tick : Tick) : Cfg where
  eBit := 4
  rwBit := 5
  auxBit := 7
  fill := 2
  mode := .batched
  bufCap := 32
  tSlow := Config.ticksOfMicros tick 16000
  tInit := Config.ticksOfMicros tick 5000
  tFast := Config.ticksOfMicros tick 50
  tick := tick

/-- The straps that `State.reset` holds: those above, with the suggested `TICK` of 1 µs (R6). -/
def Config.defaults : Cfg := Config.defaultsAt ⟨1, 1⟩

/-- Free value (log entry 5): the content of `DL_TIME` once `DL_VALID` is cleared (R23, U8). -/
opaque Config.freeDlTime : Nat → Time

/-- Free value (log entry 4): the content of `BUF[i]` after reset (R33, U8). -/
opaque Config.freeResetByte : Nat → Byte

/-- Free value (log entry 4): the content of `BUF[i]` once the write that sent it has been answered (R122, U8). The first
argument is the number of the draw, the second the index. -/
opaque Config.freeByte : Nat → Nat → Byte

/-- Free value (log entry 5): the content of `IDX` once the block is `READY` again (R26, U8). -/
opaque Config.freeIdx : Nat → Count

/-- Free value (log entry 5): the content of `DONE` once the block is `READY` again (R26, U8). -/
opaque Config.freeDone : Nat → Count

/-- Free value (log entry 5): the content of `J` once the block is `READY` again, before it is cut to the register's
range (R20, R26, U8). -/
opaque Config.freeJ : Nat → Nat

/-- Free value (log entry 5): the content of `LAST_SLOW` once the block is `READY` again (R26, U8). -/
opaque Config.freeLastSlow : Nat → Bool

end Sys2Proof
end

