-- ==== Sys2Proof/Machine/PinMap.lean ====
section
/-! DEFINITION. The Pin Mapping (R80) and the constants derived from the configuration (R7, R8). -/

namespace Sys2Proof.Machine

/-- `E_MASK = 1 << E_BIT` (R7, R80). -/
def eMask (c : Cfg) : Byte := 1#8 <<< c.eBit.toNat

/-- `RW_MASK = 1 << RW_BIT` (R7, R80). -/
def rwMask (c : Cfg) : Byte := 1#8 <<< c.rwBit.toNat

/-- `AUX_MASK = 1 << AUX_BIT` (R7, R80). -/
def auxMask (c : Cfg) : Byte := 1#8 <<< c.auxBit.toNat

/-- `SLOT`: `6 + F` in batched mode, 6 in direct mode (R7). -/
def slotSize (c : Cfg) : Nat :=
  match c.mode with
  | .direct => 6
  | .batched => 6 + c.fill.toNat

/-- `NS = BUF_CAP div SLOT`: the whole slots that fit in the buffer (R7). -/
def slotCount (c : Cfg) : Nat := c.bufCap / slotSize c

/-- `CFG_OK` (R8): the role bits in 4..7 and pairwise different, room for one command, and in batched mode for one
slot. -/
def cfgOk (c : Cfg) : Bool :=
  decide (4 ≤ c.eBit.toNat) && decide (4 ≤ c.rwBit.toNat) && decide (4 ≤ c.auxBit.toNat)
    && decide (c.eBit ≠ c.rwBit) && decide (c.eBit ≠ c.auxBit) && decide (c.rwBit ≠ c.auxBit)
    && decide (6 ≤ c.bufCap)
    && (match c.mode with
        | .direct => true
        | .batched => decide (6 + c.fill.toNat ≤ c.bufCap))

end Sys2Proof.Machine
end

