-- ==== Sys2Proof/Machine/State.lean ====
section
/-! DEFINITION. The state of one encoder: the block's own registers and buffer (R20), the values standing at its ports
(R60), what can be observed of a run (R10), and the model's one counter of free values. Faults, refusals, reset. -/

namespace Sys2Proof.Machine

/-- The sequencer state `PHASE` (R27). -/
inductive Phase
  /-- No operation in progress; a request can be taken. -/
  | ready
  /-- Header decoded, length being checked. -/
  | check
  /-- Frames and fillers being written to `BUF`. -/
  | pack
  /-- Holding in `WaitDeadline`. -/
  | wait
  /-- A channel write offered and not yet answered. -/
  | write
  /-- Accounting the answer. -/
  | acct
  /-- Response offered to the host. -/
  | resp
deriving DecidableEq, Repr

/-- The error codes of R151, in the order of their numbers 0 to 3. -/
inductive Err
  | ok
  | length
  | channel
  | illegal
deriving DecidableEq, Repr

/-- One request of the host (R60 `REQ` and `STR`, R61): its header and its stream, held unchanged until the response
(R41, U6), and how many ticks pass, once the block is ready for it, until it is taken (R91). -/
structure Request where
  after : Nat
  hdr : Header
  stream : List Byte
deriving DecidableEq, Repr

/-- One answer of the channel (R46, R60 `CHW`): it comes `after` ticks after the write was issued, with the accepted
count `cha_n` and the failure flag `cha_fail`. -/
structure Answer where
  after : Nat
  n : Nat
  fail : Bool
deriving DecidableEq, Repr

/-- A channel write offered on `CHW` and not yet answered: the bytes and the instant of issue (R10, R46). -/
structure Offer where
  bytes : List Byte
  issued : Time
deriving DecidableEq, Repr

/-- One answered channel write, as it is observed (R10 a): the bytes offered, the instants it was issued and answered,
the accepted count, the failure flag. -/
structure WriteRec where
  bytes : List Byte
  issued : Time
  answered : Time
  n : Nat
  fail : Bool
deriving DecidableEq, Repr

/-- The batch buffer, as (index, byte) pairs, indices strictly rising: every byte written since reset. An index that is not
listed holds what reset left there, which the spec leaves unspecified (R24, R33, U8): a free value (log entry 4). -/
abbrev Memory := List Host.Cell

/-- The machine: one encoder, with its ports. Plain data.

The first eleven fields are the block's state as R20 lists it. The port fields hold what stands outside it: by R9 and R20
the time, the channel's answers, the requests and their streams are inputs of the step. They are script lists, one
item per future event, so that a statement about every state is a statement about every behaviour of the host, the
channel and the time base (log entry 2). -/
structure State where
  /-- `CFG` (R28). -/
  cfg : Cfg
  /-- `AUX`, 8 bits (R21). -/
  aux : Byte
  /-- `DL_VALID`, 1 bit: Idle or Armed (R22). -/
  dlValid : Bool
  /-- `DL_TIME`, 64 bits (R23). -/
  dlTime : Time
  /-- `BUF` (R24). -/
  buf : Memory
  /-- `BUF_LEN`, 0 to `BUF_CAP` (R25). -/
  bufLen : Nat
  /-- `PHASE` (R27). -/
  phase : Phase
  /-- `IDX`, 14 bits (R27). -/
  idx : Count
  /-- `J`, 0 to `NS` (R26). -/
  j : Nat
  /-- `DONE`, 14 bits (R26). -/
  done : Count
  /-- `LAST_SLOW`, 1 bit (R29). -/
  lastSlow : Bool
  /-- Port `TIME`: `now`, 64 bits (R91). -/
  now : Time
  /-- Port `TIME`, to come: by how much `now` grows before each further look `WaitDeadline` takes at it (R91, R104); the
  outside adds to the list as it likes (`Input.tick`). None left: no time passes at the look. -/
  ticks : List Nat
  /-- Port `rst`: the level of the reset input (R180). -/
  rst : Bool
  /-- Port `REQ`: the requests the host will present, the first one being presented now (R66). They wait at the host:
  the block queues nothing. -/
  requests : List Request
  /-- Ports `REQ` and `STR`: the request in progress, none when there is none (R40, R66). -/
  cur : Option Request
  /-- Port `CHW`, to come: the channel's answers to the writes from here on; none left means that the next write is
  not answered (R54). -/
  answers : List Answer
  /-- Port `CHW`: the write that is offered and not answered (R46). -/
  offer : Option Offer
  /-- Port `CHW`: the answer received (`cha_n`, `cha_fail`) and not yet accounted. -/
  ans : Option Answer
  /-- Port `RSP`: the response word offered (`rsp_valid` and `rsp_word`, R65). -/
  rsp : Option RespWord
  /-- Port `RSP`: the level of `rsp_ready` (R60). -/
  rspReady : Bool
  /-- Observation (R10 a): the channel writes answered so far, oldest first. -/
  writes : List WriteRec
  /-- Observation (R10 b): the responses taken by the host so far, oldest first. -/
  responses : List RespWord
  /-- The model's own: how many free values have been drawn (log entry 5). -/
  draws : Nat
deriving DecidableEq, Repr

/-- Why the machine stops: an access to a byte that `BUF` does not have. R125 says that it does not happen, and no state
that meets `Inv` (Safety.lean) raises it. -/
inductive Fault
  /-- Raised by packing: a byte would be written at an index that `BUF` does not have (R42, R125). Safe: the spec has no
  such access. -/
  | bufferIndex
deriving DecidableEq, Repr

/-- Situations to which the spec gives no meaning and asks a model to refuse (93_implementation_defined.md). -/
inductive Refusal
  /-- An arm of `exec` without a meaning yet. Safe. There is none. -/
  | notModelled (mnemonic : String)
  /-- Raised by `step` and by every operation: the configuration is not well formed (R8, U1). Safe. -/
  | badConfig
  /-- Raised where a channel answer is received: it accepts more bytes than were offered (R47, U3). Safe. -/
  | channelOverrun
  /-- Raised by `step`: `rst` is 1 while an operation runs (R182, U4). Safe. -/
  | resetDuringOperation
  /-- Raised wherever `now` grows and by `Arm`: the instant would exceed `2^64 - 1` (R91, R95, U5, U7). Safe. -/
  | timeOverflow
  /-- Raised where a stream element is read: the host's stream has no such element (R40, R61, U6). Safe. -/
  | streamElement
deriving DecidableEq, Repr

/-- The state right after reset (R33, R180), `rst` being 0 again. The configuration stands at its straps. The registers
R33 leaves unspecified (`DL_TIME`, `IDX`, `J`, `DONE`, `LAST_SLOW`) are zero here (log entry 3), every byte of `BUF` is a
free value (nothing is listed, log entry 4), and the ports are quiet: time 0, nothing presented, nothing answered, the host ready to take a response
(log entry 2). -/
def State.reset : State where
  cfg := Config.defaults
  aux := 0
  dlValid := false
  dlTime := 0
  buf := []
  bufLen := 0
  phase := .ready
  idx := 0
  j := 0
  done := 0
  lastSlow := false
  now := 0
  ticks := []
  rst := false
  requests := []
  cur := none
  answers := []
  offer := none
  ans := none
  rsp := none
  rspReady := true
  writes := []
  responses := []
  draws := 0

end Sys2Proof.Machine
end

