-- ==== Sys2Proof/Machine/Operands.lean ====
section
/-! DEFINITION. The operands and results of the operations: stream elements (R40, R67), the Frame Encoder (R81, R86,
R87), the auxiliary byte (R140, R141), and the response word (R65). -/

namespace Sys2Proof.Machine

/-- `MemRead(S, i)` (R40): element `i` of the stream in progress, defined only for `i < LEN`. No value too where the
host's stream is shorter than its header says (log entry 6). -/
def State.element (s : State) (len i : Nat) : Option Byte :=
  if i < len then
    match s.cur with
    | some r => r.stream[i]?
    | none => none
  else none

/-- `frame(d, a)` (R69, R81): stable before the pulse, pulse asserted, stable after the pulse. -/
def frame (c : Cfg) (d a : Byte) : List Byte := [d ||| a, d ||| a ||| eMask c, d ||| a]

/-- `record(dh, dl, a)` (R86): the six bytes of one command, high nibble first (R45). -/
def record (c : Cfg) (dh dl a : Byte) : List Byte := frame c dh a ++ frame c dl a

/-- `zeros(F)` (R11, R70): the filler bytes of a slot, each 0x00 whatever `AUX` holds (C1). -/
def fillers (c : Cfg) : List Byte := List.replicate c.fill.toNat 0#8

/-- `slot(dh, dl, a)` (R87): a record and its fillers. -/
def slot (c : Cfg) (dh dl a : Byte) : List Byte := record c dh dl a ++ fillers c

/-- A line of `AUX` set to a level: the bit of `mask` set or cleared, the others kept (R140, R141). -/
def setLine (mask a : Byte) (v : Bool) : Byte := if v then a ||| mask else a &&& ~~~mask

/-- The number of an error code (R151). -/
def Err.code : Err → BitVec 2
  | .ok => 0
  | .length => 1
  | .channel => 2
  | .illegal => 3

/-- The response word (R65): `ERR` in bits 15:14, `DONE` in bits 13:0. -/
def respWord (done : Count) (e : Err) : RespWord := e.code ++ done

/-- The error a rejected header is answered with (R72). -/
def rejectErr : Reject → Err
  | .illegal => .illegal
  | .badLength => .length

/-- A write of `len` bytes is good (R48): no failure and every byte accepted. -/
def Answer.good (a : Answer) (len : Nat) : Bool := !a.fail && a.n == len

end Sys2Proof.Machine
end

