-- ==== Sys2Proof/Machine/Ops.lean ====
section
/-! DEFINITION. The named operations the meanings are made of: time (R91), the batch buffer (R24, R42), the channel
(R46 to R48), ending an operation with a response or an error (R155) and the return to `READY` after it (R159). -/

namespace Sys2Proof.Machine

/-- How a stretch of an operation's pseudocode ends: it goes on, it stops for now (the response is offered, or the block
is held in `WAIT` or `WRITE`), it faults, or the spec gives no meaning. -/
inductive Flow
  | go (s : State)
  | stop (s : State)
  | fault (r : Fault)
  | refuse (r : Refusal)
deriving DecidableEq, Repr

/-- Sequence: what follows is done only if the stretch before goes on (R155: `raise` does none of what follows). -/
def Flow.andThen (m : Flow) (f : State → Flow) : Flow :=
  match m with
  | .go s => f s
  | .stop s => .stop s
  | .fault r => .fault r
  | .refuse r => .refuse r

/-- The outcome of an operation, or of the part of it that could run. -/
def Flow.outcome : Flow → Host.Outcome State Fault Refusal
  | .go s => .next s
  | .stop s => .next s
  | .fault r => .fault r
  | .refuse r => .refused r

/-! ### Time -/

/-- `now` after it grew by `d` ticks (R91); no value past `2^64 - 1` (U5, U7). -/
def advance (now : Time) (d : Nat) : Option Time :=
  if now.toNat + d < 2 ^ 64 then some (BitVec.ofNat 64 (now.toNat + d)) else none

/-! ### The batch buffer -/

/-- The byte listed at an index. -/
def Memory.find : Memory → Nat → Option Byte
  | [], _ => none
  | (x, b) :: m, a => if x = a then some b else Memory.find m a

/-- `BUF[a]`: the byte listed there; what an unlisted index reads as is the free value of reset (R33, U8, log entry 4). -/
def Memory.read (m : Memory) (a : Nat) : Byte :=
  match Memory.find m a with
  | some b => b
  | none => Config.freeResetByte a

/-- One byte written, the indices kept strictly rising. -/
def Memory.write : Memory → Nat → Byte → Memory
  | [], a, b => [(a, b)]
  | (x, c) :: m, a, b =>
    if a < x then (a, b) :: (x, c) :: m
    else if a = x then (a, b) :: m
    else (x, c) :: Memory.write m a b

/-- Consecutive bytes written, lower index first (R45 b). -/
def Memory.writeBytes : Memory → Nat → List Byte → Memory
  | m, _, [] => m
  | m, a, b :: bs => Memory.writeBytes (Memory.write m a b) (a + 1) bs

/-- `n` consecutive bytes read, lower index first. -/
def Memory.readBytes (m : Memory) : Nat → Nat → List Byte
  | _, 0 => []
  | a, n + 1 => Memory.read m a :: Memory.readBytes m (a + 1) n

/-- The bytes below an index are unspecified from now on (R24, R122): each is the free value of its index and the draw
`k` (U8, log entry 4). -/
def Memory.unspecify (m : Memory) (n k : Nat) : Memory :=
  Memory.writeBytes m 0 ((List.range n).map (Config.freeByte k))

/-- The canonical form: indices strictly rising, so each listed once. (What an unlisted index reads as is a free value: no
byte can be told equal to it, so an entry, once written, stays listed; log entry 4.) -/
def Memory.wf : Memory → Bool
  | [] => true
  | [_] => true
  | (a, _) :: (b, c) :: m => decide (a < b) && Memory.wf ((b, c) :: m)

/-- `MemWrite(BUF, i, n, bytes)` (R12). -/
def storeBytes (i : Nat) (bytes : List Byte) (s : State) : Flow :=
  if i + bytes.length ≤ s.cfg.bufCap then .go { s with buf := Memory.writeBytes s.buf i bytes }
  else .fault .bufferIndex

/-! ### Updates of the registers -/

/-- `PHASE <- p` (R27). -/
def State.toPhase (s : State) (p : Phase) : State := { s with phase := p }

/-- `AUX <- a` (R21). -/
def State.setAux (s : State) (a : Byte) : State := { s with aux := a }

/-- `BUF_LEN <- n` (R25). -/
def State.setBufLen (s : State) (n : Nat) : State := { s with bufLen := n }

/-- `IDX <- 0; DONE <- 0` (R114, R115). -/
def State.startXmit (s : State) : State := { s with idx := 0, done := 0 }

/-- `IDX <- IDX + 2` (R27). -/
def State.nextPair (s : State) : State := { s with idx := s.idx + 2 }

/-- `J <- n` (R26). -/
def State.setJ (s : State) (n : Nat) : State := { s with j := n }

/-- `LAST_SLOW <- b` (R29). -/
def State.setLastSlow (s : State) (b : Bool) : State := { s with lastSlow := b }

/-- `DONE <- d` (R26). -/
def State.setDone (s : State) (d : Count) : State := { s with done := d }

/-- `now` seen as `t`, the draws left being `ts` (R91). -/
def State.passTo (s : State) (t : Time) (ts : List Nat) : State := { s with now := t, ticks := ts }

/-- `DL_TIME <- t; DL_VALID <- 1` (R95). -/
def State.setDeadline (s : State) (t : Time) : State := { s with dlValid := true, dlTime := t }

/-- `DL_VALID <- 0` (R93). `DL_TIME` has no meaning from here on (R23): a free value (log entry 5). -/
def State.clearDeadline (s : State) : State :=
  { s with dlValid := false, dlTime := Config.freeDlTime s.draws, draws := s.draws + 1 }

/-- The channel has answered: `PHASE = ACCT`, `BUF_LEN <- 0` (R25, R118), the bytes that were sent are unspecified from
then on (R122, U8: free values, log entry 4), and the answer is accounted here. -/
def State.emptyBuffer (s : State) : State :=
  { s with
    phase := .acct, ans := none, bufLen := 0, buf := Memory.unspecify s.buf s.bufLen s.draws, draws := s.draws + 1 }

/-! ### The channel -/

/-- The write `ChanWrite(bytes)` is issued at `now` (R46). -/
def State.putOffer (s : State) (bytes : List Byte) : State :=
  { s with phase := .write, offer := some ⟨bytes, s.now⟩ }

/-- The answer `a` to the write `w` is received at the instant `t` (R100), `rest` being the channel's later answers. -/
def State.takeAnswer (s : State) (w : Offer) (a : Answer) (rest : List Answer) (t : Time) : State :=
  { s with
    now := t, answers := rest, offer := none, ans := some a,
    writes := s.writes ++ [⟨w.bytes, w.issued, t, a.n, a.fail⟩] }

/-- `ChanWrite(BUF[0..BUF_LEN-1])` is issued (R118): the one write offers its whole byte sequence (R12, R46), the whole batch
(R115, R116), and R52 and R122 say that every byte produced has been offered when the response is. Where the channel accepts only
a part of it, R158 says that no byte of a command later than `DONE` was offered: of the commands in the same write that
would contradict those rules, so the model reads it of the commands after the failed write (DEDUCED, log entry 19). -/
def offerBuffer (s : State) : Flow := .go (s.putOffer (Memory.readBytes s.buf 0 s.bufLen))

/-- The block is suspended until the channel answers (R46, R54). No answer left: it stays in `WRITE`. An answer above the
offer has no meaning (U3). -/
def awaitAnswer (s : State) : Flow :=
  match s.offer, s.answers with
  | some w, a :: rest =>
    if a.n ≤ w.bytes.length then
      match advance s.now a.after with
      | some t => .go (s.takeAnswer w a rest t)
      | none => .refuse .timeOverflow
    else .refuse .channelOverrun
  | _, _ => .stop s

/-! ### Starting and ending an operation -/

/-- An operation begins: `PHASE = CHECK`. An ill-formed configuration is refused (R8, U1). -/
def beginOp (s : State) : Flow :=
  if cfgOk s.cfg then .go (s.toPhase .check) else .refuse .badConfig

/-- `respond(done, OK)` (R12): the response is offered on `RSP`. -/
def respond (done : Count) (s : State) : State :=
  { s with phase := .resp, rsp := some (respWord done .ok) }

/-- `raise Err(code, done)` (R155), the block's one form of exception (R157): the response word `(done, code)` is offered
on `RSP` and is the only record; no state is saved, no mode changes, what was written stays written. -/
def raiseErr (code : Err) (done : Count) (s : State) : State :=
  { s with phase := .resp, rsp := some (respWord done code) }

/-- The host takes the response and the block is `READY` (R66, R159). The request is over (R40). The scratch registers of
the operation have no meaning from here on (R26, U8): free values (log entry 5), `J` within its register's range. -/
def State.release (s : State) (w : RespWord) : State :=
  { s with
    phase := .ready, cur := none, rsp := none, responses := s.responses ++ [w]
    idx := Config.freeIdx s.draws, done := Config.freeDone s.draws
    j := Config.freeJ s.draws % (slotCount s.cfg + 1), lastSlow := Config.freeLastSlow s.draws
    draws := s.draws + 1 }

/-- The return after a response, error or not: it is taken once the host is ready for it (R60, R155). -/
def takeResponse (s : State) : State :=
  match s.rsp with
  | some w => if s.rspReady then s.release w else s
  | none => s

/-- One cycle with `rst` at 1 (R180, R33): the block's registers as after reset. The straps, the ports and what was
observed are not the block's registers and stay; nothing is written to the channel (R183). -/
def resetBlock (s : State) : State :=
  { s with
    aux := State.reset.aux, dlValid := State.reset.dlValid, dlTime := State.reset.dlTime
    buf := State.reset.buf, bufLen := State.reset.bufLen, phase := State.reset.phase
    idx := State.reset.idx, j := State.reset.j, done := State.reset.done, lastSlow := State.reset.lastSlow }

end Sys2Proof.Machine
end

