-- ==== Sys2Proof/Machine/Auxiliary.lean ====
section
/-! DEFINITION. The auxiliary-state operations `SETRW` (R140) and `SETAUX` (R141), over what they share (R142 to R145):
`AUX` is updated, one byte is written at once, without `WaitDeadline`, `BUF` or `Arm`. -/

namespace Sys2Proof.Machine

/-- The answer to the one byte (R140, R141, R144). The phases are `WRITE` and `RESP`; `ACCT` is skipped (R142), and the
response's count is 0 whatever the channel accepted. -/
def auxFinish (s : State) : Flow :=
  match s.ans with
  | some a =>
    if a.good 1 then .stop (respond 0 { s with ans := none })
    else .stop (raiseErr .channel 0 { s with ans := none })
  | none => .stop s

/-- An auxiliary operation from `WRITE` on. -/
def auxFromWrite (s : State) : Flow := (awaitAnswer s).andThen auxFinish

/-- `AUX` takes its new value, and `ChanWrite([AUX])` is issued (R143). -/
def auxWrite (a : Byte) (s : State) : Flow := auxFromWrite ((s.setAux a).putOffer [a])

/-- `SETRW v` (R140). -/
def execSetrw (v : Bool) (s : State) : Host.Outcome State Fault Refusal :=
  ((beginOp s).andThen fun s => auxWrite (setLine (rwMask s.cfg) s.aux v) s).outcome

/-- `SETAUX v` (R141). -/
def execSetaux (v : Bool) (s : State) : Host.Outcome State Fault Refusal :=
  ((beginOp s).andThen fun s => auxWrite (setLine (auxMask s.cfg) s.aux v) s).outcome

/-- A `SETRW` in progress goes on from the phase it is in. `PACK`, `WAIT` and `ACCT` are skipped by it (R142): nothing
is left to do in them. -/
def resumeSetrw (v : Bool) (s : State) : Host.Outcome State Fault Refusal :=
  match s.phase with
  | .ready => .next s
  | .check => execSetrw v s
  | .pack => .next s
  | .wait => .next s
  | .write => (auxFromWrite s).outcome
  | .acct => .next s
  | .resp => .next s

/-- A `SETAUX` in progress goes on from the phase it is in. -/
def resumeSetaux (v : Bool) (s : State) : Host.Outcome State Fault Refusal :=
  match s.phase with
  | .ready => .next s
  | .check => execSetaux v s
  | .pack => .next s
  | .wait => .next s
  | .write => (auxFromWrite s).outcome
  | .acct => .next s
  | .resp => .next s

end Sys2Proof.Machine
end

