-- ==== Sys2Proof/Machine/Flags.lean ====
section
/-! DEFINITION. The Timing Scheduler: the slow flag of a command (R96, R97) and the deadline flag `DL_VALID` with its
register `DL_TIME`, waited for (R93) and armed (R95). -/

namespace Sys2Proof.Machine

/-- `cmdval(dh, dl)` (R96): the combined value of a command, from bits 3:0 of its two elements. -/
def cmdval (dh dl : Byte) : Byte := dh.extractLsb' 0 4 ++ dl.extractLsb' 0 4

/-- `slow(dh, dl)` (R97): the combined value is below 4, unsigned. -/
def slow (dh dl : Byte) : Bool := decide ((cmdval dh dl).toNat < 4)

/-- How a hold ends. -/
inductive Hold
  /-- `now` has reached the target. -/
  | over (now : Time) (left : List Nat)
  /-- The time base has not got there: the block is still held. -/
  | held (now : Time)
  /-- `now` would exceed `2^64 - 1`. -/
  | wrapped
deriving DecidableEq, Repr

/-- Hold until `now >= target` (R93). Before each look the time base may have moved by any amount, the next draw (R91): so
a hold that ends, ends at any instant from the target on (R104). -/
def hold (target : Time) : Time → List Nat → Hold
  | now, [] => if target ≤ now then .over now [] else .held now
  | now, d :: ds =>
    match advance now d with
    | some t => if target ≤ t then .over t ds else hold target t ds
    | none => .wrapped

/-- The instant `WaitDeadline` holds for (R93): `DL_TIME` when Armed; when Idle no time need pass. -/
def State.holdTarget (s : State) : Time := if s.dlValid then s.dlTime else 0

/-- `WaitDeadline()` (R93): `PHASE = WAIT` until the deadline has passed, then `DL_VALID <- 0`; when Idle nothing is
held. -/
def waitDeadline (s : State) : Flow :=
  match hold s.holdTarget s.now s.ticks with
  | .over t ts =>
    if s.dlValid then .go ((s.toPhase .wait).passTo t ts).clearDeadline
    else .go ((s.toPhase .wait).passTo t ts)
  | .held t => .stop ((s.toPhase .wait).passTo t [])
  | .wrapped => .refuse .timeOverflow

/-- `Arm(T)` (R95): the deadline is `now + T`, which must not overflow (U5). -/
def arm (settle : Time) (s : State) : Flow :=
  match advance s.now settle.toNat with
  | some t => .go (s.setDeadline t)
  | none => .refuse .timeOverflow

/-- `if b: Arm(T)`. -/
def armIf (b : Bool) (settle : Time) (s : State) : Flow := if b then arm settle s else .go s

end Sys2Proof.Machine
end

