-- ==== Sys2Proof/Machine/Transmit.lean ====
section
/-! DEFINITION. The transmit operations `XINIT` (R113) and `XMIT` (R114 in direct mode, R115 to R119 in batched mode).
Each phase of R27 is a function; what follows a phase is the chain from the next one, so that an operation held in `WAIT`
or `WRITE` resumes where it stands. -/

namespace Sys2Proof.Machine

/-! ### XINIT -/

/-- `PACK` of R113: the frame of element 0 in `BUF[0..2]`. -/
def xinitPack (s : State) : Flow :=
  match s.element 1 0 with
  | some d => (storeBytes 0 (frame s.cfg d s.aux) (s.toPhase .pack)).andThen fun s => .go (s.setBufLen 3)
  | none => .refuse .streamElement

/-- `ACCT` of R113: `c = n div 3`; a confirmed frame arms `T_INIT` whatever the element and the mode (R99). -/
def xinitAcct (s : State) : Flow :=
  match s.ans with
  | some a =>
    (armIf (a.n / 3 == 1) s.cfg.tInit s.emptyBuffer).andThen fun s =>
      if a.good 3 then .stop (respond 1 (s.setDone (BitVec.ofNat 14 (a.n / 3))))
      else .stop (raiseErr .channel (BitVec.ofNat 14 (a.n / 3)) (s.setDone (BitVec.ofNat 14 (a.n / 3))))
  | none => .stop s

/-- `XINIT` from `WRITE` on. -/
def xinitFromWrite (s : State) : Flow := (awaitAnswer s).andThen xinitAcct

/-- `XINIT` from `WAIT` on. -/
def xinitFromWait (s : State) : Flow := ((waitDeadline s).andThen offerBuffer).andThen xinitFromWrite

/-- `XINIT` from `PACK` on. -/
def xinitFromPack (s : State) : Flow := (xinitPack s).andThen xinitFromWait

/-- `XINIT` from `CHECK` on: `DONE` starts at 0 (R26). -/
def xinitStart (s : State) : Flow := xinitFromPack (s.setDone 0)

/-- `XINIT` (R113): the same in both modes. -/
def execXinit (s : State) : Host.Outcome State Fault Refusal := ((beginOp s).andThen xinitStart).outcome

/-- An `XINIT` in progress goes on from the phase it is in. -/
def resumeXinit (s : State) : Host.Outcome State Fault Refusal :=
  match s.phase with
  | .ready => .next s
  | .check => execXinit s
  | .pack => (xinitFromPack s).outcome
  | .wait => (xinitFromWait s).outcome
  | .write => (xinitFromWrite s).outcome
  | .acct => (xinitAcct s).outcome
  | .resp => .next s

/-! ### XMIT, direct mode -/

/-- `PACK` of R114: the record of the next command in `BUF[0..5]`. -/
def xmitPackDirect (pairs : BitVec 13) (s : State) : Flow :=
  match s.element (lenOf pairs).toNat s.idx.toNat, s.element (lenOf pairs).toNat (s.idx.toNat + 1) with
  | some dh, some dl =>
    (storeBytes 0 (record s.cfg dh dl s.aux) (s.toPhase .pack).nextPair).andThen fun s =>
      .go ((s.setBufLen 6).setLastSlow (slow dh dl))
  | _, _ => .refuse .streamElement

/-- The end of `ACCT` in R114 and R115: `DONE <- DONE + c`, then `raise Err(ERR_CHANNEL, DONE)` unless the write was good. -/
def countUnits (good : Bool) (c : Nat) (s : State) : Flow :=
  if good then .go (s.setDone (s.done + BitVec.ofNat 14 c))
  else .stop (raiseErr .channel (s.done + BitVec.ofNat 14 c) (s.setDone (s.done + BitVec.ofNat 14 c)))

/-- `ACCT` of R114: `c = n div 6`; a confirmed command arms `T_SLOW` or `T_FAST` (R98). Goes on when the write was
good. -/
def xmitAcctDirect (s : State) : Flow :=
  match s.ans with
  | some a =>
    (armIf (a.n / 6 == 1) (if s.lastSlow then s.cfg.tSlow else s.cfg.tFast) s.emptyBuffer).andThen
      (countUnits (a.good 6) (a.n / 6))
  | none => .stop s

/-! ### XMIT, batched mode -/

/-- One turn of the packing loop of R115: slot `J` holds the next command (R117). -/
def packSlot (pairs : BitVec 13) (s : State) : Flow :=
  match s.element (lenOf pairs).toNat s.idx.toNat, s.element (lenOf pairs).toNat (s.idx.toNat + 1) with
  | some dh, some dl =>
    (storeBytes (s.j * slotSize s.cfg) (slot s.cfg dh dl s.aux) (s.toPhase .pack).nextPair).andThen fun s =>
      .go ((s.setJ (s.j + 1)).setLastSlow (slow dh dl))
  | _, _ => .refuse .streamElement

/-- A batch is closed (R116): its last command is slow, or the buffer is full, or the stream has ended. -/
def batchClosed (pairs : BitVec 13) (s : State) : Bool :=
  s.lastSlow || s.j == slotCount s.cfg || s.idx == lenOf pairs

/-- The packing loop of R115. The first argument bounds its turns: the commands of the stream are enough. -/
def packLoop (pairs : BitVec 13) : Nat → State → Flow
  | 0, s => .go s
  | n + 1, s => (packSlot pairs s).andThen fun s => if batchClosed pairs s then .go s else packLoop pairs n s

/-- `PACK` of R115: one batch (R116), then `BUF_LEN <- J * SLOT`. -/
def xmitPackBatched (pairs : BitVec 13) (s : State) : Flow :=
  (packLoop pairs pairs.toNat s).andThen fun s => .go (s.setBufLen (s.j * slotSize s.cfg))

/-- `ACCT` of R115: `c = n div SLOT`; a confirmed slow last command arms `T_SLOW` and nothing else arms (R119). Goes on
when the write was good. -/
def xmitAcctBatched (s : State) : Flow :=
  match s.ans with
  | some a =>
    (armIf (a.n / slotSize s.cfg == s.j && s.lastSlow) s.cfg.tSlow s.emptyBuffer).andThen
      (countUnits (a.good (s.j * slotSize s.cfg)) (a.n / slotSize s.cfg))
  | none => .stop s

/-! ### XMIT, both modes (R110) -/

/-- `PACK`, by mode. -/
def xmitPack (pairs : BitVec 13) (s : State) : Flow :=
  match s.cfg.mode with
  | .direct => xmitPackDirect pairs s
  | .batched => xmitPackBatched pairs s

/-- `ACCT`, by mode. -/
def xmitAcct (s : State) : Flow :=
  match s.cfg.mode with
  | .direct => xmitAcctDirect s
  | .batched => xmitAcctBatched s

/-- One channel write of `XMIT` from `WRITE` on. -/
def xmitFromWrite (s : State) : Flow := (awaitAnswer s).andThen xmitAcct

/-- One channel write of `XMIT` from `WAIT` on. -/
def xmitFromWait (s : State) : Flow := ((waitDeadline s).andThen offerBuffer).andThen xmitFromWrite

/-- One channel write of `XMIT` from `PACK` on. -/
def xmitFromPack (pairs : BitVec 13) (s : State) : Flow := (xmitPack pairs s).andThen xmitFromWait

/-- The head of a turn of the outer loop: `J <- 0` in batched mode (R115); R114 has no `J`. -/
def startBatch (s : State) : State :=
  match s.cfg.mode with
  | .direct => s
  | .batched => s.setJ 0

/-- The outer loop of R114 and R115: one channel write a turn while `IDX < LEN`, then `respond(DONE, OK)`. The first
argument bounds its turns: the commands of the stream are enough (R124). -/
def xmitLoop (pairs : BitVec 13) : Nat → State → Flow
  | 0, s => .stop (respond s.done s)
  | n + 1, s =>
    if s.idx < lenOf pairs then (xmitFromPack pairs (startBatch s)).andThen (xmitLoop pairs n)
    else .stop (respond s.done s)

/-- The length check of R111, and `IDX <- 0; DONE <- 0`. -/
def xmitCheck (pairs : BitVec 13) (s : State) : Flow :=
  if pairs = 0 then .stop (raiseErr .length 0 s) else .go s.startXmit

/-- `XMIT` (R110, R114, R115) of `pairs` commands. -/
def execXmit (pairs : BitVec 13) (s : State) : Host.Outcome State Fault Refusal :=
  (((beginOp s).andThen (xmitCheck pairs)).andThen (xmitLoop pairs pairs.toNat)).outcome

/-- An `XMIT` in progress goes on from the phase it is in. -/
def resumeXmit (pairs : BitVec 13) (s : State) : Host.Outcome State Fault Refusal :=
  match s.phase with
  | .ready => .next s
  | .check => execXmit pairs s
  | .pack => ((xmitFromPack pairs s).andThen (xmitLoop pairs pairs.toNat)).outcome
  | .wait => ((xmitFromWait s).andThen (xmitLoop pairs pairs.toNat)).outcome
  | .write => ((xmitFromWrite s).andThen (xmitLoop pairs pairs.toNat)).outcome
  | .acct => ((xmitAcct s).andThen (xmitLoop pairs pairs.toNat)).outcome
  | .resp => .next s

end Sys2Proof.Machine
end

