-- ==== Sys2Proof/Machine/Dispatch.lean ====
section
/-! DEFINITION. The meaning of each operation, one arm per constructor of `Instr`. -/

namespace Sys2Proof.Machine

def exec (i : Instr) (s : State) : Host.Outcome State Fault Refusal :=
  match i with
  | .xinit => Sys2Proof.Machine.execXinit s
  | .xmit pairs => Sys2Proof.Machine.execXmit pairs s
  | .setrw v => Sys2Proof.Machine.execSetrw v s
  | .setaux v => Sys2Proof.Machine.execSetaux v s

end Sys2Proof.Machine
end

