-- ==== Sys2Proof/Machine/Fetch.lean ====
section
/-! DEFINITION. Taking a request from the host (R66) and going on with the operation in progress (R27): what stands here
in place of fetching at a program counter. -/

namespace Sys2Proof.Machine

/-- What the block finds at its `REQ` port in `READY`. -/
inductive Taken
  /-- No request is presented. -/
  | idle
  /-- The instant of taking it would exceed `2^64 - 1` (U5, U7). -/
  | wrapped
  /-- A request taken: `s` is the state with it in progress. -/
  | request (d : Decoded) (s : State)
deriving DecidableEq, Repr

/-- The request `r` is taken at the instant `t`, `rest` being the ones the host presents later: the block leaves `READY`
(R66) and the header is decoded (`PHASE = CHECK`, R27). -/
def State.takeRequest (s : State) (r : Request) (rest : List Request) (t : Time) : State :=
  { s with phase := .check, now := t, requests := rest, cur := some r }

/-- The `REQ` port in `READY` (R66, R73). -/
def takeNext (s : State) : Taken :=
  match s.requests with
  | [] => .idle
  | r :: rest =>
    match advance s.now r.after with
    | some t => .request (decode r.hdr) (s.takeRequest r rest t)
    | none => .wrapped

/-- A rejected request (R72, R152, R153): the error response at once, nothing else. -/
def reject (e : Reject) (s : State) : State := raiseErr (rejectErr e) 0 s

/-- The operation in progress goes on (R27). -/
def resumeOp (i : Instr) (s : State) : Host.Outcome State Fault Refusal :=
  match i with
  | .xinit => resumeXinit s
  | .xmit pairs => resumeXmit pairs s
  | .setrw v => resumeSetrw v s
  | .setaux v => resumeSetaux v s

/-- The request in progress goes on: its header says which operation it is. A rejected header has nothing to do but to be
answered. -/
def resume (s : State) : Host.Outcome State Fault Refusal :=
  match s.cur with
  | some r =>
    match decode r.hdr with
    | .op i => resumeOp i s
    | .rejected e => .next (reject e s)
  | none => .next s

end Sys2Proof.Machine
end

