-- ==== Sys2Proof/Machine/Step.lean ====
section
/-! DEFINITION. One step of the block, and the placing of one request for the host's probe. -/

namespace Sys2Proof.Machine

/-- One step (R9: the sequencer is the one agent). An ill-formed configuration is refused (R8, U1). With `rst` at 1 the
block is reset, in `READY` only (R180, R182). In `READY` the next request is taken and its operation runs until its
response is offered or the block is held in `WAIT` or `WRITE`; with no request presented nothing happens. In `RESP` the
response is taken. In any other phase the operation in progress goes on. -/
def step (s : State) : Host.Outcome State Fault Refusal :=
  if cfgOk s.cfg then
    if s.rst then
      match s.phase with
      | .ready => .next (resetBlock s)
      | _ => .refused .resetDuringOperation
    else
      match s.phase with
      | .ready =>
        match takeNext s with
        | .idle => .next s
        | .wrapped => .refused .timeOverflow
        | .request (.op i) t => exec i t
        | .request (.rejected e) t => .next (reject e t)
      | .resp => .next (takeResponse s)
      | _ => resume s
  else .refused .badConfig

/-- The request whose header is `w` and whose stream elements, as many as the header says, are all zero. -/
def zeroRequest (w : Nat) : Request :=
  { after := 0
    hdr := BitVec.ofNat 16 w
    stream := List.replicate (payloadLen (BitVec.ofNat 16 w)) 0#8 }

/-- `s` with that request presented at `REQ` and the block ready to take it, so that the next step takes and runs it
(log entry 7: requests come from the host, outside the block). -/
def State.withFetchWord (s : State) (nbits w : Nat) : State :=
  { s with
    phase := .ready, rst := false, cur := none
    requests := zeroRequest (w % 2 ^ nbits) :: s.requests }

end Sys2Proof.Machine
end

