-- ==== Sys2Proof/Machine/Inputs.lean ====
section
/-! DEFINITION. What the outside does to the block between two of its steps (R9): the host, the channel, the time base and
the reset line act on the ports only. -/

namespace Sys2Proof.Machine

/-- One event from outside. -/
inductive Input
  /-- The host has one more request to present (R66). -/
  | request (r : Request)
  /-- The channel will give one more answer (R46). -/
  | answer (a : Answer)
  /-- The time base grows by `d` ticks now (R91). -/
  | pass (d : Nat)
  /-- The time base will have grown by `d` ticks at one more look of `WaitDeadline` (R91, R104). -/
  | tick (d : Nat)
  /-- The reset line goes to a level (R180). -/
  | rst (level : Bool)
  /-- The host's readiness for a response goes to a level (R60). -/
  | rspReady (level : Bool)
deriving DecidableEq, Repr

/-- The state after an event from outside; none where `now` would exceed `2^64 - 1` (U5, U7). -/
def State.input (s : State) : Input → Option State
  | .request r => some { s with requests := s.requests ++ [r] }
  | .answer a => some { s with answers := s.answers ++ [a] }
  | .pass d =>
    match advance s.now d with
    | some t => some { s with now := t }
    | none => none
  | .tick d => some { s with ticks := s.ticks ++ [d] }
  | .rst level => some { s with rst := level }
  | .rspReady level => some { s with rspReady := level }

end Sys2Proof.Machine
end

