-- ==== Sys2Proof/Safety.lean ====
section
/-! DEFINITION. The terms claims are made in: what can be observed (R10, R48), the commands of a stream and the writes they
are cut into (R112, R116, R126), the settle time a write owes (R98), and the invariant of the block (R32). -/

namespace Sys2Proof.Machine

/-! ### Observation -/

/-- The wire stream of a list of writes (R48): the accepted prefixes, in order. -/
def wire (ws : List WriteRec) : List Byte := ws.flatMap fun w => w.bytes.take w.n

/-- The accepted bytes of a write and the first one that was not accepted: nothing behind it can have been taken (R47). This is
less than what was offered (R10), which is all of `bytes`. -/
def WriteRec.presented (w : WriteRec) : List Byte := w.bytes.take (w.n + 1)

/-- A write that was answered good (R48). -/
def WriteRec.good (w : WriteRec) : Bool := !w.fail && w.n == w.bytes.length

/-! ### Elements and commands -/

/-- The bits of a byte that the pin mapping gives a role (R84). -/
def roleMask (c : Cfg) : Byte := eMask c ||| rwMask c ||| auxMask c

/-- A well-formed element (R84, R192): it keeps clear of the three mapped bits. -/
def elemOk (c : Cfg) (d : Byte) : Prop := d &&& roleMask c = 0

/-- A command: its high and its low element. -/
abbrev Cmd := Byte × Byte

/-- The commands of a stream (R45 a): elements `2k` and `2k+1`. -/
def commands : List Byte → List Cmd
  | dh :: dl :: rest => (dh, dl) :: commands rest
  | _ => []

/-- The bytes of one unit (R112): a record in direct mode (R86), a slot in batched mode (R87). -/
def unitBytes (c : Cfg) (a : Byte) (u : Cmd) : List Byte :=
  match c.mode with
  | .direct => record c u.1 u.2 a
  | .batched => slot c u.1 u.2 a

/-- Commands cut into batches (R116, R126): `acc` is the open batch; it is closed by a slow command, when it holds `ns`
commands, and at the end of the stream. -/
def cutFrom (ns : Nat) : List Cmd → List Cmd → List (List Cmd)
  | acc, [] => if acc = [] then [] else [acc]
  | acc, u :: us =>
    if slow u.1 u.2 || acc.length + 1 == ns then (acc ++ [u]) :: cutFrom ns [] us
    else cutFrom ns (acc ++ [u]) us

/-- The commands of each channel write of an `XMIT`, if every write is good: one a write in direct mode (R114), a batch a
write in batched mode (R116). -/
def plannedWrites (c : Cfg) (us : List Cmd) : List (List Cmd) :=
  match c.mode with
  | .direct => us.map fun u => [u]
  | .batched => cutFrom (slotCount c) [] us

/-- The bytes of one channel write of an `XMIT`. -/
def writeBytes (c : Cfg) (a : Byte) (us : List Cmd) : List Byte := us.flatMap (unitBytes c a)

/-- The bytes of the units the channel confirmed in a write of an `XMIT` (R112): `n div U` whole units. -/
def confirmed (c : Cfg) (w : WriteRec) : List Byte := w.bytes.take (w.n / slotSize c * slotSize c)

/-! ### A run on a good channel -/

/-- The settle time that a good write of the commands `us` arms (R98): by the class of the last one and the mode. -/
def settleOf (c : Cfg) (us : List Cmd) : Option Time :=
  match us.getLast? with
  | some u =>
    if slow u.1 u.2 then some c.tSlow
    else
      match c.mode with
      | .direct => some c.tFast
      | .batched => none
  | none => none

/-- The deadline after a good write of `us` answered at `u`: none when nothing is armed (R98). No value where it would exceed
`2^64 - 1` (U5). -/
def dueAfter (c : Cfg) (us : List Cmd) (u : Time) : Option (Option Time) :=
  match settleOf c us with
  | some settle => (advance u settle.toNat).map some
  | none => some none

/-- What is left and recorded when planned writes are done. -/
structure Run where
  /-- The writes, with the instants of their issue and answer. -/
  writes : List WriteRec
  /-- The deadline, none when Idle. -/
  deadline : Option Time
  now : Time
  ticks : List Nat
  answers : List Answer
deriving DecidableEq, Repr

/-- The planned writes carried out one after the other under the auxiliary state `a`, each held only by the deadline that is
armed then (R93), from a deadline (none: Idle), an instant, the draws and the answers to come. No value where a hold does
not end, an answer is missing or is not good (R48), or an instant does not fit. -/
def goodRun (c : Cfg) (a : Byte) : List (List Cmd) → Option Time → Time → List Nat → List Answer → Option Run
  | [], due, now, ticks, answers => some ⟨[], due, now, ticks, answers⟩
  | _ :: _, _, _, _, [] => none
  | us :: plan, due, now, ticks, ans :: answers =>
    match hold (due.getD 0) now ticks with
    | .over t left =>
      if ans.good (us.length * slotSize c) then
        match advance t ans.after with
        | some u =>
          match dueAfter c us u with
          | some due' =>
            match goodRun c a plan due' u left answers with
            | some e => some { e with writes := ⟨writeBytes c a us, t, u, ans.n, ans.fail⟩ :: e.writes }
            | none => none
          | none => none
        | none => none
      else none
    | .held _ => none
    | .wrapped => none

/-! ### Settle times -/

/-- The last command of a write of an `XMIT`, as it can be read off the bytes sent: the first bytes of the two frames of
its last unit carry the two nibbles in bits 3:0 (R45 c, R81). -/
def lastCmd (c : Cfg) (bytes : List Byte) : Option Cmd :=
  match bytes[bytes.length - slotSize c]?, bytes[bytes.length - slotSize c + 3]? with
  | some dh, some dl => some (dh, dl)
  | _, _ => none

/-- A write of `XINIT` or `XMIT`: those of `SETRW` and `SETAUX` have one byte (R49). -/
def WriteRec.transmits (w : WriteRec) : Bool := w.bytes.length != 1

/-- The settle time a transmit write owes (R98, R99, R101): `T_INIT` after a confirmed frame of `XINIT` (3 bytes, R49), `T_SLOW`
after a write whose last unit is confirmed and slow, `T_FAST` in direct mode after a confirmed fast command, else none. -/
def owed (c : Cfg) (w : WriteRec) : Nat :=
  if w.n = w.bytes.length then
    if w.bytes.length = 3 then c.tInit.toNat
    else
      match lastCmd c w.bytes with
      | some u =>
        if slow u.1 u.2 then c.tSlow.toNat
        else
          match c.mode with
          | .direct => c.tFast.toNat
          | .batched => 0
      | none => 0
  else 0

/-- R103 along a list of transmit writes: each is issued no earlier than the one before it was answered plus what that one
owes. -/
def spaced (c : Cfg) : List WriteRec → Prop
  | w :: v :: ws => w.answered.toNat + owed c w ≤ v.issued.toNat ∧ spaced c (v :: ws)
  | _ => True

/-- The instant before which the block may not issue a transmit write, after the transmit writes `ws`. -/
def releasedAt (c : Cfg) (ws : List WriteRec) : Nat :=
  match ws.getLast? with
  | some w => w.answered.toNat + owed c w
  | none => 0

/-- The settle guarantee (R103) as an invariant: the transmit writes so far are spaced; what the last of them owes is held
in `DL_TIME` or has passed; a transmit write now offered was issued after it. -/
structure Settled (s : State) : Prop where
  past : spaced s.cfg (s.writes.filter WriteRec.transmits)
  armed : s.dlValid = true → releasedAt s.cfg (s.writes.filter WriteRec.transmits) ≤ s.dlTime.toNat
  idle : s.dlValid = false → releasedAt s.cfg (s.writes.filter WriteRec.transmits) ≤ s.now.toNat
  offered : ∀ o, s.offer = some o → o.bytes.length ≠ 1 →
    releasedAt s.cfg (s.writes.filter WriteRec.transmits) ≤ o.issued.toNat

/-! ### The invariant of the block -/

/-- How many units the write in hand of an `XMIT` has (R112). -/
def unitsInHand (s : State) : Nat :=
  match s.cfg.mode with
  | .direct => 1
  | .batched => s.j

/-- `LAST_SLOW` is the class of the last command of these bytes (R29, R97). -/
def flagged (s : State) (bytes : List Byte) : Prop :=
  ∃ u, lastCmd s.cfg bytes = some u ∧ slow u.1 u.2 = s.lastSlow

/-- The bytes in hand, `BUF[0..BUF_LEN-1]`, are those of the commands of the stream just before `IDX`, under `AUX`
(R24, R43, R117). -/
def packedUnits (s : State) : Prop :=
  ∃ r, s.cur = some r ∧ Memory.readBytes s.buf 0 s.bufLen =
    writeBytes s.cfg s.aux (((commands r.stream).drop (s.idx.toNat / 2 - unitsInHand s)).take (unitsInHand s))

/-- What holds while the operation `i` is held in `WAIT` or `WRITE`: how many bytes are packed and offered (R49, R32 d), in
`WAIT` which bytes (R24: no others are sent), and for `XMIT` that `IDX` is even, within `LEN`, and counts the commands
confirmed and in hand (R27, R125), and that `LAST_SLOW` fits the bytes packed or offered. An `XINIT` has confirmed
nothing yet: `DONE` is 0 (R26). While a transmit write is unanswered the scheduler is Idle: `WaitDeadline` cleared it
(R93) and the answer has not armed it yet (R98). -/
def inFlight (i : Instr) (s : State) : Prop :=
  match i with
  | .xinit =>
    s.bufLen = 3 ∧ s.done = 0 ∧
      (s.phase = .wait → ∃ d, s.element 1 0 = some d ∧ Memory.readBytes s.buf 0 3 = frame s.cfg d s.aux) ∧
      (∀ o, s.offer = some o → o.bytes.length = 3) ∧ (s.phase = .write → s.dlValid = false)
  | .xmit pairs =>
    1 ≤ unitsInHand s ∧ unitsInHand s ≤ slotCount s.cfg ∧ s.bufLen = unitsInHand s * slotSize s.cfg ∧
      s.idx.toNat = 2 * (s.done.toNat + unitsInHand s) ∧ s.idx.toNat ≤ 2 * pairs.toNat ∧
      (∀ o, s.offer = some o → o.bytes.length = s.bufLen ∧ flagged s o.bytes) ∧
      (s.phase = .wait → packedUnits s ∧ flagged s (Memory.readBytes s.buf 0 s.bufLen)) ∧
      (s.phase = .write → s.dlValid = false)
  | .setrw _ => s.phase = .write ∧ s.bufLen = 0 ∧ ∀ o, s.offer = some o → o.bytes.length = 1
  | .setaux _ => s.phase = .write ∧ s.bufLen = 0 ∧ ∀ o, s.offer = some o → o.bytes.length = 1

/-- The invariant. `aux`, `within` and `empty` are R32 (a) to (c), `busy` holds R32 (d); the rest says that the phase, the
ports and the buffer agree (R24, R27, R42, R66). -/
structure Inv (s : State) : Prop where
  /-- The configuration is well formed (R8). -/
  config : cfgOk s.cfg = true
  /-- R32 (a): only the read/write and the auxiliary line can be 1 in `AUX`. -/
  aux : s.aux &&& ~~~(rwMask s.cfg ||| auxMask s.cfg) = 0
  /-- R32 (b). -/
  within : s.bufLen ≤ s.cfg.bufCap
  /-- R32 (c), and the same once the response is offered (R122). -/
  empty : s.phase = .ready ∨ s.phase = .resp → s.bufLen = 0
  /-- The buffer is in its canonical form. -/
  buf : Memory.wf s.buf = true
  /-- A step ends in no other phase: the others are passed within a step (R27, R60). -/
  phase : s.phase = .ready ∨ s.phase = .wait ∨ s.phase = .write ∨ s.phase = .resp
  /-- No request is in progress in `READY` (R40). -/
  idle : s.phase = .ready → s.cur = none
  /-- In `WAIT` and `WRITE` an operation is in progress. In `WAIT` the bytes that will be sent are the ones packed for it, and no
  byte the spec leaves unspecified (R24). -/
  busy : s.phase = .wait ∨ s.phase = .write →
    ∃ r i, s.cur = some r ∧ decode r.hdr = .op i ∧ inFlight i s
  /-- A write is offered in `WRITE` and only there, of at least one byte, issued no later than now (R46). -/
  offered : s.phase = .write → ∃ o, s.offer = some o ∧ o.bytes ≠ [] ∧ o.issued ≤ s.now
  quiet : s.phase ≠ .write → s.offer = none
  /-- No answer is left unaccounted between steps. -/
  accounted : s.ans = none
  /-- A response is offered in `RESP` and only there. -/
  responds : s.phase = .resp ↔ s.rsp.isSome = true

end Sys2Proof.Machine
end

