-- ==== Sys2Proof/Certificates/Slice0/Obligations.lean ====
section
/-! DEFINITION. The statements about the machine, for the provers. Each docstring names the rule it formalises. -/

open Sys2Proof Sys2Proof.Machine

/-! ### Reset -/

/-- R180, R183: with `rst` at 1 in `READY` a step leaves `AUX = 0x00`, Idle, an empty buffer, `PHASE = READY` and the straps
as they are; it takes no request, offers no response and writes nothing to the channel. The same values stand in the
state after reset. (What the registers R33 leaves unspecified hold is not said.) -/
def Obligations.ResetLeavesBlockIdleAndSilent : Prop :=
  (∀ s : State, cfgOk s.cfg = true → s.rst = true → s.phase = .ready →
    ∃ t, step s = .next t ∧ t.aux = 0x00#8 ∧ t.dlValid = false ∧ t.bufLen = 0 ∧ t.phase = .ready ∧ t.cfg = s.cfg ∧
      t.requests = s.requests ∧ t.rsp = s.rsp ∧ t.responses = s.responses ∧
      t.offer = s.offer ∧ t.answers = s.answers ∧ t.writes = s.writes) ∧
  State.reset.aux = 0x00#8 ∧ State.reset.dlValid = false ∧ State.reset.bufLen = 0 ∧ State.reset.phase = .ready ∧
  State.reset.cfg.eBit = 4 ∧ State.reset.cfg.rwBit = 5 ∧ State.reset.cfg.auxBit = 7 ∧ State.reset.cfg.mode = .batched ∧
  State.reset.writes = []

/-- R182, U4: with `rst` at 1 while an operation runs the spec gives no meaning; the step is refused. -/
def Obligations.ResetDuringAnOperationIsRefused : Prop :=
  ∀ s : State, cfgOk s.cfg = true → s.rst = true → s.phase ≠ .ready → step s = .refused .resetDuringOperation

/-- R8, U1: which configurations are well formed; with any other nothing has a meaning: every step and every operation is
refused. -/
def Obligations.IllFormedConfigurationIsRefused : Prop :=
  (∀ c : Cfg, cfgOk c = true ↔
    (4 ≤ c.eBit.toNat ∧ 4 ≤ c.rwBit.toNat ∧ 4 ≤ c.auxBit.toNat ∧
      c.eBit ≠ c.rwBit ∧ c.eBit ≠ c.auxBit ∧ c.rwBit ≠ c.auxBit ∧
      6 ≤ c.bufCap ∧ (c.mode = .batched → 6 + c.fill.toNat ≤ c.bufCap))) ∧
  ∀ s : State, cfgOk s.cfg = false →
    step s = .refused .badConfig ∧ ∀ i : Instr, exec i s = .refused .badConfig

/-- R7, R80: the three masks have exactly their one bit; a slot has `6 + F` bytes in batched mode and 6 in direct mode; `NS` whole
slots fit in the buffer, at least one in a well-formed configuration. -/
def Obligations.DerivedConstantsOfAConfiguration : Prop :=
  ∀ c : Cfg,
    (eMask c).toNat = 2 ^ c.eBit.toNat ∧ (rwMask c).toNat = 2 ^ c.rwBit.toNat ∧
    (auxMask c).toNat = 2 ^ c.auxBit.toNat ∧
    slotSize c = (if c.mode = .batched then 6 + c.fill.toNat else 6) ∧
    slotCount c = c.bufCap / slotSize c ∧ (cfgOk c = true → 1 ≤ slotCount c)

/-- R6, R13: for every `TICK`, a time in microseconds that is at most `2^64 - 1` ticks is turned into the fewest ticks that last
at least so long (the rounding is the model's choice, log entry 1; of a longer time nothing is said, log entry 20), and the default settle times are 16 000, 5 000 and the suggested 50 µs; with `TICK` =
1 µs they are these numbers of ticks. The state after reset has that `TICK`. -/
def Obligations.DefaultSettleTimesForEveryTick : Prop :=
  (∀ (tick : Tick) (us : Nat), us * tick.den ≤ (2 ^ 64 - 1) * tick.num →
    us * tick.den ≤ (Config.ticksOfMicros tick us).toNat * tick.num ∧
    (Config.ticksOfMicros tick us).toNat * tick.num < us * tick.den + tick.num) ∧
  (∀ tick : Tick, (Config.defaultsAt tick).tick = tick ∧
    (Config.defaultsAt tick).tSlow = Config.ticksOfMicros tick 16000 ∧
    (Config.defaultsAt tick).tInit = Config.ticksOfMicros tick 5000 ∧
    (Config.defaultsAt tick).tFast = Config.ticksOfMicros tick 50) ∧
  State.reset.cfg = Config.defaultsAt ⟨1, 1⟩ ∧
  State.reset.cfg.tSlow = 16000 ∧ State.reset.cfg.tInit = 5000 ∧ State.reset.cfg.tFast = 50

/-- The state after reset meets the invariant. -/
def Obligations.ResetStateMeetsTheInvariant : Prop := Inv State.reset

/-- The state after reset meets the settle guarantee. -/
def Obligations.ResetStateIsSettled : Prop := Settled State.reset

/-! ### Decoding -/

/-- R73 on headers written out from the tables of R61 to R64 and from section 2.3 of the test vectors. -/
def Obligations.HeadersDecodeAsTabulated : Prop :=
  decode 0b0000000000000001#16 = .op .xinit ∧
  decode 0b0000000000000010#16 = .op (.xmit 1) ∧
  decode 0b0011111111111110#16 = .op (.xmit 8191) ∧
  decode 0b0100000000000001#16 = .op (.setrw true) ∧
  decode 0b1000000000000000#16 = .op (.setaux false) ∧
  decode 0x0000#16 = .rejected .badLength ∧
  decode 0x0003#16 = .rejected .badLength ∧
  decode 0x4002#16 = .rejected .illegal ∧
  decode 0xC000#16 = .rejected .illegal

/-- Decode and encode agree: every well-formed operation, with every operand at every value, is read back from its header. -/
def Obligations.DecodeOfEncodeIsTheOperation : Prop :=
  ∀ i : Instr, i.wf = true → decode (encode i) = .op i

/-- The other direction: a header that decodes to an operation is that operation's one header, and the operation is well
formed. -/
def Obligations.EncodeOfDecodeIsTheHeader : Prop :=
  ∀ (h : Header) (i : Instr), decode h = .op i → encode i = h ∧ i.wf = true

/-- R73: every header falls in the case the opcode map's masks and matches over its 16 bits say, with the operand its low bits hold;
the other headers are rejected, as a bad length or as illegal. -/
def Obligations.OpcodeMapByMaskAndMatch : Prop :=
  ∀ h : Header,
    (decode h = .op .xinit ↔ h &&& 0xFFFF#16 = 0x0001#16) ∧
    (∀ pairs, decode h = .op (.xmit pairs) ↔
      h &&& 0xC001#16 = 0x0000#16 ∧ h &&& 0x3FFF#16 ≠ 0#16 ∧ h.toNat = 2 * pairs.toNat) ∧
    (∀ v, decode h = .op (.setrw v) ↔ h &&& 0xFFFE#16 = 0x4000#16 ∧ v = h.getLsbD 0) ∧
    (∀ v, decode h = .op (.setaux v) ↔ h &&& 0xFFFE#16 = 0x8000#16 ∧ v = h.getLsbD 0) ∧
    (decode h = .rejected .badLength ↔
      h &&& 0xC000#16 = 0#16 ∧ (h &&& 0x3FFF#16 = 0#16 ∨ (h &&& 0x3FFF#16 ≠ 1#16 ∧ h &&& 1#16 = 1#16))) ∧
    (decode h = .rejected .illegal ↔
      h &&& 0xC000#16 = 0xC000#16 ∨
        ((h &&& 0xC000#16 = 0x4000#16 ∨ h &&& 0xC000#16 = 0x8000#16) ∧ h &&& 0x3FFE#16 ≠ 0#16))

/-! ### Taking requests and responses -/

/-- A step runs the decoded operation: in `READY`, with a request presented whose header decodes to `i`, the step is `exec i`
on the state with that request taken: `PHASE = CHECK`, the time of its taking in `now`, the later requests left. -/
def Obligations.StepRunsTheDecodedOperation : Prop :=
  ∀ (s : State) (r : Request) (rest : List Request) (t : Time) (i : Instr), cfgOk s.cfg = true → s.rst = false →
    s.phase = .ready → s.requests = r :: rest → advance s.now r.after = some t → decode r.hdr = .op i →
    step s = exec i { s with phase := .check, now := t, requests := rest, cur := some r }

/-- R152: a header with `OP = 0b11`, or of `SETRW` or `SETAUX` with `ARG[13:1]` not 0, is answered `(0, ERR_ILLEGAL)`: no
stream element is read, nothing is waited for or written, nothing of `AUX`, `DL_VALID`, `DL_TIME`, `BUF_LEN` changes. -/
def Obligations.IllegalHeaderIsAnswered : Prop :=
  ∀ (s : State) (r : Request) (rest : List Request) (t : Time), cfgOk s.cfg = true → s.rst = false →
    s.phase = .ready → s.requests = r :: rest → advance s.now r.after = some t →
    (r.hdr.extractLsb' 14 2 = 0b11#2 ∨ (r.hdr.extractLsb' 14 2 ≠ 0b00#2 ∧ r.hdr.extractLsb' 1 13 ≠ 0)) →
    step s = .next { s with phase := .resp, now := t, requests := rest, cur := some r, rsp := some 0xC000#16 }

/-- R111, R153: a transmit header with `LEN = 0`, or `LEN` odd and at least 3, is answered `(0, ERR_LENGTH)`: no element is read,
no wait, no write, no state change: an armed deadline stays. The second clause is the model's choice and no rule's: an `XMIT`
of no commands, a term that no header encodes, is answered so too when given to `exec` (log entry 14, DESIGN CHOICE). -/
def Obligations.BadLengthIsAnswered : Prop :=
  (∀ (s : State) (r : Request) (rest : List Request) (t : Time), cfgOk s.cfg = true → s.rst = false →
    s.phase = .ready → s.requests = r :: rest → advance s.now r.after = some t →
    r.hdr.toNat < 2 ^ 14 → (r.hdr.toNat = 0 ∨ (3 ≤ r.hdr.toNat ∧ r.hdr.toNat % 2 = 1)) →
    step s = .next { s with phase := .resp, now := t, requests := rest, cur := some r, rsp := some 0x4000#16 }) ∧
  ∀ s : State, cfgOk s.cfg = true →
    exec (.xmit 0) s = .next { s with phase := .resp, rsp := some 0x4000#16 }

/-- R66: a request is taken only in `READY`. In every other phase a step leaves the host's requests waiting and takes none. In
`READY` a step with `rst` at 0 takes the first one and only that, and the block is then no longer ready. -/
def Obligations.RequestsAreTakenOnlyInReady : Prop :=
  (∀ s t : State, step s = .next t → s.phase ≠ .ready → t.requests = s.requests ∧ (t.cur = s.cur ∨ t.phase = .ready)) ∧
  (∀ (s t : State) (r : Request) (rest : List Request), step s = .next t → s.phase = .ready → s.rst = false →
    s.requests = r :: rest → t.requests = rest ∧ t.cur = some r ∧ t.phase ≠ .ready) ∧
  (∀ s : State, cfgOk s.cfg = true → s.rst = false → s.phase = .ready → s.requests = [] → step s = .next s)

/-- R66, R155, R159: in `RESP` the host's taking the response ends the request: that one word is handed over, the block is
`READY` with no request and no response, and every other field of the state is as it was, but for the scratch registers
`IDX`, `J`, `DONE` and `LAST_SLOW`, which have no meaning from then on (R26): they take free values, and nothing is said of
them (log entry 5, the model's choice). Until the host takes it nothing happens. -/
def Obligations.ResponseEndsTheRequest : Prop :=
  ∀ (s : State) (w : RespWord), cfgOk s.cfg = true → s.rst = false → s.phase = .resp → s.rsp = some w →
    (s.rspReady = true → ∃ (idx : Count) (j : Nat) (done : Count) (ls : Bool) (n : Nat), step s = .next { s with
      phase := .ready, cur := none, rsp := none, responses := s.responses ++ [w]
      idx := idx, j := j, done := done, lastSlow := ls, draws := n }) ∧
    (s.rspReady = false → step s = .next s)

/-- R65, R151: the response word has `ERR` in bits 15:14 (0 `OK`, 1 `ERR_LENGTH`, 2 `ERR_CHANNEL`, 3 `ERR_ILLEGAL`) and `DONE` in
bits 13:0. -/
def Obligations.ResponseWordFields : Prop :=
  ∀ (done : Count) (e : Err),
    (respWord done e).extractLsb' 0 14 = done ∧
    (respWord done e).extractLsb' 14 2 =
      (match e with
        | .ok => 0#2
        | .length => 1#2
        | .channel => 2#2
        | .illegal => 3#2)

/-! ### The frame encoder -/

/-- R81: the three bytes of a frame. R86: a record is the frame of the high element, then that of the low one. R87: a slot is a
record and `F` bytes of zero. -/
def Obligations.FrameRecordAndSlotBytes : Prop :=
  ∀ (c : Cfg) (d dh dl a : Byte),
    frame c d a = [d ||| a, d ||| a ||| (1#8 <<< c.eBit.toNat), d ||| a] ∧
    record c dh dl a = frame c dh a ++ frame c dl a ∧
    slot c dh dl a = record c dh dl a ++ List.replicate c.fill.toNat 0x00#8

/-- R83: for a well-formed element and a legal `AUX`, bytes 0 and 2 are equal, byte 1 differs from byte 0 in the enable bit only,
the enable bit is 0 in byte 0 and 1 in byte 1, and masking the three role bits off any byte gives the element back. -/
def Obligations.FrameDecodesToItsElement : Prop :=
  ∀ (c : Cfg) (d a : Byte), cfgOk c = true → elemOk c d → a &&& ~~~(rwMask c ||| auxMask c) = 0 →
    ∃ b₀ b₁ b₂, frame c d a = [b₀, b₁, b₂] ∧ b₀ = b₂ ∧ b₁ = b₀ ^^^ eMask c ∧ b₀ &&& eMask c = 0 ∧
      b₁ &&& eMask c = eMask c ∧ ∀ b ∈ [b₀, b₁, b₂], b &&& ~~~roleMask c = d

/-- R83 (d): in a slot of well-formed elements the enable bit is 1 in the middle byte of each frame, at offsets 1 and 4, and in
no other byte, fillers included; and it is 0 in every value `AUX` may have, which is what `SETRW` and `SETAUX` write. -/
def Obligations.EnableIsHighOnlyMidFrame : Prop :=
  ∀ (c : Cfg) (dh dl a : Byte), cfgOk c = true → elemOk c dh → elemOk c dl →
    a &&& ~~~(rwMask c ||| auxMask c) = 0 →
    a &&& eMask c = 0 ∧
    ∀ (i : Nat) (b : Byte), (slot c dh dl a)[i]? = some b → (b &&& eMask c ≠ 0 ↔ i = 1 ∨ i = 4)

/-! ### The timing scheduler -/

/-- R96, R97: a command is slow exactly when its high nibble is 0 and its low nibble is below 4; bits 7:4 of the elements take
no part. -/
def Obligations.SlowMeansValueBelowFour : Prop :=
  ∀ dh dl : Byte,
    (cmdval dh dl).toNat = 16 * (dh.toNat % 16) + dl.toNat % 16 ∧
    (slow dh dl = true ↔ (cmdval dh dl).toNat < 4) ∧
    (slow dh dl = true ↔ dh.toNat % 16 = 0 ∧ dl.toNat % 16 < 4)

/-- R93, R104: when `WaitDeadline` returns, the scheduler is Idle and `now` is at or past the deadline it was Armed with; a hold
happens only when Armed and short of the deadline; Idle, it returns at `now` where no time passes. -/
def Obligations.WaitDeadlineHoldsUntilTheDeadline : Prop :=
  (∀ s t : State, waitDeadline s = .go t →
    t.dlValid = false ∧ s.now ≤ t.now ∧ (s.dlValid = true → s.dlTime ≤ t.now) ∧
    t.aux = s.aux ∧ t.buf = s.buf ∧ t.bufLen = s.bufLen ∧ t.requests = s.requests ∧ t.writes = s.writes ∧
    t.offer = s.offer) ∧
  (∀ s t : State, waitDeadline s = .stop t →
    s.dlValid = true ∧ t.now < s.dlTime ∧ t.phase = .wait ∧ t.dlValid = true ∧ t.dlTime = s.dlTime ∧
    t.requests = s.requests ∧ t.writes = s.writes ∧ t.offer = s.offer) ∧
  (∀ s : State, s.ticks = [] → (s.dlValid = true → s.dlTime ≤ s.now) →
    ∃ t, waitDeadline s = .go t ∧ t.now = s.now ∧ t.dlValid = false)

/-- R95: `Arm(T)` leaves the scheduler Armed with the deadline `now + T`, whatever it was before, and touches nothing else. Past
`2^64 - 1` the spec gives it no meaning and asks a model to refuse (U5); that it is the refusal `timeOverflow`, here in
`Arm`, is the model's (log entry 12, DEDUCED). -/
def Obligations.ArmSetsTheDeadline : Prop :=
  ∀ (settle : Time) (s : State),
    (s.now.toNat + settle.toNat < 2 ^ 64 →
      arm settle s = .go { s with dlValid := true, dlTime := s.now + settle } ∧
      (s.now + settle).toNat = s.now.toNat + settle.toNat) ∧
    (2 ^ 64 ≤ s.now.toNat + settle.toNat → arm settle s = .refuse .timeOverflow)

/-! ### The operations -/

/-- R140, R143, R144: `SETRW v` sets or clears the read/write bit of `AUX`, keeps the other bits, writes the one byte `[AUX]` at
once, and on the channel's answer responds `(0, OK)` or, on a failure or a short count, `(0, ERR_CHANNEL)`, `AUX` keeping
its new value. Nothing else of the block changes: no wait, no buffer, no deadline (R142). -/
def Obligations.SetrwWritesTheReadWriteLine : Prop :=
  (∀ v : Bool, decode (0x4000#16 ||| (if v then 1#16 else 0#16)) = .op (.setrw v)) ∧
  ∀ (v : Bool) (s : State) (a : Answer) (rest : List Answer) (t : Time), cfgOk s.cfg = true →
    s.answers = a :: rest → a.n ≤ 1 → advance s.now a.after = some t →
    exec (.setrw v) s = .next { s with
      aux := if v then s.aux ||| rwMask s.cfg else s.aux &&& ~~~rwMask s.cfg
      phase := .resp, now := t, answers := rest, offer := none, ans := none
      rsp := some (if a.fail = false ∧ a.n = 1 then 0x0000#16 else 0x8000#16)
      writes := s.writes ++
        [⟨[if v then s.aux ||| rwMask s.cfg else s.aux &&& ~~~rwMask s.cfg], s.now, t, a.n, a.fail⟩] }

/-- R141, R143, R144: `SETAUX v`, the same for the auxiliary bit. -/
def Obligations.SetauxWritesTheAuxiliaryLine : Prop :=
  (∀ v : Bool, decode (0x8000#16 ||| (if v then 1#16 else 0#16)) = .op (.setaux v)) ∧
  ∀ (v : Bool) (s : State) (a : Answer) (rest : List Answer) (t : Time), cfgOk s.cfg = true →
    s.answers = a :: rest → a.n ≤ 1 → advance s.now a.after = some t →
    exec (.setaux v) s = .next { s with
      aux := if v then s.aux ||| auxMask s.cfg else s.aux &&& ~~~auxMask s.cfg
      phase := .resp, now := t, answers := rest, offer := none, ans := none
      rsp := some (if a.fail = false ∧ a.n = 1 then 0x0000#16 else 0x8000#16)
      writes := s.writes ++
        [⟨[if v then s.aux ||| auxMask s.cfg else s.aux &&& ~~~auxMask s.cfg], s.now, t, a.n, a.fail⟩] }

/-- R113, R99: `XINIT` with its element, once its hold is over at the instant `t` and the channel has answered at the instant `u`:
one write of the three bytes of the frame, issued at `t`; `DONE` is `n div 3`; the response is `(1, OK)` on a good write
and `(DONE, ERR_CHANNEL)` otherwise; a confirmed frame arms `T_INIT` from `u`, whatever the element and the mode, and
without one the scheduler is Idle; the buffer is empty again. -/
def Obligations.XinitSendsOneFrameAndArms : Prop :=
  decode 0x0001#16 = .op .xinit ∧
  ∀ (s : State) (r : Request) (d : Byte) (a : Answer) (rest : List Answer) (t u : Time) (ts : List Nat),
    cfgOk s.cfg = true → s.cur = some r → r.stream[0]? = some d →
    hold (if s.dlValid then s.dlTime else 0) s.now s.ticks = .over t ts →
    s.answers = a :: rest → a.n ≤ 3 → advance t a.after = some u →
    (a.n = 3 → u.toNat + s.cfg.tInit.toNat < 2 ^ 64) →
    ∃ w, exec .xinit s = .next w ∧ w.phase = .resp ∧
      w.rsp = some (if a.n = 3 then (if a.fail then 0x8001#16 else 0x0001#16) else 0x8000#16) ∧
      w.done = (if a.n = 3 then 1 else 0) ∧
      w.writes = s.writes ++ [⟨[d ||| s.aux, d ||| s.aux ||| eMask s.cfg, d ||| s.aux], t, u, a.n, a.fail⟩] ∧
      w.dlValid = decide (a.n = 3) ∧ (a.n = 3 → w.dlTime.toNat = u.toNat + s.cfg.tInit.toNat) ∧
      w.now = u ∧ w.answers = rest ∧ w.ticks = ts ∧ w.bufLen = 0 ∧ w.aux = s.aux ∧ w.offer = none ∧
      w.cur = s.cur ∧ w.requests = s.requests ∧ w.responses = s.responses

/-- R93: an `XINIT` whose deadline has not come is held in `WAIT`: its frame is packed, `DONE` is 0 (R26), the deadline stands,
nothing is offered to the channel, no answer is used, and no request is taken. -/
def Obligations.XinitIsHeldByTheDeadline : Prop :=
  ∀ (s : State) (r : Request) (d : Byte) (t : Time), cfgOk s.cfg = true → s.cur = some r → r.stream[0]? = some d →
    s.dlValid = true → hold s.dlTime s.now s.ticks = .held t →
    ∃ w, exec .xinit s = .next w ∧ w.phase = .wait ∧ w.now = t ∧ w.now < s.dlTime ∧
      w.dlValid = true ∧ w.dlTime = s.dlTime ∧ w.bufLen = 3 ∧ w.done = 0 ∧
      Memory.readBytes w.buf 0 3 = [d ||| s.aux, d ||| s.aux ||| eMask s.cfg, d ||| s.aux] ∧
      w.writes = s.writes ∧ w.offer = s.offer ∧ w.answers = s.answers ∧ w.requests = s.requests

/-- R114, R115, R126: `XMIT` of `pairs` commands completes. Where the planned writes can be carried out one after the other,
each hold ending at or after the deadline that is armed then, if any (R93), and each answer being good, there is one write a
command in direct mode and one a batch in batched mode, in stream order, with the bytes of R86 and R87, at those instants;
the response is `(pairs, OK)`; the buffer is empty and `AUX` unchanged; the scheduler is Armed with the settle time of the
last command, or Idle after a fast command in batched mode (R98). -/
def Obligations.XmitCompletesOnAGoodChannel : Prop :=
  ∀ (pairs : BitVec 13) (s : State) (r : Request) (e : Run) (last : Cmd),
    cfgOk s.cfg = true → pairs ≠ 0 → s.cur = some r → r.stream.length = 2 * pairs.toNat →
    (commands r.stream).getLast? = some last →
    goodRun s.cfg s.aux (plannedWrites s.cfg (commands r.stream)) (if s.dlValid then some s.dlTime else none)
      s.now s.ticks s.answers = some e →
    ∃ (w : State) (ds : List Nat) (as : List Answer), exec (.xmit pairs) s = .next w ∧ w.phase = .resp ∧
      w.rsp = some (respWord (BitVec.ofNat 14 pairs.toNat) .ok) ∧ w.done = BitVec.ofNat 14 pairs.toNat ∧
      w.writes = s.writes ++ e.writes ∧
      e.writes.map WriteRec.bytes = (plannedWrites s.cfg (commands r.stream)).map (writeBytes s.cfg s.aux) ∧
      (∀ v ∈ e.writes, v.good = true) ∧
      w.bufLen = 0 ∧ w.aux = s.aux ∧ w.answers = e.answers ∧ w.ticks = e.ticks ∧ w.now = e.now ∧ w.offer = none ∧
      s.ticks = ds ++ w.ticks ∧ s.answers = as ++ w.answers ∧
      as.length = (plannedWrites s.cfg (commands r.stream)).length ∧
      w.now.toNat = s.now.toNat + ds.sum + (as.map Answer.after).sum ∧
      w.dlValid = (slow last.1 last.2 || decide (s.cfg.mode = .direct)) ∧
      (slow last.1 last.2 = true → w.dlTime.toNat = w.now.toNat + s.cfg.tSlow.toNat) ∧
      (slow last.1 last.2 = false → s.cfg.mode = .direct → w.dlTime.toNat = w.now.toNat + s.cfg.tFast.toNat)

/-- R110 to R121: whatever the channel and the time base do, the writes of an `XMIT` are the planned ones, in order, up to the point
where it stops: held in `WAIT` or `WRITE` every answered write was good; at its response either all are there, all good,
and it is `(pairs, OK)`, or the last is the first that was not good and it is `(DONE, ERR_CHANNEL)`, `DONE` being the sum of
`n div U`. -/
def Obligations.XmitWritesFollowThePlan : Prop :=
  ∀ (pairs : BitVec 13) (s t : State) (r : Request), pairs ≠ 0 → s.cur = some r → r.stream.length = 2 * pairs.toNat →
    exec (.xmit pairs) s = .next t →
    ∃ new : List WriteRec, t.writes = s.writes ++ new ∧
      new.map WriteRec.bytes <+: (plannedWrites s.cfg (commands r.stream)).map (writeBytes s.cfg s.aux) ∧
      ((t.phase = .wait ∧ ∀ v ∈ new, v.good = true) ∨
        (t.phase = .write ∧ (∀ v ∈ new, v.good = true) ∧ ∃ o, t.offer = some o ∧
          new.map WriteRec.bytes ++ [o.bytes] <+:
            (plannedWrites s.cfg (commands r.stream)).map (writeBytes s.cfg s.aux)) ∨
        (t.phase = .resp ∧ (∀ v ∈ new, v.good = true) ∧
          new.map WriteRec.bytes = (plannedWrites s.cfg (commands r.stream)).map (writeBytes s.cfg s.aux) ∧
          t.rsp = some (respWord (BitVec.ofNat 14 pairs.toNat) .ok)) ∨
        (t.phase = .resp ∧ ∃ (ok : List WriteRec) (bad : WriteRec), new = ok ++ [bad] ∧ (∀ v ∈ ok, v.good = true) ∧
          bad.good = false ∧
          t.rsp = some (respWord (BitVec.ofNat 14 ((new.map fun v => v.n / slotSize s.cfg).sum)) .channel)))

/-- R116: in batched mode every channel write of an `XMIT` holds between 1 and `NS` whole slots of commands of its stream, and a slow
command only as its last. -/
def Obligations.SlowCommandClosesItsBatch : Prop :=
  ∀ (pairs : BitVec 13) (s t : State) (r : Request) (new : List WriteRec), s.cfg.mode = .batched →
    s.cur = some r → exec (.xmit pairs) s = .next t → t.writes = s.writes ++ new →
    ∀ v ∈ new, ∃ us : List Cmd, v.bytes = us.flatMap (fun u => slot s.cfg u.1 u.2 s.aux) ∧
      1 ≤ us.length ∧ us.length ≤ slotCount s.cfg ∧ us <:+: commands r.stream ∧
      ∀ u ∈ us.dropLast, slow u.1 u.2 = false

/-- R112, R120, R158: when an `XMIT` responds `(DONE, ERR)`, the units the channel confirmed in its writes are the first `DONE`
commands of the stream, each once, in order. -/
def Obligations.ConfirmedUnitsAreTheFirstDone : Prop :=
  ∀ (pairs : BitVec 13) (s t : State) (r : Request) (new : List WriteRec), pairs ≠ 0 → s.cur = some r →
    r.stream.length = 2 * pairs.toNat → exec (.xmit pairs) s = .next t → t.phase = .resp →
    t.writes = s.writes ++ new →
    ∃ (d : Count) (e : Err), t.rsp = some (respWord d e) ∧ d.toNat ≤ pairs.toNat ∧
      new.flatMap (confirmed s.cfg) = ((commands r.stream).take d.toNat).flatMap (unitBytes s.cfg s.aux)

/-- R158: when an `XMIT` responds `(DONE, ERR_CHANNEL)`, what the channel accepted is commands 0 to `DONE - 1` in full, then a proper
prefix, possibly empty, of the unit of command `DONE`. All that was offered is the first `m` commands, `m` ending with the
failed write, and `IDX` stands behind them: of a command after the failed write no byte was offered and no element read. In
direct mode, and wherever command `DONE` is the last of the failed write, that is no byte of a command after `DONE`. A batch
is offered in one write (R115, R118), so there the commands after `DONE` in the batch, at most `NS` with command `DONE`, were
offered and not accepted: that R158's last words mean the commands after the failed write is the model's reading (log entry
19, DEDUCED). The last clause: the accepted bytes, and the one after them, reach no command after `DONE`. -/
def Obligations.ErrorsArePreciseAtCommandGranularity : Prop :=
  ∀ (pairs : BitVec 13) (s t : State) (r : Request) (new : List WriteRec) (d : Count), pairs ≠ 0 → s.cur = some r →
    r.stream.length = 2 * pairs.toNat → exec (.xmit pairs) s = .next t → t.phase = .resp →
    t.writes = s.writes ++ new → t.rsp = some (respWord d .channel) →
    (∃ part : List Byte,
      wire new = ((commands r.stream).take d.toNat).flatMap (unitBytes s.cfg s.aux) ++ part ∧
      part.length < slotSize s.cfg ∧ part <+: ((commands r.stream).drop d.toNat).flatMap (unitBytes s.cfg s.aux)) ∧
    (∃ (w : WriteRec) (m : Nat), new.getLast? = some w ∧ w.good = false ∧ d.toNat ≤ m ∧
      m ≤ d.toNat + (match s.cfg.mode with
        | .direct => 1
        | .batched => slotCount s.cfg) ∧
      (w.bytes.length ≤ (w.n / slotSize s.cfg + 1) * slotSize s.cfg → m ≤ d.toNat + 1) ∧
      t.idx.toNat = 2 * m ∧
      new.flatMap WriteRec.bytes = ((commands r.stream).take m).flatMap (unitBytes s.cfg s.aux)) ∧
    new.flatMap WriteRec.presented <+: ((commands r.stream).take (d.toNat + 1)).flatMap (unitBytes s.cfg s.aux)

/-- R127: after `(DONE, ERR_CHANNEL)` with `DONE < LEN div 2`, an `XMIT` of the elements from `2 * DONE` on, on the same
configuration, that ends with `OK` makes the confirmed commands of the two requests together each command of the original
stream once, in order: the first request confirmed the units of `us` under its `AUX`, the second those of `us'` under its
own (a `SETRW` or `SETAUX` may have come between), and `us` followed by `us'` is the stream. -/
def Obligations.RetryOfTheSuffixRebuildsTheStream : Prop :=
  ∀ (pairs pairs' : BitVec 13) (s t s' t' : State) (r r' : Request) (d d' : Count) (new new' : List WriteRec),
    pairs ≠ 0 → s.cur = some r → r.stream.length = 2 * pairs.toNat → exec (.xmit pairs) s = .next t →
    t.phase = .resp → t.writes = s.writes ++ new → t.rsp = some (respWord d .channel) → d.toNat < pairs.toNat →
    pairs'.toNat = pairs.toNat - d.toNat → s'.cfg = s.cfg → s'.cur = some r' →
    r'.stream = r.stream.drop (2 * d.toNat) → exec (.xmit pairs') s' = .next t' →
    t'.phase = .resp → t'.writes = s'.writes ++ new' → t'.rsp = some (respWord d' .ok) →
    ∃ us us' : List Cmd, us ++ us' = commands r.stream ∧ us.length = d.toNat ∧
      new.flatMap (confirmed s.cfg) = us.flatMap (unitBytes s.cfg s.aux) ∧
      new'.flatMap (confirmed s.cfg) = us'.flatMap (unitBytes s.cfg s'.aux)

/-- R98, R101, R119, R121: accounting the answer to a write of `XMIT`. With `c = n div U` units confirmed (R112), a deadline is armed
from now on exactly when all units are confirmed and the last command is slow (`T_SLOW`, R98) or the mode is direct (`T_FAST`);
else the scheduler stays as it was. `DONE` grows by `c`, the buffer is empty; a good write goes on, any other ends the
operation with `(DONE, ERR_CHANNEL)`. -/
def Obligations.ConfirmedUnitsArmByTheTable : Prop :=
  ∀ (s : State) (a : Answer), s.ans = some a →
    s.now.toNat + max s.cfg.tSlow.toNat s.cfg.tFast.toNat < 2 ^ 64 →
    ∃ t : State,
      xmitAcct s = (if a.fail = false ∧ a.n = unitsInHand s * slotSize s.cfg then .go t
        else .stop { t with
          phase := .resp, rsp := some (respWord (s.done + BitVec.ofNat 14 (a.n / slotSize s.cfg)) .channel) }) ∧
      (a.n / slotSize s.cfg = unitsInHand s ∧ (s.lastSlow = true ∨ s.cfg.mode = .direct) →
        t.dlValid = true ∧
        t.dlTime.toNat = s.now.toNat + (if s.lastSlow then s.cfg.tSlow.toNat else s.cfg.tFast.toNat)) ∧
      (¬(a.n / slotSize s.cfg = unitsInHand s ∧ (s.lastSlow = true ∨ s.cfg.mode = .direct)) →
        t.dlValid = s.dlValid ∧ t.dlTime = s.dlTime) ∧
      t.done = s.done + BitVec.ofNat 14 (a.n / slotSize s.cfg) ∧ t.bufLen = 0 ∧ t.aux = s.aux ∧ t.cfg = s.cfg ∧
      t.writes = s.writes ∧ t.answers = s.answers ∧ t.offer = s.offer ∧ t.idx = s.idx

/-- R122: when `XINIT`, or an `XMIT` with commands, offers its response, on success or on an error, the buffer is empty, the bytes
it sent last are unspecified (free values of one draw, log entry 4), `AUX` is unchanged, and no write is left unanswered. -/
def Obligations.TransmitEndsWithAnEmptyBuffer : Prop :=
  ∀ (i : Instr) (s t : State), (i = .xinit ∨ ∃ pairs, i = .xmit pairs ∧ pairs ≠ 0) → exec i s = .next t →
    t.phase = .resp → t.bufLen = 0 ∧ t.aux = s.aux ∧ t.offer = none ∧ t.ans = none ∧
      ∃ (w : WriteRec) (k : Nat), t.writes.getLast? = some w ∧
        ∀ a, a < w.bytes.length → Memory.read t.buf a = Config.freeByte k a

/-- R40: the stream of a request is its first `LEN` elements. Whatever the host's list holds after them is not read: an operation,
from its start or held in `WAIT` or `WRITE`, does the same with more elements behind. -/
def Obligations.ElementsBeyondLenAreNotRead : Prop :=
  ∀ (i : Instr) (s : State) (r : Request) (extra : List Byte), s.cur = some r →
    payloadLen (encode i) ≤ r.stream.length →
    (exec i { s with cur := some { r with stream := r.stream ++ extra } } =
      match exec i s with
      | .next t => .next { t with cur := some { r with stream := r.stream ++ extra } }
      | .fault f => .fault f
      | .refused x => .refused x) ∧
    (decode r.hdr = .op i → s.phase = .wait ∨ s.phase = .write →
      step { s with cur := some { r with stream := r.stream ++ extra } } =
        match step s with
        | .next t => .next { t with cur := some { r with stream := r.stream ++ extra } }
        | .fault f => .fault f
        | .refused x => .refused x)

/-- R47, U3: an answer that accepts more bytes than were offered has no meaning: the operation is refused, never taken as if
the count were smaller. -/
def Obligations.AnswerAboveTheOfferIsRefused : Prop :=
  ∀ (s : State) (w : Offer) (a : Answer) (rest : List Answer), s.offer = some w → s.answers = a :: rest →
    w.bytes.length < a.n →
    awaitAnswer s = .refuse .channelOverrun ∧
    (∀ (r : Request) (i : Instr), cfgOk s.cfg = true → s.rst = false → s.phase = .write → s.cur = some r →
      decode r.hdr = .op i → step s = .refused .channelOverrun)

/-! ### Frames -/

/-- What `SETRW` and `SETAUX` leave unchanged when they answer a next state, held or finished (R102, R142): every register but
`AUX`, and in `AUX` every bit but their own; the scheduler; every byte of the buffer (they store nothing); the host's
requests and the responses taken. -/
def Obligations.AuxiliaryOperationsFrame : Prop :=
  ∀ (i : Instr) (mask : Cfg → Byte) (v : Bool) (s t : State),
    (i = .setrw v ∧ mask = rwMask) ∨ (i = .setaux v ∧ mask = auxMask) → exec i s = .next t →
    t.cfg = s.cfg ∧ t.aux &&& ~~~mask s.cfg = s.aux &&& ~~~mask s.cfg ∧ t.dlValid = s.dlValid ∧
    t.dlTime = s.dlTime ∧ t.bufLen = s.bufLen ∧ t.idx = s.idx ∧ t.j = s.j ∧ t.done = s.done ∧
    t.lastSlow = s.lastSlow ∧ t.ticks = s.ticks ∧ t.rst = s.rst ∧ t.requests = s.requests ∧ t.cur = s.cur ∧
    t.rspReady = s.rspReady ∧ t.responses = s.responses ∧ t.draws = s.draws ∧
    ∀ a, Memory.read t.buf a = Memory.read s.buf a

/-- What `XINIT` leaves unchanged when it answers a next state, held or finished (R113): `AUX`, `IDX`, `J`, `LAST_SLOW`, the ports of
the host, and every byte of the buffer outside `BUF[0..2]`, where its frame is stored. -/
def Obligations.XinitFrame : Prop :=
  ∀ s t : State, exec .xinit s = .next t →
    t.cfg = s.cfg ∧ t.aux = s.aux ∧ t.idx = s.idx ∧ t.j = s.j ∧ t.lastSlow = s.lastSlow ∧ t.rst = s.rst ∧
    t.requests = s.requests ∧ t.cur = s.cur ∧ t.rspReady = s.rspReady ∧ t.responses = s.responses ∧
    ∀ a, 0 + 3 ≤ a → Memory.read t.buf a = Memory.read s.buf a

/-- What `XMIT` leaves unchanged when it answers a next state, held or finished (R114, R115): `AUX` (R123), `J` in direct mode, the
ports of the host, and every byte of the buffer outside the slots it stores: one record at 0 in direct mode, slots 0 to
`NS - 1` in batched mode. -/
def Obligations.XmitFrame : Prop :=
  ∀ (pairs : BitVec 13) (s t : State), exec (.xmit pairs) s = .next t →
    t.cfg = s.cfg ∧ t.aux = s.aux ∧ (s.cfg.mode = .direct → t.j = s.j) ∧ t.rst = s.rst ∧
    t.requests = s.requests ∧ t.cur = s.cur ∧ t.rspReady = s.rspReady ∧ t.responses = s.responses ∧
    ∀ a, (match s.cfg.mode with
          | .direct => 0 + 6
          | .batched => slotCount s.cfg * slotSize s.cfg) ≤ a → Memory.read t.buf a = Memory.read s.buf a

/-! ### Holding and going on -/

/-- R54, U12: while a write is unanswered and no answer comes, nothing changes: the block hangs. -/
def Obligations.UnansweredWriteHangs : Prop :=
  ∀ (s : State) (r : Request) (i : Instr), cfgOk s.cfg = true → s.rst = false → s.phase = .write → s.cur = some r →
    decode r.hdr = .op i → s.answers = [] → step s = .next s

/-- R93, R172: while a transmit is held in `WAIT` and time does not reach the deadline, nothing changes; once it has, the next
step issues the write that is packed. -/
def Obligations.HeldTransmitGoesOnWhenTheDeadlineHasCome : Prop :=
  ∀ (s : State) (r : Request) (i : Instr), cfgOk s.cfg = true → s.rst = false → s.phase = .wait →
    s.cur = some r → decode r.hdr = .op i → (i = .xinit ∨ ∃ pairs, i = .xmit pairs) → s.ticks = [] →
    s.dlValid = true →
    (s.now < s.dlTime → step s = .next s) ∧
    (s.dlTime ≤ s.now → s.answers = [] → ∃ t, step s = .next t ∧ t.phase = .write ∧ t.dlValid = false ∧
      t.offer = some ⟨Memory.readBytes s.buf 0 s.bufLen, s.now⟩ ∧ t.writes = s.writes)

/-- An operation held in `WRITE` for want of an answer and then given answers ends as if they had been there from the start: holding
loses nothing. -/
def Obligations.LateAnswersResumeTheOperation : Prop :=
  ∀ (i : Instr) (s t : State) (r : Request) (later : List Answer), s.rst = false → s.cur = some r →
    decode r.hdr = .op i → exec i s = .next t → t.phase = .write →
    step { t with answers := later } = exec i { s with answers := s.answers ++ later }

/-- R93, R172: a transmit held in `WAIT` and then given draws of time and answers ends as if they had been there from the start.
A look that finds no draw sees no time pass, so it counts as a draw of 0 (`k` of them). The same where the time base
grew by `d` in the meantime: it is as if `d` had been the next draw. -/
def Obligations.LateTimeResumesTheOperation : Prop :=
  ∀ (i : Instr) (s t : State) (r : Request) (more : List Answer), s.rst = false → s.cur = some r →
    decode r.hdr = .op i → exec i s = .next t → t.phase = .wait →
    ∃ k : Nat,
      (∀ later : List Nat, step { t with ticks := later, answers := t.answers ++ more } =
        exec i { s with ticks := s.ticks ++ List.replicate k 0 ++ later, answers := s.answers ++ more }) ∧
      (∀ (d : Nat) (u : Time), advance t.now d = some u → step { t with now := u, answers := t.answers ++ more } =
        exec i { s with ticks := s.ticks ++ List.replicate k 0 ++ [d], answers := s.answers ++ more })

/-! ### Every step -/

/-- R32: every step keeps the invariant. -/
def Obligations.StepKeepsTheInvariant : Prop :=
  ∀ s t : State, Inv s → step s = .next t → Inv t

/-- R125: from a state that meets the invariant no step accesses the buffer where it has no index. (That a flush sends only
packed bytes, R24, is in the invariant: in `WAIT` the bytes in hand are those of the stream.) -/
def Obligations.NoStepFaults : Prop :=
  ∀ (s : State) (f : Fault), Inv s → step s ≠ .fault f

/-- R103: every step, reset apart, keeps the settle guarantee: along the channel writes of `XINIT` and `XMIT`, each is issued no
earlier than the answer to the one before it plus the settle time that one owes; `SETRW` and `SETAUX` in between change
nothing in this. -/
def Obligations.StepKeepsSettleTimes : Prop :=
  ∀ s t : State, Inv s → Settled s → s.rst = false → step s = .next t → Settled t

/-- R91: `now` never decreases. -/
def Obligations.TimeNeverDecreases : Prop :=
  ∀ s t : State, step s = .next t → s.now ≤ t.now

/-- R6, R28: no step changes the configuration. -/
def Obligations.ConfigurationNeverChanges : Prop :=
  ∀ s t : State, step s = .next t → t.cfg = s.cfg

/-- R47, R51: the observed writes are only added to, at the end; each new one offered at least one byte, was accepted up to a
prefix of it, and was answered no earlier than it was issued. -/
def Obligations.WritesAreOnlyAppended : Prop :=
  ∀ s t : State, Inv s → step s = .next t →
    ∃ new : List WriteRec, t.writes = s.writes ++ new ∧
      ∀ w ∈ new, w.bytes ≠ [] ∧ w.n ≤ w.bytes.length ∧ w.issued ≤ w.answered

/-- R9, R60: what the outside does to the ports between two steps (a request or an answer to come, time now or at a look to come,
the reset line, readiness for a response) keeps the invariant and the settle guarantee, and touches no register of the block. -/
def Obligations.InputsKeepTheInvariants : Prop :=
  ∀ (s t : State) (e : Input), s.input e = some t →
    (Inv s → Inv t) ∧ (Settled s → Settled t) ∧ s.now ≤ t.now ∧
    t.cfg = s.cfg ∧ t.aux = s.aux ∧ t.dlValid = s.dlValid ∧ t.dlTime = s.dlTime ∧ t.buf = s.buf ∧
    t.bufLen = s.bufLen ∧ t.phase = s.phase ∧ t.idx = s.idx ∧ t.j = s.j ∧ t.done = s.done ∧ t.lastSlow = s.lastSlow ∧
    t.writes = s.writes ∧ t.responses = s.responses

/-- R9, R91, R104: the advance of time is a free input. Where no draw is left, the time base can make `WaitDeadline` return at
every instant from `now` on that is not before the deadline when Armed, Idle too; and a transmit held in `WAIT` then issues
its write at that instant. Draws may be supplied one after the other, as many as are wanted, in any phase. (That they stand
in a list is the model's form, log entry 2.) -/
def Obligations.TimeAdvancesFreelyAtEachLook : Prop :=
  (∀ (s : State) (u : Time), s.ticks = [] → s.now ≤ u → (s.dlValid = true → s.dlTime ≤ u) →
    ∃ (d : Nat) (s' t : State), s.input (.tick d) = some s' ∧ waitDeadline s' = .go t ∧ t.now = u ∧ t.ticks = [] ∧
      t.dlValid = false) ∧
  (∀ (s : State) (r : Request) (i : Instr) (u : Time), cfgOk s.cfg = true → s.rst = false → s.phase = .wait →
    s.cur = some r → decode r.hdr = .op i → (i = .xinit ∨ ∃ pairs, i = .xmit pairs) → s.ticks = [] → s.answers = [] →
    s.now ≤ u → (s.dlValid = true → s.dlTime ≤ u) →
    ∃ (d : Nat) (s' t : State), s.input (.tick d) = some s' ∧ step s' = .next t ∧ t.phase = .write ∧
      t.offer = some ⟨Memory.readBytes s.buf 0 s.bufLen, u⟩ ∧ t.writes = s.writes) ∧
  (∀ (s : State) (ds : List Nat),
    ds.foldlM (fun (v : State) d => v.input (.tick d)) s = some { s with ticks := s.ticks ++ ds })
end

