-- ==== Sys2Proof/Laws/Decode.lean ====
section
/-! SUPPORT. The fields of a header and the decoder in terms of the header's number. -/

namespace Sys2Proof

theorem opField_toNat (h : Header) : (opField h).toNat = h.toNat / 2 ^ 14 := by
  have := h.isLt
  simp only [opField, BitVec.extractLsb'_toNat, Nat.shiftRight_eq_div_pow]
  omega

theorem argField_toNat (h : Header) : (argField h).toNat = h.toNat % 2 ^ 14 := by
  simp [argField, BitVec.extractLsb'_toNat]

theorem argHigh_toNat (h : Header) : (argHigh h).toNat = h.toNat / 2 % 2 ^ 13 := by
  simp [argHigh, BitVec.extractLsb'_toNat, Nat.shiftRight_eq_div_pow]

theorem argBit_eq (h : Header) : argBit h = decide (h.toNat % 2 = 1) := by
  simp [argBit, BitVec.getLsbD, Nat.testBit_zero]

@[simp] theorem lenOf_toNat (pairs : BitVec 13) : (lenOf pairs).toNat = 2 * pairs.toNat := by
  unfold lenOf
  rw [BitVec.toNat_append]
  simp only [BitVec.toNat_ofNat, Nat.zero_mod, Nat.or_zero, Nat.shiftLeft_eq]
  omega

theorem opField_eq_iff (h : Header) (n : Nat) (hn : n < 4) : opField h = BitVec.ofNat 2 n ↔ h.toNat / 2 ^ 14 = n := by
  rw [← opField_toNat]
  constructor
  · intro e; rw [e, BitVec.toNat_ofNat, Nat.mod_eq_of_lt (by omega)]
  · intro e; apply BitVec.eq_of_toNat_eq; rw [BitVec.toNat_ofNat, Nat.mod_eq_of_lt (by omega), e]

theorem argHigh_eq_zero_iff (h : Header) : argHigh h = 0 ↔ h.toNat / 2 % 2 ^ 13 = 0 := by
  rw [← argHigh_toNat]
  constructor
  · intro e; rw [e]; rfl
  · intro e; apply BitVec.eq_of_toNat_eq; rw [e]; rfl

/-- R73 over the header's number. -/
theorem decode_eq (h : Header) :
    decode h =
      if h.toNat / 2 ^ 14 = 3 ∨ (h.toNat / 2 ^ 14 ≠ 0 ∧ h.toNat / 2 % 2 ^ 13 ≠ 0) then .rejected .illegal
      else if h.toNat = 1 then .op .xinit
      else if h.toNat < 2 ^ 14 ∧ h.toNat ≠ 0 ∧ h.toNat % 2 = 0 then .op (.xmit (argHigh h))
      else if h.toNat < 2 ^ 14 then .rejected .badLength
      else if h.toNat / 2 ^ 14 = 1 then .op (.setrw (decide (h.toNat % 2 = 1)))
      else .op (.setaux (decide (h.toNat % 2 = 1))) := by
  have hlt := h.isLt
  have o0 : opField h = 0b00 ↔ h.toNat / 2 ^ 14 = 0 := opField_eq_iff h 0 (by omega)
  have o1 : opField h = 0b01 ↔ h.toNat / 2 ^ 14 = 1 := opField_eq_iff h 1 (by omega)
  have o2 : opField h = 0b10 ↔ h.toNat / 2 ^ 14 = 2 := opField_eq_iff h 2 (by omega)
  have o3 : opField h = 0b11 ↔ h.toNat / 2 ^ 14 = 3 := opField_eq_iff h 3 (by omega)
  have hh := argHigh_eq_zero_iff h
  have a1 : argField h = 1 ↔ h.toNat % 2 ^ 14 = 1 := by
    rw [← argField_toNat]
    constructor
    · intro e; rw [e]; rfl
    · intro e; apply BitVec.eq_of_toNat_eq; rw [e]; rfl
  have a2 : 2 ≤ argField h ↔ 2 ≤ h.toNat % 2 ^ 14 := by
    rw [← argField_toNat]; exact Iff.rfl
  have ab := argBit_eq h
  unfold decode
  by_cases c1 : h.toNat / 2 ^ 14 = 3 ∨ (h.toNat / 2 ^ 14 ≠ 0 ∧ h.toNat / 2 % 2 ^ 13 ≠ 0)
  · rw [if_pos c1, if_pos]
    rcases c1 with c | ⟨c, d⟩
    · exact .inl (o3.2 c)
    · by_cases e : h.toNat / 2 ^ 14 = 3
      · exact .inl (o3.2 e)
      · refine .inr ⟨?_, fun z => d (hh.1 z)⟩
        by_cases f : h.toNat / 2 ^ 14 = 1
        · exact .inl (o1.2 f)
        · exact .inr (o2.2 (by omega))
  · rw [if_neg c1, if_neg]
    · by_cases c2 : h.toNat = 1
      · rw [if_pos c2, if_pos ⟨o0.2 (by omega), a1.2 (by omega)⟩]
      · rw [if_neg c2, if_neg (by rintro ⟨z, w⟩; have := o0.1 z; have := a1.1 w; omega)]
        by_cases c3 : h.toNat < 2 ^ 14 ∧ h.toNat ≠ 0 ∧ h.toNat % 2 = 0
        · rw [if_pos c3, if_pos ⟨o0.2 (by omega), a2.2 (by omega), by rw [ab]; simp; omega⟩]
        · rw [if_neg c3, if_neg]
          · by_cases c4 : h.toNat < 2 ^ 14
            · rw [if_pos c4, if_pos (o0.2 (by omega))]
            · rw [if_neg c4, if_neg (fun z => by have := o0.1 z; omega), ab]
              by_cases c5 : h.toNat / 2 ^ 14 = 1
              · rw [if_pos c5, if_pos (o1.2 c5)]
              · rw [if_neg c5, if_neg (fun z => c5 (o1.1 z))]
          · rintro ⟨z, w, x⟩
            have := o0.1 z
            have := a2.1 w
            rw [ab] at x
            simp at x
            omega
    · rintro (z | ⟨z, w⟩)
      · exact c1 (.inl (o3.1 z))
      · refine c1 (.inr ⟨?_, fun v => w (hh.2 v)⟩)
        rcases z with z | z
        · have := o1.1 z; omega
        · have := o2.1 z; omega

/-- The header of each operation, as a number. -/
theorem encode_xmit_toNat (pairs : BitVec 13) : (encode (.xmit pairs)).toNat = 2 * pairs.toNat := by
  have := pairs.isLt
  simp only [encode]
  rw [BitVec.toNat_append, lenOf_toNat]
  simp

theorem encode_setrw_toNat (v : Bool) : (encode (.setrw v)).toNat = 0x4000 + v.toNat := by
  cases v <;> rfl

theorem encode_setaux_toNat (v : Bool) : (encode (.setaux v)).toNat = 0x8000 + v.toNat := by
  cases v <;> rfl

end Sys2Proof
end

