-- ==== Sys2Proof/Laws/Memory.lean ====
section
/-! SUPPORT. The batch buffer's operations: every one keeps the canonical form; a read after a write at the same index gives
the byte written, at any other index what it gave before; a byte that has become unspecified is a free value. -/

namespace Sys2Proof.Machine

@[simp] theorem Memory.find_nil (a : Nat) : Memory.find [] a = none := rfl

theorem Memory.find_cons (x : Nat) (b : Byte) (m : Memory) (a : Nat) :
    Memory.find ((x, b) :: m) a = if x = a then some b else Memory.find m a := rfl

@[simp] theorem Memory.find_write_same (m : Memory) (a : Nat) (b : Byte) :
    Memory.find (Memory.write m a b) a = some b := by
  induction m with
  | nil => simp [Memory.write, Memory.find_cons]
  | cons c m ih =>
    obtain ⟨x, v⟩ := c
    simp only [Memory.write]
    split
    · simp [Memory.find_cons]
    · split
      · simp [Memory.find_cons]
      · rw [Memory.find_cons, if_neg (by omega), ih]

theorem Memory.find_write_other (m : Memory) (a k : Nat) (b : Byte) (h : k ≠ a) :
    Memory.find (Memory.write m a b) k = Memory.find m k := by
  induction m with
  | nil => simp [Memory.write, Memory.find_cons, Ne.symm h]
  | cons c m ih =>
    obtain ⟨x, v⟩ := c
    simp only [Memory.write]
    split
    · simp [Memory.find_cons, Ne.symm h]
    · split
      · rename_i hx; subst hx; simp [Memory.find_cons, Ne.symm h]
      · simp only [Memory.find_cons, ih]

/-- A byte of a run of bytes written. -/
theorem Memory.find_writeBytes_inside (m : Memory) (a : Nat) (bs : List Byte) (i : Nat) (h : i < bs.length) :
    Memory.find (Memory.writeBytes m a bs) (a + i) = some bs[i] := by
  induction bs generalizing m a i with
  | nil => simp at h
  | cons b bs ih =>
    have outside : ∀ (bs : List Byte) (m : Memory) (a k : Nat), k < a →
        Memory.find (Memory.writeBytes m a bs) k = Memory.find m k := by
      intro bs
      induction bs with
      | nil => intros; rfl
      | cons b bs ih =>
        intro m a k hk
        rw [Memory.writeBytes, ih _ _ _ (by omega), Memory.find_write_other _ _ _ _ (by omega)]
    rw [Memory.writeBytes]
    cases i with
    | zero => rw [outside _ _ _ _ (by omega)]; simp
    | succ i =>
      have := ih (Memory.write m a b) (a + 1) i (by simpa using h)
      rw [show a + (i + 1) = a + 1 + i by omega, this]
      simp

/-- An index outside the run of bytes written. -/
theorem Memory.find_writeBytes_outside (m : Memory) (a : Nat) (bs : List Byte) (k : Nat)
    (h : k < a ∨ a + bs.length ≤ k) : Memory.find (Memory.writeBytes m a bs) k = Memory.find m k := by
  induction bs generalizing m a with
  | nil => rfl
  | cons b bs ih =>
    simp only [List.length_cons] at h
    rw [Memory.writeBytes, ih _ _ (by omega), Memory.find_write_other _ _ _ _ (by omega)]

/-! ### What a byte reads as -/

theorem Memory.read_of_find {m : Memory} {a : Nat} {b : Byte} (h : Memory.find m a = some b) : Memory.read m a = b := by
  simp [Memory.read, h]

theorem Memory.read_congr {m k : Memory} {a : Nat} (h : Memory.find m a = Memory.find k a) :
    Memory.read m a = Memory.read k a := by
  simp only [Memory.read, h]

theorem Memory.read_writeBytes_inside (m : Memory) (a : Nat) (bs : List Byte) (i : Nat) (h : i < bs.length) :
    Memory.read (Memory.writeBytes m a bs) (a + i) = bs[i] :=
  Memory.read_of_find (Memory.find_writeBytes_inside m a bs i h)

theorem Memory.read_writeBytes_outside (m : Memory) (a : Nat) (bs : List Byte) (k : Nat)
    (h : k < a ∨ a + bs.length ≤ k) : Memory.read (Memory.writeBytes m a bs) k = Memory.read m k :=
  Memory.read_congr (Memory.find_writeBytes_outside m a bs k h)

/-- Bytes that have become unspecified are the free values of their draw; the others are as they were. -/
theorem Memory.read_unspecify (m : Memory) (n k a : Nat) :
    Memory.read (Memory.unspecify m n k) a = if a < n then Config.freeByte k a else Memory.read m a := by
  unfold Memory.unspecify
  split
  · rename_i h
    have := Memory.read_writeBytes_inside m 0 ((List.range n).map (Config.freeByte k)) a (by simpa using h)
    simpa using this
  · exact Memory.read_writeBytes_outside _ _ _ _ (.inr (by simp; omega))

/-! ### The canonical form -/

/-- Every index of the memory is at least `n`. -/
theorem Memory.wf_cons_iff (c : Host.Cell) (m : Memory) :
    Memory.wf (c :: m) = true ↔ (∀ d ∈ m, c.1 < d.1) ∧ Memory.wf m = true := by
  induction m generalizing c with
  | nil => simp [Memory.wf]
  | cons e m ih =>
    obtain ⟨a, x⟩ := c
    obtain ⟨b, y⟩ := e
    simp only [Memory.wf, Bool.and_eq_true, decide_eq_true_eq, List.mem_cons, forall_eq_or_imp]
    constructor
    · rintro ⟨h, hw⟩
      exact ⟨⟨h, fun d hd => Nat.lt_trans h (((ih _).1 hw).1 d hd)⟩, hw⟩
    · rintro ⟨⟨h, -⟩, hw⟩
      exact ⟨h, hw⟩

theorem Memory.write_lower (m : Memory) (a : Nat) (b : Byte) (n : Nat) (hm : ∀ d ∈ m, n < d.1) (ha : n < a) :
    ∀ d ∈ Memory.write m a b, n < d.1 := by
  induction m with
  | nil => simpa [Memory.write] using ha
  | cons c m ih =>
    obtain ⟨x, v⟩ := c
    simp only [Memory.write]
    simp only [List.mem_cons, forall_eq_or_imp] at hm
    split
    · simpa [ha] using hm
    · split
      · simpa [ha] using hm.2
      · simpa [hm.1] using ih hm.2

theorem Memory.write_wf (m : Memory) (a : Nat) (b : Byte) (h : Memory.wf m = true) :
    Memory.wf (Memory.write m a b) = true := by
  induction m with
  | nil => rfl
  | cons c m ih =>
    obtain ⟨x, v⟩ := c
    have hc := (Memory.wf_cons_iff _ _).1 h
    simp only [Memory.write]
    split
    · rename_i hlt
      refine (Memory.wf_cons_iff _ _).2 ⟨?_, h⟩
      simp only [List.mem_cons, forall_eq_or_imp]
      exact ⟨hlt, fun d hd => Nat.lt_trans hlt (hc.1 d hd)⟩
    · split
      · rename_i _ heq
        subst heq
        exact (Memory.wf_cons_iff _ _).2 hc
      · exact (Memory.wf_cons_iff _ _).2 ⟨Memory.write_lower m a b x hc.1 (by omega), ih hc.2⟩

theorem Memory.writeBytes_wf (m : Memory) (a : Nat) (bs : List Byte) (h : Memory.wf m = true) :
    Memory.wf (Memory.writeBytes m a bs) = true := by
  induction bs generalizing m a with
  | nil => exact h
  | cons b bs ih => exact ih _ _ (Memory.write_wf m a b h)

theorem Memory.unspecify_wf (m : Memory) (n k : Nat) (h : Memory.wf m = true) :
    Memory.wf (Memory.unspecify m n k) = true := Memory.writeBytes_wf m 0 _ h

theorem Memory.reset_wf : Memory.wf State.reset.buf = true := rfl

/-! ### Runs of bytes -/

@[simp] theorem Memory.readBytes_length (m : Memory) (a n : Nat) : (Memory.readBytes m a n).length = n := by
  induction n generalizing a with
  | zero => rfl
  | succ n ih => simp [Memory.readBytes, ih]

@[simp] theorem Memory.readBytes_getElem (m : Memory) (a n i : Nat) (h : i < (Memory.readBytes m a n).length) :
    (Memory.readBytes m a n)[i] = Memory.read m (a + i) := by
  induction n generalizing a i with
  | zero => simp at h
  | succ n ih =>
    simp only [Memory.readBytes]
    cases i with
    | zero => rfl
    | succ i =>
      rw [List.getElem_cons_succ, ih]
      congr 1; omega

/-- A run holds these bytes exactly when each of its bytes does. -/
theorem Memory.readBytes_eq_iff (m : Memory) (a n : Nat) (bs : List Byte) :
    Memory.readBytes m a n = bs ↔ bs.length = n ∧ ∀ i (h : i < bs.length), Memory.read m (a + i) = bs[i] := by
  constructor
  · rintro rfl; simp
  · rintro ⟨hl, hr⟩
    refine List.ext_getElem (by simp [hl]) fun i _ h => ?_
    rw [Memory.readBytes_getElem, hr i h]

/-- What was written at 0 is read back whole. -/
theorem Memory.readBytes_writeBytes (m : Memory) (bs : List Byte) :
    Memory.readBytes (Memory.writeBytes m 0 bs) 0 bs.length = bs :=
  (Memory.readBytes_eq_iff _ _ _ _).2 ⟨rfl, fun i hi => Memory.read_writeBytes_inside m 0 bs i hi⟩

/-- A run written right after a run read extends it. -/
theorem Memory.readBytes_append (m : Memory) (n : Nat) (old bs : List Byte) (h : Memory.readBytes m 0 n = old) :
    Memory.readBytes (Memory.writeBytes m n bs) 0 (n + bs.length) = old ++ bs := by
  obtain ⟨hl, hr⟩ := (Memory.readBytes_eq_iff _ _ _ _).1 h
  refine (Memory.readBytes_eq_iff _ _ _ _).2 ⟨by simp [hl], fun i hi => ?_⟩
  by_cases hin : i < n
  · rw [Nat.zero_add, Memory.read_writeBytes_outside _ _ _ _ (Or.inl hin)]
    have := hr i (by omega)
    rw [Nat.zero_add] at this
    rw [this, List.getElem_append_left (by omega)]
  · simp only [List.length_append] at hi
    have := Memory.read_writeBytes_inside m n bs (i - n) (by omega)
    rw [show 0 + i = n + (i - n) by omega, this, List.getElem_append_right (by omega)]
    simp [hl]

end Sys2Proof.Machine
end

