-- ==== Sys2Proof/Laws/State.lean ====
section
/-! SUPPORT. One lemma per field per named update of `State`, true by `rfl`, so that no proof unfolds an update. -/

namespace Sys2Proof.Machine

/-! ### State.toPhase -/

@[simp] theorem State.toPhase_cfg (s : State) (p : Phase) : (s.toPhase p).cfg = s.cfg := rfl
@[simp] theorem State.toPhase_aux (s : State) (p : Phase) : (s.toPhase p).aux = s.aux := rfl
@[simp] theorem State.toPhase_dlValid (s : State) (p : Phase) : (s.toPhase p).dlValid = s.dlValid := rfl
@[simp] theorem State.toPhase_dlTime (s : State) (p : Phase) : (s.toPhase p).dlTime = s.dlTime := rfl
@[simp] theorem State.toPhase_buf (s : State) (p : Phase) : (s.toPhase p).buf = s.buf := rfl
@[simp] theorem State.toPhase_bufLen (s : State) (p : Phase) : (s.toPhase p).bufLen = s.bufLen := rfl
@[simp] theorem State.toPhase_phase (s : State) (p : Phase) : (s.toPhase p).phase = p := rfl
@[simp] theorem State.toPhase_idx (s : State) (p : Phase) : (s.toPhase p).idx = s.idx := rfl
@[simp] theorem State.toPhase_j (s : State) (p : Phase) : (s.toPhase p).j = s.j := rfl
@[simp] theorem State.toPhase_done (s : State) (p : Phase) : (s.toPhase p).done = s.done := rfl
@[simp] theorem State.toPhase_lastSlow (s : State) (p : Phase) : (s.toPhase p).lastSlow = s.lastSlow := rfl
@[simp] theorem State.toPhase_now (s : State) (p : Phase) : (s.toPhase p).now = s.now := rfl
@[simp] theorem State.toPhase_ticks (s : State) (p : Phase) : (s.toPhase p).ticks = s.ticks := rfl
@[simp] theorem State.toPhase_rst (s : State) (p : Phase) : (s.toPhase p).rst = s.rst := rfl
@[simp] theorem State.toPhase_requests (s : State) (p : Phase) : (s.toPhase p).requests = s.requests := rfl
@[simp] theorem State.toPhase_cur (s : State) (p : Phase) : (s.toPhase p).cur = s.cur := rfl
@[simp] theorem State.toPhase_answers (s : State) (p : Phase) : (s.toPhase p).answers = s.answers := rfl
@[simp] theorem State.toPhase_offer (s : State) (p : Phase) : (s.toPhase p).offer = s.offer := rfl
@[simp] theorem State.toPhase_ans (s : State) (p : Phase) : (s.toPhase p).ans = s.ans := rfl
@[simp] theorem State.toPhase_rsp (s : State) (p : Phase) : (s.toPhase p).rsp = s.rsp := rfl
@[simp] theorem State.toPhase_rspReady (s : State) (p : Phase) : (s.toPhase p).rspReady = s.rspReady := rfl
@[simp] theorem State.toPhase_writes (s : State) (p : Phase) : (s.toPhase p).writes = s.writes := rfl
@[simp] theorem State.toPhase_responses (s : State) (p : Phase) : (s.toPhase p).responses = s.responses := rfl
@[simp] theorem State.toPhase_draws (s : State) (p : Phase) : (s.toPhase p).draws = s.draws := rfl

/-! ### State.setAux -/

@[simp] theorem State.setAux_cfg (s : State) (a : Byte) : (s.setAux a).cfg = s.cfg := rfl
@[simp] theorem State.setAux_aux (s : State) (a : Byte) : (s.setAux a).aux = a := rfl
@[simp] theorem State.setAux_dlValid (s : State) (a : Byte) : (s.setAux a).dlValid = s.dlValid := rfl
@[simp] theorem State.setAux_dlTime (s : State) (a : Byte) : (s.setAux a).dlTime = s.dlTime := rfl
@[simp] theorem State.setAux_buf (s : State) (a : Byte) : (s.setAux a).buf = s.buf := rfl
@[simp] theorem State.setAux_bufLen (s : State) (a : Byte) : (s.setAux a).bufLen = s.bufLen := rfl
@[simp] theorem State.setAux_phase (s : State) (a : Byte) : (s.setAux a).phase = s.phase := rfl
@[simp] theorem State.setAux_idx (s : State) (a : Byte) : (s.setAux a).idx = s.idx := rfl
@[simp] theorem State.setAux_j (s : State) (a : Byte) : (s.setAux a).j = s.j := rfl
@[simp] theorem State.setAux_done (s : State) (a : Byte) : (s.setAux a).done = s.done := rfl
@[simp] theorem State.setAux_lastSlow (s : State) (a : Byte) : (s.setAux a).lastSlow = s.lastSlow := rfl
@[simp] theorem State.setAux_now (s : State) (a : Byte) : (s.setAux a).now = s.now := rfl
@[simp] theorem State.setAux_ticks (s : State) (a : Byte) : (s.setAux a).ticks = s.ticks := rfl
@[simp] theorem State.setAux_rst (s : State) (a : Byte) : (s.setAux a).rst = s.rst := rfl
@[simp] theorem State.setAux_requests (s : State) (a : Byte) : (s.setAux a).requests = s.requests := rfl
@[simp] theorem State.setAux_cur (s : State) (a : Byte) : (s.setAux a).cur = s.cur := rfl
@[simp] theorem State.setAux_answers (s : State) (a : Byte) : (s.setAux a).answers = s.answers := rfl
@[simp] theorem State.setAux_offer (s : State) (a : Byte) : (s.setAux a).offer = s.offer := rfl
@[simp] theorem State.setAux_ans (s : State) (a : Byte) : (s.setAux a).ans = s.ans := rfl
@[simp] theorem State.setAux_rsp (s : State) (a : Byte) : (s.setAux a).rsp = s.rsp := rfl
@[simp] theorem State.setAux_rspReady (s : State) (a : Byte) : (s.setAux a).rspReady = s.rspReady := rfl
@[simp] theorem State.setAux_writes (s : State) (a : Byte) : (s.setAux a).writes = s.writes := rfl
@[simp] theorem State.setAux_responses (s : State) (a : Byte) : (s.setAux a).responses = s.responses := rfl
@[simp] theorem State.setAux_draws (s : State) (a : Byte) : (s.setAux a).draws = s.draws := rfl

/-! ### State.setBufLen -/

@[simp] theorem State.setBufLen_cfg (s : State) (n : Nat) : (s.setBufLen n).cfg = s.cfg := rfl
@[simp] theorem State.setBufLen_aux (s : State) (n : Nat) : (s.setBufLen n).aux = s.aux := rfl
@[simp] theorem State.setBufLen_dlValid (s : State) (n : Nat) : (s.setBufLen n).dlValid = s.dlValid := rfl
@[simp] theorem State.setBufLen_dlTime (s : State) (n : Nat) : (s.setBufLen n).dlTime = s.dlTime := rfl
@[simp] theorem State.setBufLen_buf (s : State) (n : Nat) : (s.setBufLen n).buf = s.buf := rfl
@[simp] theorem State.setBufLen_bufLen (s : State) (n : Nat) : (s.setBufLen n).bufLen = n := rfl
@[simp] theorem State.setBufLen_phase (s : State) (n : Nat) : (s.setBufLen n).phase = s.phase := rfl
@[simp] theorem State.setBufLen_idx (s : State) (n : Nat) : (s.setBufLen n).idx = s.idx := rfl
@[simp] theorem State.setBufLen_j (s : State) (n : Nat) : (s.setBufLen n).j = s.j := rfl
@[simp] theorem State.setBufLen_done (s : State) (n : Nat) : (s.setBufLen n).done = s.done := rfl
@[simp] theorem State.setBufLen_lastSlow (s : State) (n : Nat) : (s.setBufLen n).lastSlow = s.lastSlow := rfl
@[simp] theorem State.setBufLen_now (s : State) (n : Nat) : (s.setBufLen n).now = s.now := rfl
@[simp] theorem State.setBufLen_ticks (s : State) (n : Nat) : (s.setBufLen n).ticks = s.ticks := rfl
@[simp] theorem State.setBufLen_rst (s : State) (n : Nat) : (s.setBufLen n).rst = s.rst := rfl
@[simp] theorem State.setBufLen_requests (s : State) (n : Nat) : (s.setBufLen n).requests = s.requests := rfl
@[simp] theorem State.setBufLen_cur (s : State) (n : Nat) : (s.setBufLen n).cur = s.cur := rfl
@[simp] theorem State.setBufLen_answers (s : State) (n : Nat) : (s.setBufLen n).answers = s.answers := rfl
@[simp] theorem State.setBufLen_offer (s : State) (n : Nat) : (s.setBufLen n).offer = s.offer := rfl
@[simp] theorem State.setBufLen_ans (s : State) (n : Nat) : (s.setBufLen n).ans = s.ans := rfl
@[simp] theorem State.setBufLen_rsp (s : State) (n : Nat) : (s.setBufLen n).rsp = s.rsp := rfl
@[simp] theorem State.setBufLen_rspReady (s : State) (n : Nat) : (s.setBufLen n).rspReady = s.rspReady := rfl
@[simp] theorem State.setBufLen_writes (s : State) (n : Nat) : (s.setBufLen n).writes = s.writes := rfl
@[simp] theorem State.setBufLen_responses (s : State) (n : Nat) : (s.setBufLen n).responses = s.responses := rfl
@[simp] theorem State.setBufLen_draws (s : State) (n : Nat) : (s.setBufLen n).draws = s.draws := rfl

/-! ### State.startXmit -/

@[simp] theorem State.startXmit_cfg (s : State) : s.startXmit.cfg = s.cfg := rfl
@[simp] theorem State.startXmit_aux (s : State) : s.startXmit.aux = s.aux := rfl
@[simp] theorem State.startXmit_dlValid (s : State) : s.startXmit.dlValid = s.dlValid := rfl
@[simp] theorem State.startXmit_dlTime (s : State) : s.startXmit.dlTime = s.dlTime := rfl
@[simp] theorem State.startXmit_buf (s : State) : s.startXmit.buf = s.buf := rfl
@[simp] theorem State.startXmit_bufLen (s : State) : s.startXmit.bufLen = s.bufLen := rfl
@[simp] theorem State.startXmit_phase (s : State) : s.startXmit.phase = s.phase := rfl
@[simp] theorem State.startXmit_idx (s : State) : s.startXmit.idx = 0 := rfl
@[simp] theorem State.startXmit_j (s : State) : s.startXmit.j = s.j := rfl
@[simp] theorem State.startXmit_done (s : State) : s.startXmit.done = 0 := rfl
@[simp] theorem State.startXmit_lastSlow (s : State) : s.startXmit.lastSlow = s.lastSlow := rfl
@[simp] theorem State.startXmit_now (s : State) : s.startXmit.now = s.now := rfl
@[simp] theorem State.startXmit_ticks (s : State) : s.startXmit.ticks = s.ticks := rfl
@[simp] theorem State.startXmit_rst (s : State) : s.startXmit.rst = s.rst := rfl
@[simp] theorem State.startXmit_requests (s : State) : s.startXmit.requests = s.requests := rfl
@[simp] theorem State.startXmit_cur (s : State) : s.startXmit.cur = s.cur := rfl
@[simp] theorem State.startXmit_answers (s : State) : s.startXmit.answers = s.answers := rfl
@[simp] theorem State.startXmit_offer (s : State) : s.startXmit.offer = s.offer := rfl
@[simp] theorem State.startXmit_ans (s : State) : s.startXmit.ans = s.ans := rfl
@[simp] theorem State.startXmit_rsp (s : State) : s.startXmit.rsp = s.rsp := rfl
@[simp] theorem State.startXmit_rspReady (s : State) : s.startXmit.rspReady = s.rspReady := rfl
@[simp] theorem State.startXmit_writes (s : State) : s.startXmit.writes = s.writes := rfl
@[simp] theorem State.startXmit_responses (s : State) : s.startXmit.responses = s.responses := rfl
@[simp] theorem State.startXmit_draws (s : State) : s.startXmit.draws = s.draws := rfl

/-! ### State.nextPair -/

@[simp] theorem State.nextPair_cfg (s : State) : s.nextPair.cfg = s.cfg := rfl
@[simp] theorem State.nextPair_aux (s : State) : s.nextPair.aux = s.aux := rfl
@[simp] theorem State.nextPair_dlValid (s : State) : s.nextPair.dlValid = s.dlValid := rfl
@[simp] theorem State.nextPair_dlTime (s : State) : s.nextPair.dlTime = s.dlTime := rfl
@[simp] theorem State.nextPair_buf (s : State) : s.nextPair.buf = s.buf := rfl
@[simp] theorem State.nextPair_bufLen (s : State) : s.nextPair.bufLen = s.bufLen := rfl
@[simp] theorem State.nextPair_phase (s : State) : s.nextPair.phase = s.phase := rfl
@[simp] theorem State.nextPair_idx (s : State) : s.nextPair.idx = s.idx + 2 := rfl
@[simp] theorem State.nextPair_j (s : State) : s.nextPair.j = s.j := rfl
@[simp] theorem State.nextPair_done (s : State) : s.nextPair.done = s.done := rfl
@[simp] theorem State.nextPair_lastSlow (s : State) : s.nextPair.lastSlow = s.lastSlow := rfl
@[simp] theorem State.nextPair_now (s : State) : s.nextPair.now = s.now := rfl
@[simp] theorem State.nextPair_ticks (s : State) : s.nextPair.ticks = s.ticks := rfl
@[simp] theorem State.nextPair_rst (s : State) : s.nextPair.rst = s.rst := rfl
@[simp] theorem State.nextPair_requests (s : State) : s.nextPair.requests = s.requests := rfl
@[simp] theorem State.nextPair_cur (s : State) : s.nextPair.cur = s.cur := rfl
@[simp] theorem State.nextPair_answers (s : State) : s.nextPair.answers = s.answers := rfl
@[simp] theorem State.nextPair_offer (s : State) : s.nextPair.offer = s.offer := rfl
@[simp] theorem State.nextPair_ans (s : State) : s.nextPair.ans = s.ans := rfl
@[simp] theorem State.nextPair_rsp (s : State) : s.nextPair.rsp = s.rsp := rfl
@[simp] theorem State.nextPair_rspReady (s : State) : s.nextPair.rspReady = s.rspReady := rfl
@[simp] theorem State.nextPair_writes (s : State) : s.nextPair.writes = s.writes := rfl
@[simp] theorem State.nextPair_responses (s : State) : s.nextPair.responses = s.responses := rfl
@[simp] theorem State.nextPair_draws (s : State) : s.nextPair.draws = s.draws := rfl

/-! ### State.setJ -/

@[simp] theorem State.setJ_cfg (s : State) (n : Nat) : (s.setJ n).cfg = s.cfg := rfl
@[simp] theorem State.setJ_aux (s : State) (n : Nat) : (s.setJ n).aux = s.aux := rfl
@[simp] theorem State.setJ_dlValid (s : State) (n : Nat) : (s.setJ n).dlValid = s.dlValid := rfl
@[simp] theorem State.setJ_dlTime (s : State) (n : Nat) : (s.setJ n).dlTime = s.dlTime := rfl
@[simp] theorem State.setJ_buf (s : State) (n : Nat) : (s.setJ n).buf = s.buf := rfl
@[simp] theorem State.setJ_bufLen (s : State) (n : Nat) : (s.setJ n).bufLen = s.bufLen := rfl
@[simp] theorem State.setJ_phase (s : State) (n : Nat) : (s.setJ n).phase = s.phase := rfl
@[simp] theorem State.setJ_idx (s : State) (n : Nat) : (s.setJ n).idx = s.idx := rfl
@[simp] theorem State.setJ_j (s : State) (n : Nat) : (s.setJ n).j = n := rfl
@[simp] theorem State.setJ_done (s : State) (n : Nat) : (s.setJ n).done = s.done := rfl
@[simp] theorem State.setJ_lastSlow (s : State) (n : Nat) : (s.setJ n).lastSlow = s.lastSlow := rfl
@[simp] theorem State.setJ_now (s : State) (n : Nat) : (s.setJ n).now = s.now := rfl
@[simp] theorem State.setJ_ticks (s : State) (n : Nat) : (s.setJ n).ticks = s.ticks := rfl
@[simp] theorem State.setJ_rst (s : State) (n : Nat) : (s.setJ n).rst = s.rst := rfl
@[simp] theorem State.setJ_requests (s : State) (n : Nat) : (s.setJ n).requests = s.requests := rfl
@[simp] theorem State.setJ_cur (s : State) (n : Nat) : (s.setJ n).cur = s.cur := rfl
@[simp] theorem State.setJ_answers (s : State) (n : Nat) : (s.setJ n).answers = s.answers := rfl
@[simp] theorem State.setJ_offer (s : State) (n : Nat) : (s.setJ n).offer = s.offer := rfl
@[simp] theorem State.setJ_ans (s : State) (n : Nat) : (s.setJ n).ans = s.ans := rfl
@[simp] theorem State.setJ_rsp (s : State) (n : Nat) : (s.setJ n).rsp = s.rsp := rfl
@[simp] theorem State.setJ_rspReady (s : State) (n : Nat) : (s.setJ n).rspReady = s.rspReady := rfl
@[simp] theorem State.setJ_writes (s : State) (n : Nat) : (s.setJ n).writes = s.writes := rfl
@[simp] theorem State.setJ_responses (s : State) (n : Nat) : (s.setJ n).responses = s.responses := rfl
@[simp] theorem State.setJ_draws (s : State) (n : Nat) : (s.setJ n).draws = s.draws := rfl

/-! ### State.setLastSlow -/

@[simp] theorem State.setLastSlow_cfg (s : State) (b : Bool) : (s.setLastSlow b).cfg = s.cfg := rfl
@[simp] theorem State.setLastSlow_aux (s : State) (b : Bool) : (s.setLastSlow b).aux = s.aux := rfl
@[simp] theorem State.setLastSlow_dlValid (s : State) (b : Bool) : (s.setLastSlow b).dlValid = s.dlValid := rfl
@[simp] theorem State.setLastSlow_dlTime (s : State) (b : Bool) : (s.setLastSlow b).dlTime = s.dlTime := rfl
@[simp] theorem State.setLastSlow_buf (s : State) (b : Bool) : (s.setLastSlow b).buf = s.buf := rfl
@[simp] theorem State.setLastSlow_bufLen (s : State) (b : Bool) : (s.setLastSlow b).bufLen = s.bufLen := rfl
@[simp] theorem State.setLastSlow_phase (s : State) (b : Bool) : (s.setLastSlow b).phase = s.phase := rfl
@[simp] theorem State.setLastSlow_idx (s : State) (b : Bool) : (s.setLastSlow b).idx = s.idx := rfl
@[simp] theorem State.setLastSlow_j (s : State) (b : Bool) : (s.setLastSlow b).j = s.j := rfl
@[simp] theorem State.setLastSlow_done (s : State) (b : Bool) : (s.setLastSlow b).done = s.done := rfl
@[simp] theorem State.setLastSlow_lastSlow (s : State) (b : Bool) : (s.setLastSlow b).lastSlow = b := rfl
@[simp] theorem State.setLastSlow_now (s : State) (b : Bool) : (s.setLastSlow b).now = s.now := rfl
@[simp] theorem State.setLastSlow_ticks (s : State) (b : Bool) : (s.setLastSlow b).ticks = s.ticks := rfl
@[simp] theorem State.setLastSlow_rst (s : State) (b : Bool) : (s.setLastSlow b).rst = s.rst := rfl
@[simp] theorem State.setLastSlow_requests (s : State) (b : Bool) : (s.setLastSlow b).requests = s.requests := rfl
@[simp] theorem State.setLastSlow_cur (s : State) (b : Bool) : (s.setLastSlow b).cur = s.cur := rfl
@[simp] theorem State.setLastSlow_answers (s : State) (b : Bool) : (s.setLastSlow b).answers = s.answers := rfl
@[simp] theorem State.setLastSlow_offer (s : State) (b : Bool) : (s.setLastSlow b).offer = s.offer := rfl
@[simp] theorem State.setLastSlow_ans (s : State) (b : Bool) : (s.setLastSlow b).ans = s.ans := rfl
@[simp] theorem State.setLastSlow_rsp (s : State) (b : Bool) : (s.setLastSlow b).rsp = s.rsp := rfl
@[simp] theorem State.setLastSlow_rspReady (s : State) (b : Bool) : (s.setLastSlow b).rspReady = s.rspReady := rfl
@[simp] theorem State.setLastSlow_writes (s : State) (b : Bool) : (s.setLastSlow b).writes = s.writes := rfl
@[simp] theorem State.setLastSlow_responses (s : State) (b : Bool) : (s.setLastSlow b).responses = s.responses := rfl
@[simp] theorem State.setLastSlow_draws (s : State) (b : Bool) : (s.setLastSlow b).draws = s.draws := rfl

/-! ### State.setDone -/

@[simp] theorem State.setDone_cfg (s : State) (d : Count) : (s.setDone d).cfg = s.cfg := rfl
@[simp] theorem State.setDone_aux (s : State) (d : Count) : (s.setDone d).aux = s.aux := rfl
@[simp] theorem State.setDone_dlValid (s : State) (d : Count) : (s.setDone d).dlValid = s.dlValid := rfl
@[simp] theorem State.setDone_dlTime (s : State) (d : Count) : (s.setDone d).dlTime = s.dlTime := rfl
@[simp] theorem State.setDone_buf (s : State) (d : Count) : (s.setDone d).buf = s.buf := rfl
@[simp] theorem State.setDone_bufLen (s : State) (d : Count) : (s.setDone d).bufLen = s.bufLen := rfl
@[simp] theorem State.setDone_phase (s : State) (d : Count) : (s.setDone d).phase = s.phase := rfl
@[simp] theorem State.setDone_idx (s : State) (d : Count) : (s.setDone d).idx = s.idx := rfl
@[simp] theorem State.setDone_j (s : State) (d : Count) : (s.setDone d).j = s.j := rfl
@[simp] theorem State.setDone_done (s : State) (d : Count) : (s.setDone d).done = d := rfl
@[simp] theorem State.setDone_lastSlow (s : State) (d : Count) : (s.setDone d).lastSlow = s.lastSlow := rfl
@[simp] theorem State.setDone_now (s : State) (d : Count) : (s.setDone d).now = s.now := rfl
@[simp] theorem State.setDone_ticks (s : State) (d : Count) : (s.setDone d).ticks = s.ticks := rfl
@[simp] theorem State.setDone_rst (s : State) (d : Count) : (s.setDone d).rst = s.rst := rfl
@[simp] theorem State.setDone_requests (s : State) (d : Count) : (s.setDone d).requests = s.requests := rfl
@[simp] theorem State.setDone_cur (s : State) (d : Count) : (s.setDone d).cur = s.cur := rfl
@[simp] theorem State.setDone_answers (s : State) (d : Count) : (s.setDone d).answers = s.answers := rfl
@[simp] theorem State.setDone_offer (s : State) (d : Count) : (s.setDone d).offer = s.offer := rfl
@[simp] theorem State.setDone_ans (s : State) (d : Count) : (s.setDone d).ans = s.ans := rfl
@[simp] theorem State.setDone_rsp (s : State) (d : Count) : (s.setDone d).rsp = s.rsp := rfl
@[simp] theorem State.setDone_rspReady (s : State) (d : Count) : (s.setDone d).rspReady = s.rspReady := rfl
@[simp] theorem State.setDone_writes (s : State) (d : Count) : (s.setDone d).writes = s.writes := rfl
@[simp] theorem State.setDone_responses (s : State) (d : Count) : (s.setDone d).responses = s.responses := rfl
@[simp] theorem State.setDone_draws (s : State) (d : Count) : (s.setDone d).draws = s.draws := rfl

/-! ### State.passTo -/

@[simp] theorem State.passTo_cfg (s : State) (t : Time) (ts : List Nat) : (s.passTo t ts).cfg = s.cfg := rfl
@[simp] theorem State.passTo_aux (s : State) (t : Time) (ts : List Nat) : (s.passTo t ts).aux = s.aux := rfl
@[simp] theorem State.passTo_dlValid (s : State) (t : Time) (ts : List Nat) : (s.passTo t ts).dlValid = s.dlValid := rfl
@[simp] theorem State.passTo_dlTime (s : State) (t : Time) (ts : List Nat) : (s.passTo t ts).dlTime = s.dlTime := rfl
@[simp] theorem State.passTo_buf (s : State) (t : Time) (ts : List Nat) : (s.passTo t ts).buf = s.buf := rfl
@[simp] theorem State.passTo_bufLen (s : State) (t : Time) (ts : List Nat) : (s.passTo t ts).bufLen = s.bufLen := rfl
@[simp] theorem State.passTo_phase (s : State) (t : Time) (ts : List Nat) : (s.passTo t ts).phase = s.phase := rfl
@[simp] theorem State.passTo_idx (s : State) (t : Time) (ts : List Nat) : (s.passTo t ts).idx = s.idx := rfl
@[simp] theorem State.passTo_j (s : State) (t : Time) (ts : List Nat) : (s.passTo t ts).j = s.j := rfl
@[simp] theorem State.passTo_done (s : State) (t : Time) (ts : List Nat) : (s.passTo t ts).done = s.done := rfl
@[simp] theorem State.passTo_lastSlow (s : State) (t : Time) (ts : List Nat) : (s.passTo t ts).lastSlow = s.lastSlow := rfl
@[simp] theorem State.passTo_now (s : State) (t : Time) (ts : List Nat) : (s.passTo t ts).now = t := rfl
@[simp] theorem State.passTo_ticks (s : State) (t : Time) (ts : List Nat) : (s.passTo t ts).ticks = ts := rfl
@[simp] theorem State.passTo_rst (s : State) (t : Time) (ts : List Nat) : (s.passTo t ts).rst = s.rst := rfl
@[simp] theorem State.passTo_requests (s : State) (t : Time) (ts : List Nat) : (s.passTo t ts).requests = s.requests := rfl
@[simp] theorem State.passTo_cur (s : State) (t : Time) (ts : List Nat) : (s.passTo t ts).cur = s.cur := rfl
@[simp] theorem State.passTo_answers (s : State) (t : Time) (ts : List Nat) : (s.passTo t ts).answers = s.answers := rfl
@[simp] theorem State.passTo_offer (s : State) (t : Time) (ts : List Nat) : (s.passTo t ts).offer = s.offer := rfl
@[simp] theorem State.passTo_ans (s : State) (t : Time) (ts : List Nat) : (s.passTo t ts).ans = s.ans := rfl
@[simp] theorem State.passTo_rsp (s : State) (t : Time) (ts : List Nat) : (s.passTo t ts).rsp = s.rsp := rfl
@[simp] theorem State.passTo_rspReady (s : State) (t : Time) (ts : List Nat) : (s.passTo t ts).rspReady = s.rspReady := rfl
@[simp] theorem State.passTo_writes (s : State) (t : Time) (ts : List Nat) : (s.passTo t ts).writes = s.writes := rfl
@[simp] theorem State.passTo_responses (s : State) (t : Time) (ts : List Nat) : (s.passTo t ts).responses = s.responses := rfl
@[simp] theorem State.passTo_draws (s : State) (t : Time) (ts : List Nat) : (s.passTo t ts).draws = s.draws := rfl

/-! ### State.setDeadline -/

@[simp] theorem State.setDeadline_cfg (s : State) (t : Time) : (s.setDeadline t).cfg = s.cfg := rfl
@[simp] theorem State.setDeadline_aux (s : State) (t : Time) : (s.setDeadline t).aux = s.aux := rfl
@[simp] theorem State.setDeadline_dlValid (s : State) (t : Time) : (s.setDeadline t).dlValid = true := rfl
@[simp] theorem State.setDeadline_dlTime (s : State) (t : Time) : (s.setDeadline t).dlTime = t := rfl
@[simp] theorem State.setDeadline_buf (s : State) (t : Time) : (s.setDeadline t).buf = s.buf := rfl
@[simp] theorem State.setDeadline_bufLen (s : State) (t : Time) : (s.setDeadline t).bufLen = s.bufLen := rfl
@[simp] theorem State.setDeadline_phase (s : State) (t : Time) : (s.setDeadline t).phase = s.phase := rfl
@[simp] theorem State.setDeadline_idx (s : State) (t : Time) : (s.setDeadline t).idx = s.idx := rfl
@[simp] theorem State.setDeadline_j (s : State) (t : Time) : (s.setDeadline t).j = s.j := rfl
@[simp] theorem State.setDeadline_done (s : State) (t : Time) : (s.setDeadline t).done = s.done := rfl
@[simp] theorem State.setDeadline_lastSlow (s : State) (t : Time) : (s.setDeadline t).lastSlow = s.lastSlow := rfl
@[simp] theorem State.setDeadline_now (s : State) (t : Time) : (s.setDeadline t).now = s.now := rfl
@[simp] theorem State.setDeadline_ticks (s : State) (t : Time) : (s.setDeadline t).ticks = s.ticks := rfl
@[simp] theorem State.setDeadline_rst (s : State) (t : Time) : (s.setDeadline t).rst = s.rst := rfl
@[simp] theorem State.setDeadline_requests (s : State) (t : Time) : (s.setDeadline t).requests = s.requests := rfl
@[simp] theorem State.setDeadline_cur (s : State) (t : Time) : (s.setDeadline t).cur = s.cur := rfl
@[simp] theorem State.setDeadline_answers (s : State) (t : Time) : (s.setDeadline t).answers = s.answers := rfl
@[simp] theorem State.setDeadline_offer (s : State) (t : Time) : (s.setDeadline t).offer = s.offer := rfl
@[simp] theorem State.setDeadline_ans (s : State) (t : Time) : (s.setDeadline t).ans = s.ans := rfl
@[simp] theorem State.setDeadline_rsp (s : State) (t : Time) : (s.setDeadline t).rsp = s.rsp := rfl
@[simp] theorem State.setDeadline_rspReady (s : State) (t : Time) : (s.setDeadline t).rspReady = s.rspReady := rfl
@[simp] theorem State.setDeadline_writes (s : State) (t : Time) : (s.setDeadline t).writes = s.writes := rfl
@[simp] theorem State.setDeadline_responses (s : State) (t : Time) : (s.setDeadline t).responses = s.responses := rfl
@[simp] theorem State.setDeadline_draws (s : State) (t : Time) : (s.setDeadline t).draws = s.draws := rfl

/-! ### State.clearDeadline -/

@[simp] theorem State.clearDeadline_cfg (s : State) : s.clearDeadline.cfg = s.cfg := rfl
@[simp] theorem State.clearDeadline_aux (s : State) : s.clearDeadline.aux = s.aux := rfl
@[simp] theorem State.clearDeadline_dlValid (s : State) : s.clearDeadline.dlValid = false := rfl
@[simp] theorem State.clearDeadline_dlTime (s : State) : s.clearDeadline.dlTime = Config.freeDlTime s.draws := rfl
@[simp] theorem State.clearDeadline_buf (s : State) : s.clearDeadline.buf = s.buf := rfl
@[simp] theorem State.clearDeadline_bufLen (s : State) : s.clearDeadline.bufLen = s.bufLen := rfl
@[simp] theorem State.clearDeadline_phase (s : State) : s.clearDeadline.phase = s.phase := rfl
@[simp] theorem State.clearDeadline_idx (s : State) : s.clearDeadline.idx = s.idx := rfl
@[simp] theorem State.clearDeadline_j (s : State) : s.clearDeadline.j = s.j := rfl
@[simp] theorem State.clearDeadline_done (s : State) : s.clearDeadline.done = s.done := rfl
@[simp] theorem State.clearDeadline_lastSlow (s : State) : s.clearDeadline.lastSlow = s.lastSlow := rfl
@[simp] theorem State.clearDeadline_now (s : State) : s.clearDeadline.now = s.now := rfl
@[simp] theorem State.clearDeadline_ticks (s : State) : s.clearDeadline.ticks = s.ticks := rfl
@[simp] theorem State.clearDeadline_rst (s : State) : s.clearDeadline.rst = s.rst := rfl
@[simp] theorem State.clearDeadline_requests (s : State) : s.clearDeadline.requests = s.requests := rfl
@[simp] theorem State.clearDeadline_cur (s : State) : s.clearDeadline.cur = s.cur := rfl
@[simp] theorem State.clearDeadline_answers (s : State) : s.clearDeadline.answers = s.answers := rfl
@[simp] theorem State.clearDeadline_offer (s : State) : s.clearDeadline.offer = s.offer := rfl
@[simp] theorem State.clearDeadline_ans (s : State) : s.clearDeadline.ans = s.ans := rfl
@[simp] theorem State.clearDeadline_rsp (s : State) : s.clearDeadline.rsp = s.rsp := rfl
@[simp] theorem State.clearDeadline_rspReady (s : State) : s.clearDeadline.rspReady = s.rspReady := rfl
@[simp] theorem State.clearDeadline_writes (s : State) : s.clearDeadline.writes = s.writes := rfl
@[simp] theorem State.clearDeadline_responses (s : State) : s.clearDeadline.responses = s.responses := rfl
@[simp] theorem State.clearDeadline_draws (s : State) : s.clearDeadline.draws = s.draws + 1 := rfl

/-! ### State.emptyBuffer -/

@[simp] theorem State.emptyBuffer_cfg (s : State) : s.emptyBuffer.cfg = s.cfg := rfl
@[simp] theorem State.emptyBuffer_aux (s : State) : s.emptyBuffer.aux = s.aux := rfl
@[simp] theorem State.emptyBuffer_dlValid (s : State) : s.emptyBuffer.dlValid = s.dlValid := rfl
@[simp] theorem State.emptyBuffer_dlTime (s : State) : s.emptyBuffer.dlTime = s.dlTime := rfl
@[simp] theorem State.emptyBuffer_buf (s : State) : s.emptyBuffer.buf = Memory.unspecify s.buf s.bufLen s.draws := rfl
@[simp] theorem State.emptyBuffer_bufLen (s : State) : s.emptyBuffer.bufLen = 0 := rfl
@[simp] theorem State.emptyBuffer_phase (s : State) : s.emptyBuffer.phase = .acct := rfl
@[simp] theorem State.emptyBuffer_idx (s : State) : s.emptyBuffer.idx = s.idx := rfl
@[simp] theorem State.emptyBuffer_j (s : State) : s.emptyBuffer.j = s.j := rfl
@[simp] theorem State.emptyBuffer_done (s : State) : s.emptyBuffer.done = s.done := rfl
@[simp] theorem State.emptyBuffer_lastSlow (s : State) : s.emptyBuffer.lastSlow = s.lastSlow := rfl
@[simp] theorem State.emptyBuffer_now (s : State) : s.emptyBuffer.now = s.now := rfl
@[simp] theorem State.emptyBuffer_ticks (s : State) : s.emptyBuffer.ticks = s.ticks := rfl
@[simp] theorem State.emptyBuffer_rst (s : State) : s.emptyBuffer.rst = s.rst := rfl
@[simp] theorem State.emptyBuffer_requests (s : State) : s.emptyBuffer.requests = s.requests := rfl
@[simp] theorem State.emptyBuffer_cur (s : State) : s.emptyBuffer.cur = s.cur := rfl
@[simp] theorem State.emptyBuffer_answers (s : State) : s.emptyBuffer.answers = s.answers := rfl
@[simp] theorem State.emptyBuffer_offer (s : State) : s.emptyBuffer.offer = s.offer := rfl
@[simp] theorem State.emptyBuffer_ans (s : State) : s.emptyBuffer.ans = none := rfl
@[simp] theorem State.emptyBuffer_rsp (s : State) : s.emptyBuffer.rsp = s.rsp := rfl
@[simp] theorem State.emptyBuffer_rspReady (s : State) : s.emptyBuffer.rspReady = s.rspReady := rfl
@[simp] theorem State.emptyBuffer_writes (s : State) : s.emptyBuffer.writes = s.writes := rfl
@[simp] theorem State.emptyBuffer_responses (s : State) : s.emptyBuffer.responses = s.responses := rfl
@[simp] theorem State.emptyBuffer_draws (s : State) : s.emptyBuffer.draws = s.draws + 1 := rfl

/-! ### State.putOffer -/

@[simp] theorem State.putOffer_cfg (s : State) (bytes : List Byte) : (s.putOffer bytes).cfg = s.cfg := rfl
@[simp] theorem State.putOffer_aux (s : State) (bytes : List Byte) : (s.putOffer bytes).aux = s.aux := rfl
@[simp] theorem State.putOffer_dlValid (s : State) (bytes : List Byte) : (s.putOffer bytes).dlValid = s.dlValid := rfl
@[simp] theorem State.putOffer_dlTime (s : State) (bytes : List Byte) : (s.putOffer bytes).dlTime = s.dlTime := rfl
@[simp] theorem State.putOffer_buf (s : State) (bytes : List Byte) : (s.putOffer bytes).buf = s.buf := rfl
@[simp] theorem State.putOffer_bufLen (s : State) (bytes : List Byte) : (s.putOffer bytes).bufLen = s.bufLen := rfl
@[simp] theorem State.putOffer_phase (s : State) (bytes : List Byte) : (s.putOffer bytes).phase = .write := rfl
@[simp] theorem State.putOffer_idx (s : State) (bytes : List Byte) : (s.putOffer bytes).idx = s.idx := rfl
@[simp] theorem State.putOffer_j (s : State) (bytes : List Byte) : (s.putOffer bytes).j = s.j := rfl
@[simp] theorem State.putOffer_done (s : State) (bytes : List Byte) : (s.putOffer bytes).done = s.done := rfl
@[simp] theorem State.putOffer_lastSlow (s : State) (bytes : List Byte) : (s.putOffer bytes).lastSlow = s.lastSlow := rfl
@[simp] theorem State.putOffer_now (s : State) (bytes : List Byte) : (s.putOffer bytes).now = s.now := rfl
@[simp] theorem State.putOffer_ticks (s : State) (bytes : List Byte) : (s.putOffer bytes).ticks = s.ticks := rfl
@[simp] theorem State.putOffer_rst (s : State) (bytes : List Byte) : (s.putOffer bytes).rst = s.rst := rfl
@[simp] theorem State.putOffer_requests (s : State) (bytes : List Byte) : (s.putOffer bytes).requests = s.requests := rfl
@[simp] theorem State.putOffer_cur (s : State) (bytes : List Byte) : (s.putOffer bytes).cur = s.cur := rfl
@[simp] theorem State.putOffer_answers (s : State) (bytes : List Byte) : (s.putOffer bytes).answers = s.answers := rfl
@[simp] theorem State.putOffer_offer (s : State) (bytes : List Byte) : (s.putOffer bytes).offer = some ⟨bytes, s.now⟩ := rfl
@[simp] theorem State.putOffer_ans (s : State) (bytes : List Byte) : (s.putOffer bytes).ans = s.ans := rfl
@[simp] theorem State.putOffer_rsp (s : State) (bytes : List Byte) : (s.putOffer bytes).rsp = s.rsp := rfl
@[simp] theorem State.putOffer_rspReady (s : State) (bytes : List Byte) : (s.putOffer bytes).rspReady = s.rspReady := rfl
@[simp] theorem State.putOffer_writes (s : State) (bytes : List Byte) : (s.putOffer bytes).writes = s.writes := rfl
@[simp] theorem State.putOffer_responses (s : State) (bytes : List Byte) : (s.putOffer bytes).responses = s.responses := rfl
@[simp] theorem State.putOffer_draws (s : State) (bytes : List Byte) : (s.putOffer bytes).draws = s.draws := rfl

/-! ### State.takeAnswer -/

@[simp] theorem State.takeAnswer_cfg (s : State) (w : Offer) (a : Answer) (rest : List Answer) (t : Time) : (s.takeAnswer w a rest t).cfg = s.cfg := rfl
@[simp] theorem State.takeAnswer_aux (s : State) (w : Offer) (a : Answer) (rest : List Answer) (t : Time) : (s.takeAnswer w a rest t).aux = s.aux := rfl
@[simp] theorem State.takeAnswer_dlValid (s : State) (w : Offer) (a : Answer) (rest : List Answer) (t : Time) : (s.takeAnswer w a rest t).dlValid = s.dlValid := rfl
@[simp] theorem State.takeAnswer_dlTime (s : State) (w : Offer) (a : Answer) (rest : List Answer) (t : Time) : (s.takeAnswer w a rest t).dlTime = s.dlTime := rfl
@[simp] theorem State.takeAnswer_buf (s : State) (w : Offer) (a : Answer) (rest : List Answer) (t : Time) : (s.takeAnswer w a rest t).buf = s.buf := rfl
@[simp] theorem State.takeAnswer_bufLen (s : State) (w : Offer) (a : Answer) (rest : List Answer) (t : Time) : (s.takeAnswer w a rest t).bufLen = s.bufLen := rfl
@[simp] theorem State.takeAnswer_phase (s : State) (w : Offer) (a : Answer) (rest : List Answer) (t : Time) : (s.takeAnswer w a rest t).phase = s.phase := rfl
@[simp] theorem State.takeAnswer_idx (s : State) (w : Offer) (a : Answer) (rest : List Answer) (t : Time) : (s.takeAnswer w a rest t).idx = s.idx := rfl
@[simp] theorem State.takeAnswer_j (s : State) (w : Offer) (a : Answer) (rest : List Answer) (t : Time) : (s.takeAnswer w a rest t).j = s.j := rfl
@[simp] theorem State.takeAnswer_done (s : State) (w : Offer) (a : Answer) (rest : List Answer) (t : Time) : (s.takeAnswer w a rest t).done = s.done := rfl
@[simp] theorem State.takeAnswer_lastSlow (s : State) (w : Offer) (a : Answer) (rest : List Answer) (t : Time) : (s.takeAnswer w a rest t).lastSlow = s.lastSlow := rfl
@[simp] theorem State.takeAnswer_now (s : State) (w : Offer) (a : Answer) (rest : List Answer) (t : Time) : (s.takeAnswer w a rest t).now = t := rfl
@[simp] theorem State.takeAnswer_ticks (s : State) (w : Offer) (a : Answer) (rest : List Answer) (t : Time) : (s.takeAnswer w a rest t).ticks = s.ticks := rfl
@[simp] theorem State.takeAnswer_rst (s : State) (w : Offer) (a : Answer) (rest : List Answer) (t : Time) : (s.takeAnswer w a rest t).rst = s.rst := rfl
@[simp] theorem State.takeAnswer_requests (s : State) (w : Offer) (a : Answer) (rest : List Answer) (t : Time) : (s.takeAnswer w a rest t).requests = s.requests := rfl
@[simp] theorem State.takeAnswer_cur (s : State) (w : Offer) (a : Answer) (rest : List Answer) (t : Time) : (s.takeAnswer w a rest t).cur = s.cur := rfl
@[simp] theorem State.takeAnswer_answers (s : State) (w : Offer) (a : Answer) (rest : List Answer) (t : Time) : (s.takeAnswer w a rest t).answers = rest := rfl
@[simp] theorem State.takeAnswer_offer (s : State) (w : Offer) (a : Answer) (rest : List Answer) (t : Time) : (s.takeAnswer w a rest t).offer = none := rfl
@[simp] theorem State.takeAnswer_ans (s : State) (w : Offer) (a : Answer) (rest : List Answer) (t : Time) : (s.takeAnswer w a rest t).ans = some a := rfl
@[simp] theorem State.takeAnswer_rsp (s : State) (w : Offer) (a : Answer) (rest : List Answer) (t : Time) : (s.takeAnswer w a rest t).rsp = s.rsp := rfl
@[simp] theorem State.takeAnswer_rspReady (s : State) (w : Offer) (a : Answer) (rest : List Answer) (t : Time) : (s.takeAnswer w a rest t).rspReady = s.rspReady := rfl
@[simp] theorem State.takeAnswer_writes (s : State) (w : Offer) (a : Answer) (rest : List Answer) (t : Time) : (s.takeAnswer w a rest t).writes = s.writes ++ [⟨w.bytes, w.issued, t, a.n, a.fail⟩] := rfl
@[simp] theorem State.takeAnswer_responses (s : State) (w : Offer) (a : Answer) (rest : List Answer) (t : Time) : (s.takeAnswer w a rest t).responses = s.responses := rfl
@[simp] theorem State.takeAnswer_draws (s : State) (w : Offer) (a : Answer) (rest : List Answer) (t : Time) : (s.takeAnswer w a rest t).draws = s.draws := rfl

/-! ### State.release -/

@[simp] theorem State.release_cfg (s : State) (w : RespWord) : (s.release w).cfg = s.cfg := rfl
@[simp] theorem State.release_aux (s : State) (w : RespWord) : (s.release w).aux = s.aux := rfl
@[simp] theorem State.release_dlValid (s : State) (w : RespWord) : (s.release w).dlValid = s.dlValid := rfl
@[simp] theorem State.release_dlTime (s : State) (w : RespWord) : (s.release w).dlTime = s.dlTime := rfl
@[simp] theorem State.release_buf (s : State) (w : RespWord) : (s.release w).buf = s.buf := rfl
@[simp] theorem State.release_bufLen (s : State) (w : RespWord) : (s.release w).bufLen = s.bufLen := rfl
@[simp] theorem State.release_phase (s : State) (w : RespWord) : (s.release w).phase = .ready := rfl
@[simp] theorem State.release_idx (s : State) (w : RespWord) : (s.release w).idx = Config.freeIdx s.draws := rfl
@[simp] theorem State.release_j (s : State) (w : RespWord) : (s.release w).j = Config.freeJ s.draws % (slotCount s.cfg + 1) := rfl
@[simp] theorem State.release_done (s : State) (w : RespWord) : (s.release w).done = Config.freeDone s.draws := rfl
@[simp] theorem State.release_lastSlow (s : State) (w : RespWord) : (s.release w).lastSlow = Config.freeLastSlow s.draws := rfl
@[simp] theorem State.release_now (s : State) (w : RespWord) : (s.release w).now = s.now := rfl
@[simp] theorem State.release_ticks (s : State) (w : RespWord) : (s.release w).ticks = s.ticks := rfl
@[simp] theorem State.release_rst (s : State) (w : RespWord) : (s.release w).rst = s.rst := rfl
@[simp] theorem State.release_requests (s : State) (w : RespWord) : (s.release w).requests = s.requests := rfl
@[simp] theorem State.release_cur (s : State) (w : RespWord) : (s.release w).cur = none := rfl
@[simp] theorem State.release_answers (s : State) (w : RespWord) : (s.release w).answers = s.answers := rfl
@[simp] theorem State.release_offer (s : State) (w : RespWord) : (s.release w).offer = s.offer := rfl
@[simp] theorem State.release_ans (s : State) (w : RespWord) : (s.release w).ans = s.ans := rfl
@[simp] theorem State.release_rsp (s : State) (w : RespWord) : (s.release w).rsp = none := rfl
@[simp] theorem State.release_rspReady (s : State) (w : RespWord) : (s.release w).rspReady = s.rspReady := rfl
@[simp] theorem State.release_writes (s : State) (w : RespWord) : (s.release w).writes = s.writes := rfl
@[simp] theorem State.release_responses (s : State) (w : RespWord) : (s.release w).responses = s.responses ++ [w] := rfl
@[simp] theorem State.release_draws (s : State) (w : RespWord) : (s.release w).draws = s.draws + 1 := rfl

/-! ### State.takeRequest -/

@[simp] theorem State.takeRequest_cfg (s : State) (r : Request) (rest : List Request) (t : Time) : (s.takeRequest r rest t).cfg = s.cfg := rfl
@[simp] theorem State.takeRequest_aux (s : State) (r : Request) (rest : List Request) (t : Time) : (s.takeRequest r rest t).aux = s.aux := rfl
@[simp] theorem State.takeRequest_dlValid (s : State) (r : Request) (rest : List Request) (t : Time) : (s.takeRequest r rest t).dlValid = s.dlValid := rfl
@[simp] theorem State.takeRequest_dlTime (s : State) (r : Request) (rest : List Request) (t : Time) : (s.takeRequest r rest t).dlTime = s.dlTime := rfl
@[simp] theorem State.takeRequest_buf (s : State) (r : Request) (rest : List Request) (t : Time) : (s.takeRequest r rest t).buf = s.buf := rfl
@[simp] theorem State.takeRequest_bufLen (s : State) (r : Request) (rest : List Request) (t : Time) : (s.takeRequest r rest t).bufLen = s.bufLen := rfl
@[simp] theorem State.takeRequest_phase (s : State) (r : Request) (rest : List Request) (t : Time) : (s.takeRequest r rest t).phase = .check := rfl
@[simp] theorem State.takeRequest_idx (s : State) (r : Request) (rest : List Request) (t : Time) : (s.takeRequest r rest t).idx = s.idx := rfl
@[simp] theorem State.takeRequest_j (s : State) (r : Request) (rest : List Request) (t : Time) : (s.takeRequest r rest t).j = s.j := rfl
@[simp] theorem State.takeRequest_done (s : State) (r : Request) (rest : List Request) (t : Time) : (s.takeRequest r rest t).done = s.done := rfl
@[simp] theorem State.takeRequest_lastSlow (s : State) (r : Request) (rest : List Request) (t : Time) : (s.takeRequest r rest t).lastSlow = s.lastSlow := rfl
@[simp] theorem State.takeRequest_now (s : State) (r : Request) (rest : List Request) (t : Time) : (s.takeRequest r rest t).now = t := rfl
@[simp] theorem State.takeRequest_ticks (s : State) (r : Request) (rest : List Request) (t : Time) : (s.takeRequest r rest t).ticks = s.ticks := rfl
@[simp] theorem State.takeRequest_rst (s : State) (r : Request) (rest : List Request) (t : Time) : (s.takeRequest r rest t).rst = s.rst := rfl
@[simp] theorem State.takeRequest_requests (s : State) (r : Request) (rest : List Request) (t : Time) : (s.takeRequest r rest t).requests = rest := rfl
@[simp] theorem State.takeRequest_cur (s : State) (r : Request) (rest : List Request) (t : Time) : (s.takeRequest r rest t).cur = some r := rfl
@[simp] theorem State.takeRequest_answers (s : State) (r : Request) (rest : List Request) (t : Time) : (s.takeRequest r rest t).answers = s.answers := rfl
@[simp] theorem State.takeRequest_offer (s : State) (r : Request) (rest : List Request) (t : Time) : (s.takeRequest r rest t).offer = s.offer := rfl
@[simp] theorem State.takeRequest_ans (s : State) (r : Request) (rest : List Request) (t : Time) : (s.takeRequest r rest t).ans = s.ans := rfl
@[simp] theorem State.takeRequest_rsp (s : State) (r : Request) (rest : List Request) (t : Time) : (s.takeRequest r rest t).rsp = s.rsp := rfl
@[simp] theorem State.takeRequest_rspReady (s : State) (r : Request) (rest : List Request) (t : Time) : (s.takeRequest r rest t).rspReady = s.rspReady := rfl
@[simp] theorem State.takeRequest_writes (s : State) (r : Request) (rest : List Request) (t : Time) : (s.takeRequest r rest t).writes = s.writes := rfl
@[simp] theorem State.takeRequest_responses (s : State) (r : Request) (rest : List Request) (t : Time) : (s.takeRequest r rest t).responses = s.responses := rfl
@[simp] theorem State.takeRequest_draws (s : State) (r : Request) (rest : List Request) (t : Time) : (s.takeRequest r rest t).draws = s.draws := rfl

/-! ### respond -/

@[simp] theorem respond_cfg (s : State) (d : Count) : (respond d s).cfg = s.cfg := rfl
@[simp] theorem respond_aux (s : State) (d : Count) : (respond d s).aux = s.aux := rfl
@[simp] theorem respond_dlValid (s : State) (d : Count) : (respond d s).dlValid = s.dlValid := rfl
@[simp] theorem respond_dlTime (s : State) (d : Count) : (respond d s).dlTime = s.dlTime := rfl
@[simp] theorem respond_buf (s : State) (d : Count) : (respond d s).buf = s.buf := rfl
@[simp] theorem respond_bufLen (s : State) (d : Count) : (respond d s).bufLen = s.bufLen := rfl
@[simp] theorem respond_phase (s : State) (d : Count) : (respond d s).phase = .resp := rfl
@[simp] theorem respond_idx (s : State) (d : Count) : (respond d s).idx = s.idx := rfl
@[simp] theorem respond_j (s : State) (d : Count) : (respond d s).j = s.j := rfl
@[simp] theorem respond_done (s : State) (d : Count) : (respond d s).done = s.done := rfl
@[simp] theorem respond_lastSlow (s : State) (d : Count) : (respond d s).lastSlow = s.lastSlow := rfl
@[simp] theorem respond_now (s : State) (d : Count) : (respond d s).now = s.now := rfl
@[simp] theorem respond_ticks (s : State) (d : Count) : (respond d s).ticks = s.ticks := rfl
@[simp] theorem respond_rst (s : State) (d : Count) : (respond d s).rst = s.rst := rfl
@[simp] theorem respond_requests (s : State) (d : Count) : (respond d s).requests = s.requests := rfl
@[simp] theorem respond_cur (s : State) (d : Count) : (respond d s).cur = s.cur := rfl
@[simp] theorem respond_answers (s : State) (d : Count) : (respond d s).answers = s.answers := rfl
@[simp] theorem respond_offer (s : State) (d : Count) : (respond d s).offer = s.offer := rfl
@[simp] theorem respond_ans (s : State) (d : Count) : (respond d s).ans = s.ans := rfl
@[simp] theorem respond_rsp (s : State) (d : Count) : (respond d s).rsp = some (respWord d .ok) := rfl
@[simp] theorem respond_rspReady (s : State) (d : Count) : (respond d s).rspReady = s.rspReady := rfl
@[simp] theorem respond_writes (s : State) (d : Count) : (respond d s).writes = s.writes := rfl
@[simp] theorem respond_responses (s : State) (d : Count) : (respond d s).responses = s.responses := rfl
@[simp] theorem respond_draws (s : State) (d : Count) : (respond d s).draws = s.draws := rfl

/-! ### raiseErr -/

@[simp] theorem raiseErr_cfg (s : State) (e : Err) (d : Count) : (raiseErr e d s).cfg = s.cfg := rfl
@[simp] theorem raiseErr_aux (s : State) (e : Err) (d : Count) : (raiseErr e d s).aux = s.aux := rfl
@[simp] theorem raiseErr_dlValid (s : State) (e : Err) (d : Count) : (raiseErr e d s).dlValid = s.dlValid := rfl
@[simp] theorem raiseErr_dlTime (s : State) (e : Err) (d : Count) : (raiseErr e d s).dlTime = s.dlTime := rfl
@[simp] theorem raiseErr_buf (s : State) (e : Err) (d : Count) : (raiseErr e d s).buf = s.buf := rfl
@[simp] theorem raiseErr_bufLen (s : State) (e : Err) (d : Count) : (raiseErr e d s).bufLen = s.bufLen := rfl
@[simp] theorem raiseErr_phase (s : State) (e : Err) (d : Count) : (raiseErr e d s).phase = .resp := rfl
@[simp] theorem raiseErr_idx (s : State) (e : Err) (d : Count) : (raiseErr e d s).idx = s.idx := rfl
@[simp] theorem raiseErr_j (s : State) (e : Err) (d : Count) : (raiseErr e d s).j = s.j := rfl
@[simp] theorem raiseErr_done (s : State) (e : Err) (d : Count) : (raiseErr e d s).done = s.done := rfl
@[simp] theorem raiseErr_lastSlow (s : State) (e : Err) (d : Count) : (raiseErr e d s).lastSlow = s.lastSlow := rfl
@[simp] theorem raiseErr_now (s : State) (e : Err) (d : Count) : (raiseErr e d s).now = s.now := rfl
@[simp] theorem raiseErr_ticks (s : State) (e : Err) (d : Count) : (raiseErr e d s).ticks = s.ticks := rfl
@[simp] theorem raiseErr_rst (s : State) (e : Err) (d : Count) : (raiseErr e d s).rst = s.rst := rfl
@[simp] theorem raiseErr_requests (s : State) (e : Err) (d : Count) : (raiseErr e d s).requests = s.requests := rfl
@[simp] theorem raiseErr_cur (s : State) (e : Err) (d : Count) : (raiseErr e d s).cur = s.cur := rfl
@[simp] theorem raiseErr_answers (s : State) (e : Err) (d : Count) : (raiseErr e d s).answers = s.answers := rfl
@[simp] theorem raiseErr_offer (s : State) (e : Err) (d : Count) : (raiseErr e d s).offer = s.offer := rfl
@[simp] theorem raiseErr_ans (s : State) (e : Err) (d : Count) : (raiseErr e d s).ans = s.ans := rfl
@[simp] theorem raiseErr_rsp (s : State) (e : Err) (d : Count) : (raiseErr e d s).rsp = some (respWord d e) := rfl
@[simp] theorem raiseErr_rspReady (s : State) (e : Err) (d : Count) : (raiseErr e d s).rspReady = s.rspReady := rfl
@[simp] theorem raiseErr_writes (s : State) (e : Err) (d : Count) : (raiseErr e d s).writes = s.writes := rfl
@[simp] theorem raiseErr_responses (s : State) (e : Err) (d : Count) : (raiseErr e d s).responses = s.responses := rfl
@[simp] theorem raiseErr_draws (s : State) (e : Err) (d : Count) : (raiseErr e d s).draws = s.draws := rfl

/-! ### resetBlock -/

@[simp] theorem resetBlock_cfg (s : State) : (resetBlock s).cfg = s.cfg := rfl
@[simp] theorem resetBlock_aux (s : State) : (resetBlock s).aux = 0 := rfl
@[simp] theorem resetBlock_dlValid (s : State) : (resetBlock s).dlValid = false := rfl
@[simp] theorem resetBlock_dlTime (s : State) : (resetBlock s).dlTime = 0 := rfl
@[simp] theorem resetBlock_buf (s : State) : (resetBlock s).buf = [] := rfl
@[simp] theorem resetBlock_bufLen (s : State) : (resetBlock s).bufLen = 0 := rfl
@[simp] theorem resetBlock_phase (s : State) : (resetBlock s).phase = .ready := rfl
@[simp] theorem resetBlock_idx (s : State) : (resetBlock s).idx = 0 := rfl
@[simp] theorem resetBlock_j (s : State) : (resetBlock s).j = 0 := rfl
@[simp] theorem resetBlock_done (s : State) : (resetBlock s).done = 0 := rfl
@[simp] theorem resetBlock_lastSlow (s : State) : (resetBlock s).lastSlow = false := rfl
@[simp] theorem resetBlock_now (s : State) : (resetBlock s).now = s.now := rfl
@[simp] theorem resetBlock_ticks (s : State) : (resetBlock s).ticks = s.ticks := rfl
@[simp] theorem resetBlock_rst (s : State) : (resetBlock s).rst = s.rst := rfl
@[simp] theorem resetBlock_requests (s : State) : (resetBlock s).requests = s.requests := rfl
@[simp] theorem resetBlock_cur (s : State) : (resetBlock s).cur = s.cur := rfl
@[simp] theorem resetBlock_answers (s : State) : (resetBlock s).answers = s.answers := rfl
@[simp] theorem resetBlock_offer (s : State) : (resetBlock s).offer = s.offer := rfl
@[simp] theorem resetBlock_ans (s : State) : (resetBlock s).ans = s.ans := rfl
@[simp] theorem resetBlock_rsp (s : State) : (resetBlock s).rsp = s.rsp := rfl
@[simp] theorem resetBlock_rspReady (s : State) : (resetBlock s).rspReady = s.rspReady := rfl
@[simp] theorem resetBlock_writes (s : State) : (resetBlock s).writes = s.writes := rfl
@[simp] theorem resetBlock_responses (s : State) : (resetBlock s).responses = s.responses := rfl
@[simp] theorem resetBlock_draws (s : State) : (resetBlock s).draws = s.draws := rfl

/-! ### startBatch -/

@[simp] theorem startBatch_cfg (s : State) : (startBatch s).cfg = s.cfg := by
  unfold startBatch; split <;> rfl
@[simp] theorem startBatch_aux (s : State) : (startBatch s).aux = s.aux := by
  unfold startBatch; split <;> rfl
@[simp] theorem startBatch_dlValid (s : State) : (startBatch s).dlValid = s.dlValid := by
  unfold startBatch; split <;> rfl
@[simp] theorem startBatch_dlTime (s : State) : (startBatch s).dlTime = s.dlTime := by
  unfold startBatch; split <;> rfl
@[simp] theorem startBatch_buf (s : State) : (startBatch s).buf = s.buf := by
  unfold startBatch; split <;> rfl
@[simp] theorem startBatch_bufLen (s : State) : (startBatch s).bufLen = s.bufLen := by
  unfold startBatch; split <;> rfl
@[simp] theorem startBatch_phase (s : State) : (startBatch s).phase = s.phase := by
  unfold startBatch; split <;> rfl
@[simp] theorem startBatch_idx (s : State) : (startBatch s).idx = s.idx := by
  unfold startBatch; split <;> rfl
@[simp] theorem startBatch_done (s : State) : (startBatch s).done = s.done := by
  unfold startBatch; split <;> rfl
@[simp] theorem startBatch_lastSlow (s : State) : (startBatch s).lastSlow = s.lastSlow := by
  unfold startBatch; split <;> rfl
@[simp] theorem startBatch_now (s : State) : (startBatch s).now = s.now := by
  unfold startBatch; split <;> rfl
@[simp] theorem startBatch_ticks (s : State) : (startBatch s).ticks = s.ticks := by
  unfold startBatch; split <;> rfl
@[simp] theorem startBatch_rst (s : State) : (startBatch s).rst = s.rst := by
  unfold startBatch; split <;> rfl
@[simp] theorem startBatch_requests (s : State) : (startBatch s).requests = s.requests := by
  unfold startBatch; split <;> rfl
@[simp] theorem startBatch_cur (s : State) : (startBatch s).cur = s.cur := by
  unfold startBatch; split <;> rfl
@[simp] theorem startBatch_answers (s : State) : (startBatch s).answers = s.answers := by
  unfold startBatch; split <;> rfl
@[simp] theorem startBatch_offer (s : State) : (startBatch s).offer = s.offer := by
  unfold startBatch; split <;> rfl
@[simp] theorem startBatch_ans (s : State) : (startBatch s).ans = s.ans := by
  unfold startBatch; split <;> rfl
@[simp] theorem startBatch_rsp (s : State) : (startBatch s).rsp = s.rsp := by
  unfold startBatch; split <;> rfl
@[simp] theorem startBatch_rspReady (s : State) : (startBatch s).rspReady = s.rspReady := by
  unfold startBatch; split <;> rfl
@[simp] theorem startBatch_writes (s : State) : (startBatch s).writes = s.writes := by
  unfold startBatch; split <;> rfl
@[simp] theorem startBatch_responses (s : State) : (startBatch s).responses = s.responses := by
  unfold startBatch; split <;> rfl
@[simp] theorem startBatch_draws (s : State) : (startBatch s).draws = s.draws := by
  unfold startBatch; split <;> rfl

end Sys2Proof.Machine
end

