-- ==== Sys2Proof/Laws/Ops.lean ====
section
/-! SUPPORT. What each shared operation of Machine/Ops.lean can do, said once. -/

namespace Sys2Proof.Machine

/-! ### Sequence -/

@[simp] theorem Flow.go_andThen (s : State) (f : State → Flow) : (Flow.go s).andThen f = f s := rfl
@[simp] theorem Flow.stop_andThen (s : State) (f : State → Flow) : (Flow.stop s).andThen f = .stop s := rfl
@[simp] theorem Flow.fault_andThen (r : Fault) (f : State → Flow) : (Flow.fault r).andThen f = .fault r := rfl
@[simp] theorem Flow.refuse_andThen (r : Refusal) (f : State → Flow) : (Flow.refuse r).andThen f = .refuse r := rfl
@[simp] theorem Flow.go_outcome (s : State) : (Flow.go s).outcome = .next s := rfl
@[simp] theorem Flow.stop_outcome (s : State) : (Flow.stop s).outcome = .next s := rfl
@[simp] theorem Flow.fault_outcome (r : Fault) : (Flow.fault r).outcome = .fault r := rfl
@[simp] theorem Flow.refuse_outcome (r : Refusal) : (Flow.refuse r).outcome = .refused r := rfl

theorem Flow.andThen_assoc (m : Flow) (f g : State → Flow) :
    (m.andThen f).andThen g = m.andThen fun s => (f s).andThen g := by
  cases m <;> rfl

/-- A sequence goes on only through both of its parts. -/
theorem Flow.andThen_eq_go {m : Flow} {f : State → Flow} {t : State} (h : m.andThen f = .go t) :
    ∃ u, m = .go u ∧ f u = .go t := by
  cases m <;> simp_all

/-- A sequence stops in its first part or in its second. -/
theorem Flow.andThen_eq_stop {m : Flow} {f : State → Flow} {t : State} (h : m.andThen f = .stop t) :
    m = .stop t ∨ ∃ u, m = .go u ∧ f u = .stop t := by
  cases m <;> simp_all

/-- A sequence faults in its first part or in its second. -/
theorem Flow.andThen_eq_fault {m : Flow} {f : State → Flow} {r : Fault} (h : m.andThen f = .fault r) :
    m = .fault r ∨ ∃ u, m = .go u ∧ f u = .fault r := by
  cases m <;> simp_all

/-- An operation answers a next state exactly when its last stretch goes on or stops there. -/
theorem Flow.outcome_eq_next {m : Flow} {t : State} : m.outcome = .next t ↔ m = .go t ∨ m = .stop t := by
  cases m <;> simp

theorem Flow.outcome_eq_fault {m : Flow} {r : Fault} : m.outcome = .fault r ↔ m = .fault r := by
  cases m <;> simp

/-! ### Time -/

theorem advance_eq_some {now t : Time} {d : Nat} :
    advance now d = some t ↔ now.toNat + d < 2 ^ 64 ∧ t.toNat = now.toNat + d := by
  unfold advance
  split
  · rename_i h
    rw [Option.some.injEq]
    constructor
    · rintro rfl; exact ⟨h, by rw [BitVec.toNat_ofNat, Nat.mod_eq_of_lt h]⟩
    · rintro ⟨-, ht⟩; apply BitVec.eq_of_toNat_eq; rw [BitVec.toNat_ofNat, Nat.mod_eq_of_lt h, ht]
  · rename_i h
    exact ⟨fun hn => by simp at hn, fun ht => absurd ht.1 h⟩

theorem advance_le {now t : Time} {d : Nat} (h : advance now d = some t) : now.toNat ≤ t.toNat := by
  rw [(advance_eq_some.1 h).2]; omega

/-! ### The buffer -/

/-- All that `MemWrite` can do. -/
theorem storeBytes_cases (i : Nat) (bytes : List Byte) (s : State) :
    (i + bytes.length ≤ s.cfg.bufCap ∧
      storeBytes i bytes s = .go { s with buf := Memory.writeBytes s.buf i bytes }) ∨
    (s.cfg.bufCap < i + bytes.length ∧ storeBytes i bytes s = .fault .bufferIndex) := by
  unfold storeBytes
  split
  · exact .inl ⟨‹_›, rfl⟩
  · exact .inr ⟨by omega, rfl⟩

theorem storeBytes_go {i : Nat} {bytes : List Byte} {s : State} (h : i + bytes.length ≤ s.cfg.bufCap) :
    storeBytes i bytes s = .go { s with buf := Memory.writeBytes s.buf i bytes } := by
  simp [storeBytes, h]

/-! ### The channel -/

/-- All that issuing the write of the buffer does. -/
@[simp] theorem offerBuffer_eq (s : State) : offerBuffer s = .go (s.putOffer (Memory.readBytes s.buf 0 s.bufLen)) := rfl

/-- All that waiting for the channel's answer can do. -/
theorem awaitAnswer_cases (s : State) :
    (∃ w a rest t, s.offer = some w ∧ s.answers = a :: rest ∧ a.n ≤ w.bytes.length ∧ advance s.now a.after = some t ∧
      awaitAnswer s = .go (s.takeAnswer w a rest t)) ∨
    ((s.offer = none ∨ s.answers = []) ∧ awaitAnswer s = .stop s) ∨
    (∃ w a rest, s.offer = some w ∧ s.answers = a :: rest ∧ a.n ≤ w.bytes.length ∧ advance s.now a.after = none ∧
      awaitAnswer s = .refuse .timeOverflow) ∨
    (∃ w a rest, s.offer = some w ∧ s.answers = a :: rest ∧ w.bytes.length < a.n ∧
      awaitAnswer s = .refuse .channelOverrun) := by
  unfold awaitAnswer
  split
  · rename_i w a rest ho ha
    split
    · rename_i hn
      split
      · exact .inl ⟨w, a, rest, _, ho, ha, hn, ‹_›, rfl⟩
      · exact .inr (.inr (.inl ⟨w, a, rest, ho, ha, hn, ‹_›, rfl⟩))
    · exact .inr (.inr (.inr ⟨w, a, rest, ho, ha, by omega, rfl⟩))
  · rename_i h
    refine .inr (.inl ⟨?_, rfl⟩)
    cases ho : s.offer with
    | none => exact .inl rfl
    | some w =>
      cases ha : s.answers with
      | nil => exact .inr rfl
      | cons a rest => exact absurd ha (h w a rest ho)

theorem awaitAnswer_go {s : State} {w : Offer} {a : Answer} {rest : List Answer} {t : Time} (ho : s.offer = some w)
    (ha : s.answers = a :: rest) (hn : a.n ≤ w.bytes.length) (ht : advance s.now a.after = some t) :
    awaitAnswer s = .go (s.takeAnswer w a rest t) := by
  simp [awaitAnswer, ho, ha, hn, ht]

theorem awaitAnswer_held {s : State} (h : s.answers = []) : awaitAnswer s = .stop s := by
  unfold awaitAnswer
  split <;> simp_all

/-- If the answer is received, it is the head of the script. -/
theorem awaitAnswer_eq_go {s t : State} (h : awaitAnswer s = .go t) :
    ∃ w a rest u, s.offer = some w ∧ s.answers = a :: rest ∧ a.n ≤ w.bytes.length ∧ advance s.now a.after = some u ∧
      t = s.takeAnswer w a rest u := by
  rcases awaitAnswer_cases s with ⟨w, a, rest, u, h1, h2, h3, h4, h5⟩ | ⟨-, h5⟩ | ⟨_, _, _, _, _, _, _, h5⟩ |
    ⟨_, _, _, _, _, _, h5⟩ <;> rw [h5] at h <;> simp at h
  exact ⟨w, a, rest, u, h1, h2, h3, h4, h.symm⟩

/-- If the block is suspended, nothing changed and there is no answer (or no write). -/
theorem awaitAnswer_eq_stop {s t : State} (h : awaitAnswer s = .stop t) :
    t = s ∧ (s.offer = none ∨ s.answers = []) := by
  rcases awaitAnswer_cases s with ⟨_, _, _, _, _, _, _, _, h5⟩ | ⟨h1, h5⟩ | ⟨_, _, _, _, _, _, _, h5⟩ |
    ⟨_, _, _, _, _, _, h5⟩ <;> rw [h5] at h <;> simp at h
  exact ⟨h.symm, h1⟩

theorem awaitAnswer_ne_fault {s : State} {r : Fault} : awaitAnswer s ≠ .fault r := by
  rcases awaitAnswer_cases s with ⟨_, _, _, _, _, _, _, _, h5⟩ | ⟨_, h5⟩ | ⟨_, _, _, _, _, _, _, h5⟩ |
    ⟨_, _, _, _, _, _, h5⟩ <;> rw [h5] <;> simp

/-! ### Starting and ending an operation -/

theorem beginOp_go {s : State} (h : cfgOk s.cfg = true) : beginOp s = .go (s.toPhase .check) := by
  simp [beginOp, h]

theorem beginOp_refuse {s : State} (h : cfgOk s.cfg = false) : beginOp s = .refuse .badConfig := by
  simp [beginOp, h]

theorem takeResponse_ready {s : State} {w : RespWord} (h : s.rsp = some w) (hr : s.rspReady = true) :
    takeResponse s = s.release w := by
  simp [takeResponse, h, hr]

/-- All that the return to `READY` can do. -/
theorem takeResponse_cases (s : State) :
    (∃ w, s.rsp = some w ∧ s.rspReady = true ∧ takeResponse s = s.release w) ∨
    ((s.rsp = none ∨ s.rspReady = false) ∧ takeResponse s = s) := by
  cases hw : s.rsp with
  | none => exact .inr ⟨.inl rfl, by simp [takeResponse, hw]⟩
  | some w =>
    cases hr : s.rspReady with
    | true => exact .inl ⟨w, rfl, rfl, takeResponse_ready hw hr⟩
    | false => exact .inr ⟨.inr rfl, by simp [takeResponse, hw, hr]⟩

end Sys2Proof.Machine
end

