-- ==== Sys2Proof/Laws/Flags.lean ====
section
/-! SUPPORT. What the timing scheduler's operations can do, said once. -/

namespace Sys2Proof.Machine

/-! ### hold -/

/-- A hold that ends, ends at or after its target, at or after its start; it has used up draws, and these are the time that
passed. -/
theorem hold_over {target now t : Time} {ds ts : List Nat} (h : hold target now ds = .over t ts) :
    target.toNat ≤ t.toNat ∧ now.toNat ≤ t.toNat ∧ ∃ pre, ds = pre ++ ts ∧ t.toNat = now.toNat + pre.sum := by
  induction ds generalizing now with
  | nil =>
    simp only [hold] at h
    split at h
    · simp only [Hold.over.injEq] at h
      obtain ⟨rfl, rfl⟩ := h
      exact ⟨by rename_i hle; exact hle, Nat.le_refl _, [], rfl, rfl⟩
    · simp at h
  | cons d ds ih =>
    simp only [hold] at h
    split at h
    · rename_i u hu
      have hle := advance_le hu
      have hsum := (advance_eq_some.1 hu).2
      split at h
      · simp only [Hold.over.injEq] at h
        obtain ⟨rfl, rfl⟩ := h
        exact ⟨by rename_i hle; exact hle, hle, [d], rfl, by simp [hsum]⟩
      · obtain ⟨h1, h2, pre, h3, h4⟩ := ih h
        exact ⟨h1, Nat.le_trans hle h2, d :: pre, by simp [h3], by rw [h4, hsum, List.sum_cons]; omega⟩
    · simp at h

/-- A hold that does not end has used up the draws and is short of its target. -/
theorem hold_held {target now t : Time} {ds : List Nat} (h : hold target now ds = .held t) :
    t.toNat < target.toNat ∧ now.toNat ≤ t.toNat := by
  induction ds generalizing now with
  | nil =>
    simp only [hold] at h
    split at h
    · simp at h
    · rename_i hlt
      simp only [Hold.held.injEq] at h
      subst h
      exact ⟨by simpa [BitVec.le_def] using hlt, Nat.le_refl _⟩
  | cons d ds ih =>
    simp only [hold] at h
    split at h
    · rename_i u hu
      have hle := advance_le hu
      split at h
      · simp at h
      · obtain ⟨h1, h2⟩ := ih h
        exact ⟨h1, Nat.le_trans hle h2⟩
    · simp at h

/-- With target 0 nothing is held. -/
theorem hold_zero_ne_held {now t : Time} {ds : List Nat} : hold 0 now ds ≠ .held t := by
  intro h
  have := (hold_held h).1
  simp at this

/-- One draw that reaches the target ends the hold. -/
theorem hold_first {target now t : Time} {d : Nat} {ds : List Nat} (ht : advance now d = some t)
    (h : target.toNat ≤ t.toNat) : hold target now (d :: ds) = .over t ds := by
  simp only [hold, ht]
  exact if_pos h

/-! ### WaitDeadline -/

/-- All that `WaitDeadline` can do. -/
theorem waitDeadline_cases (s : State) :
    (∃ t ts, hold s.holdTarget s.now s.ticks = .over t ts ∧ s.dlValid = true ∧
      waitDeadline s = .go ((s.toPhase .wait).passTo t ts).clearDeadline) ∨
    (∃ t ts, hold s.holdTarget s.now s.ticks = .over t ts ∧ s.dlValid = false ∧
      waitDeadline s = .go ((s.toPhase .wait).passTo t ts)) ∨
    (∃ t, hold s.holdTarget s.now s.ticks = .held t ∧ s.dlValid = true ∧
      waitDeadline s = .stop ((s.toPhase .wait).passTo t [])) ∨
    (hold s.holdTarget s.now s.ticks = .wrapped ∧ waitDeadline s = .refuse .timeOverflow) := by
  unfold waitDeadline
  split
  · rename_i t ts h
    cases hv : s.dlValid with
    | true => exact .inl ⟨t, ts, by simpa using h, rfl, by simp⟩
    | false => exact .inr (.inl ⟨t, ts, by simpa using h, rfl, by simp⟩)
  · rename_i t h
    refine .inr (.inr (.inl ⟨t, h, ?_, rfl⟩))
    cases hv : s.dlValid with
    | true => rfl
    | false => exact absurd h (by simpa [State.holdTarget, hv] using hold_zero_ne_held)
  · exact .inr (.inr (.inr ⟨by assumption, rfl⟩))

/-- After `WaitDeadline` the scheduler is Idle, the deadline has passed, and nothing but the clock and the scheduler
changed. -/
theorem waitDeadline_eq_go {s t : State} (h : waitDeadline s = .go t) :
    t.dlValid = false ∧ s.now.toNat ≤ t.now.toNat ∧ (s.dlValid = true → s.dlTime.toNat ≤ t.now.toNat) ∧
    ∃ dt n, t = { s with phase := .wait, now := t.now, ticks := t.ticks, dlValid := false, dlTime := dt, draws := n } := by
  rcases waitDeadline_cases s with ⟨u, ts, h1, h2, h3⟩ | ⟨u, ts, h1, h2, h3⟩ | ⟨u, h1, h2, h3⟩ | ⟨h1, h3⟩ <;>
    rw [h3] at h <;> simp only [Flow.go.injEq, reduceCtorEq] at h <;> subst h
  · obtain ⟨a, b, -⟩ := hold_over h1
    refine ⟨rfl, b, fun _ => by simpa [State.holdTarget, h2] using a, _, _, rfl⟩
  · obtain ⟨a, b, -⟩ := hold_over h1
    refine ⟨by simp [h2], b, fun hv => by simp [h2] at hv, s.dlTime, s.draws, ?_⟩
    simp [State.toPhase, State.passTo, ← h2]

/-- If `WaitDeadline` holds the block, it is Armed and the deadline has not come; only the clock moved. -/
theorem waitDeadline_eq_stop {s t : State} (h : waitDeadline s = .stop t) :
    s.dlValid = true ∧ t.now.toNat < s.dlTime.toNat ∧ s.now.toNat ≤ t.now.toNat ∧
    t = { s with phase := .wait, now := t.now, ticks := [] } := by
  rcases waitDeadline_cases s with ⟨u, ts, h1, h2, h3⟩ | ⟨u, ts, h1, h2, h3⟩ | ⟨u, h1, h2, h3⟩ | ⟨h1, h3⟩ <;>
    rw [h3] at h <;> simp only [Flow.stop.injEq, reduceCtorEq] at h
  subst h
  obtain ⟨a, b⟩ := hold_held h1
  exact ⟨h2, by simpa [State.holdTarget, h2] using a, b, rfl⟩

theorem waitDeadline_ne_fault {s : State} {r : Fault} : waitDeadline s ≠ .fault r := by
  rcases waitDeadline_cases s with ⟨_, _, _, _, h⟩ | ⟨_, _, _, _, h⟩ | ⟨_, _, _, h⟩ | ⟨_, h⟩ <;> rw [h] <;> simp

/-! ### Arm -/

/-- All that `Arm` can do. -/
theorem arm_cases (settle : Time) (s : State) :
    (∃ t, s.now.toNat + settle.toNat < 2 ^ 64 ∧ t.toNat = s.now.toNat + settle.toNat ∧
      arm settle s = .go (s.setDeadline t)) ∨
    (2 ^ 64 ≤ s.now.toNat + settle.toNat ∧ arm settle s = .refuse .timeOverflow) := by
  unfold arm
  split
  · rename_i t ht
    obtain ⟨h1, h2⟩ := advance_eq_some.1 ht
    exact .inl ⟨t, h1, h2, rfl⟩
  · rename_i hn
    refine .inr ⟨?_, rfl⟩
    unfold advance at hn
    split at hn
    · simp at hn
    · omega

/-- If `if b: Arm(T)` goes on, it armed `now + T` or left the state alone. -/
theorem armIf_eq_go {b : Bool} {settle : Time} {s t : State} (h : armIf b settle s = .go t) :
    (b = true ∧ ∃ u, s.now.toNat + settle.toNat < 2 ^ 64 ∧ u.toNat = s.now.toNat + settle.toNat ∧
      t = s.setDeadline u) ∨ (b = false ∧ t = s) := by
  cases b with
  | false => exact .inr ⟨rfl, by simpa [armIf] using h.symm⟩
  | true =>
    refine .inl ⟨rfl, ?_⟩
    simp only [armIf, if_true] at h
    rcases arm_cases settle s with ⟨u, h1, h2, h3⟩ | ⟨-, h3⟩ <;> rw [h3] at h <;> simp at h
    exact ⟨u, h1, h2, h.symm⟩

/-- `if b: Arm(T)` goes on or is refused. -/
theorem armIf_cases (b : Bool) (settle : Time) (s : State) :
    (∃ t, armIf b settle s = .go t) ∨ armIf b settle s = .refuse .timeOverflow := by
  cases b with
  | false => exact .inl ⟨s, rfl⟩
  | true =>
    simp only [armIf, if_true]
    rcases arm_cases settle s with ⟨u, -, -, h3⟩ | ⟨-, h3⟩
    · exact .inl ⟨_, h3⟩
    · exact .inr h3

/-! ### Classification -/

theorem cmdval_toNat (dh dl : Byte) : (cmdval dh dl).toNat = dh.toNat % 16 * 16 + dl.toNat % 16 := by
  have h1 : (dh.extractLsb' 0 4).toNat = dh.toNat % 16 := by simp [BitVec.extractLsb'_toNat]
  have h2 : (dl.extractLsb' 0 4).toNat = dl.toNat % 16 := by simp [BitVec.extractLsb'_toNat]
  unfold cmdval
  rw [BitVec.toNat_append, h1, h2, ← Nat.shiftLeft_add_eq_or_of_lt (by omega), Nat.shiftLeft_eq]

end Sys2Proof.Machine
end

