-- ==== Sys2Proof/Laws/Operands.lean ====
section
/-! SUPPORT. The pin mapping, the frame encoder and the stream: lengths, bits, and how elements make commands. -/

namespace Sys2Proof.Machine

/-! ### The configuration -/

/-- What `CFG_OK` says (R8). -/
theorem cfgOk_iff (c : Cfg) : cfgOk c = true ↔
    4 ≤ c.eBit.toNat ∧ 4 ≤ c.rwBit.toNat ∧ 4 ≤ c.auxBit.toNat ∧ c.eBit ≠ c.rwBit ∧ c.eBit ≠ c.auxBit ∧
      c.rwBit ≠ c.auxBit ∧ 6 ≤ c.bufCap ∧ slotSize c ≤ c.bufCap := by
  unfold cfgOk slotSize
  cases c.mode with
  | direct =>
    simp only [Bool.and_eq_true, decide_eq_true_eq, and_assoc, Bool.and_true]
    tauto
  | batched => simp only [Bool.and_eq_true, decide_eq_true_eq, and_assoc]

theorem slotSize_pos (c : Cfg) : 6 ≤ slotSize c := by
  unfold slotSize; cases c.mode <;> simp

theorem slotSize_direct {c : Cfg} (h : c.mode = .direct) : slotSize c = 6 := by simp [slotSize, h]

theorem slotSize_batched {c : Cfg} (h : c.mode = .batched) : slotSize c = 6 + c.fill.toNat := by simp [slotSize, h]

/-- `NS >= 1` (R7). -/
theorem slotCount_pos {c : Cfg} (h : cfgOk c = true) : 1 ≤ slotCount c := by
  have := ((cfgOk_iff c).1 h).2.2.2.2.2.2.2
  exact (Nat.one_le_div_iff (by have := slotSize_pos c; omega)).2 this

/-- Slots up to `NS` fit in the buffer (R125). -/
theorem slots_fit (c : Cfg) {n : Nat} (h : n ≤ slotCount c) : n * slotSize c ≤ c.bufCap :=
  Nat.le_trans (Nat.mul_le_mul_right _ h) (Nat.div_mul_le_self _ _)

/-- The three masks have one bit each, in 7:4, and share none. -/
theorem masks_of_cfgOk {c : Cfg} (h : cfgOk c = true) :
    eMask c &&& rwMask c = 0 ∧ eMask c &&& auxMask c = 0 ∧ rwMask c &&& auxMask c = 0 ∧
      eMask c &&& 0x0F#8 = 0 ∧ rwMask c &&& 0x0F#8 = 0 ∧ auxMask c &&& 0x0F#8 = 0 ∧ eMask c ≠ 0 := by
  obtain ⟨he, hr, ha, her, hea, hra, -, -⟩ := (cfgOk_iff c).1 h
  have key : ∀ e r a : BitVec 3, 4 ≤ e.toNat → 4 ≤ r.toNat → 4 ≤ a.toNat → e ≠ r → e ≠ a → r ≠ a →
      (1#8 <<< e.toNat) &&& (1#8 <<< r.toNat) = 0 ∧ (1#8 <<< e.toNat) &&& (1#8 <<< a.toNat) = 0 ∧
      (1#8 <<< r.toNat) &&& (1#8 <<< a.toNat) = 0 ∧ (1#8 <<< e.toNat) &&& 0x0F#8 = 0 ∧
      (1#8 <<< r.toNat) &&& 0x0F#8 = 0 ∧ (1#8 <<< a.toNat) &&& 0x0F#8 = 0 ∧ (1#8 <<< e.toNat) ≠ 0 := by
    decide
  exact key _ _ _ he hr ha her hea hra

/-! ### Lengths -/

@[simp] theorem frame_length (c : Cfg) (d a : Byte) : (frame c d a).length = 3 := rfl

@[simp] theorem record_length (c : Cfg) (dh dl a : Byte) : (record c dh dl a).length = 6 := rfl

@[simp] theorem slot_length (c : Cfg) (dh dl a : Byte) : (slot c dh dl a).length = 6 + c.fill.toNat := by
  simp [slot, fillers]

@[simp] theorem unitBytes_length (c : Cfg) (a : Byte) (u : Cmd) : (unitBytes c a u).length = slotSize c := by
  unfold unitBytes slotSize; cases c.mode <;> simp

@[simp] theorem writeBytes_length (c : Cfg) (a : Byte) (us : List Cmd) :
    (writeBytes c a us).length = us.length * slotSize c := by
  induction us with
  | nil => simp [writeBytes]
  | cons u us ih =>
    simp only [writeBytes, List.flatMap_cons, List.length_append, List.length_cons, unitBytes_length] at ih ⊢
    rw [ih, Nat.add_mul, Nat.one_mul, Nat.add_comm]

theorem writeBytes_append (c : Cfg) (a : Byte) (us vs : List Cmd) :
    writeBytes c a (us ++ vs) = writeBytes c a us ++ writeBytes c a vs := by
  simp [writeBytes]

@[simp] theorem writeBytes_singleton (c : Cfg) (a : Byte) (u : Cmd) : writeBytes c a [u] = unitBytes c a u := by
  simp [writeBytes]

/-! ### Elements and commands -/

theorem element_eq_some {s : State} {len i : Nat} {d : Byte} :
    s.element len i = some d ↔ i < len ∧ ∃ r, s.cur = some r ∧ r.stream[i]? = some d := by
  unfold State.element
  split
  · rename_i h
    cases hc : s.cur with
    | none => simp
    | some r => simp [h]
  · rename_i h; simp [h]

theorem commands_length (l : List Byte) : (commands l).length = l.length / 2 := by
  induction l using commands.induct with
  | case1 dh dl rest ih => simp only [commands, List.length_cons, ih]; omega
  | case2 l h =>
    match l, h with
    | [], _ => rfl
    | [_], _ => simp [commands]
    | a :: b :: rest, h => exact absurd rfl (h a b rest)

/-- Command `k` is made of elements `2k` and `2k+1`. -/
theorem commands_getElem? (l : List Byte) (k : Nat) :
    (commands l)[k]? = (match l[2 * k]?, l[2 * k + 1]? with
      | some dh, some dl => some (dh, dl)
      | _, _ => none) := by
  induction l using commands.induct generalizing k with
  | case1 dh dl rest ih =>
    cases k with
    | zero => rfl
    | succ k =>
      rw [show 2 * (k + 1) = 2 * k + 1 + 1 by omega]
      simp only [commands, List.getElem?_cons_succ]
      exact ih k
  | case2 l h =>
    match l, h with
    | [], _ => simp [commands]
    | [b], _ =>
      rw [show (2 * k + 1) = (2 * k) + 1 by omega]
      simp [commands]
    | a :: b :: rest, h => exact absurd rfl (h a b rest)

theorem commands_drop (l : List Byte) (k : Nat) : commands (l.drop (2 * k)) = (commands l).drop k := by
  induction k generalizing l with
  | zero => simp
  | succ k ih =>
    match l with
    | [] => simp [commands]
    | [b] => rw [show 2 * (k + 1) = 2 * k + 1 + 1 by omega]; simp [commands]
    | a :: b :: rest =>
      rw [show 2 * (k + 1) = 2 * k + 1 + 1 by omega]
      simp only [List.drop_succ_cons, commands]
      exact ih rest

/-! ### The low nibble passes through a frame -/

theorem legalAux_low {c : Cfg} {a : Byte} (h : cfgOk c = true) (ha : a &&& ~~~(rwMask c ||| auxMask c) = 0) :
    a.toNat % 16 = 0 := by
  obtain ⟨-, -, -, -, hr, hx, -⟩ := masks_of_cfgOk h
  have h1 : a &&& 0x0F#8 = 0 := by
    have key : ∀ x m n : Byte, x &&& ~~~(m ||| n) = 0 → m &&& 0x0F#8 = 0 → n &&& 0x0F#8 = 0 → x &&& 0x0F#8 = 0 := by
      intro x m n h1 h2 h3
      ext i hi
      have e1 := congrArg (fun v => v.getLsbD i) h1
      have e2 := congrArg (fun v => v.getLsbD i) h2
      have e3 := congrArg (fun v => v.getLsbD i) h3
      simp [hi] at e1 e2 e3 ⊢
      cases hx : x[i] <;> cases hm : m[i] <;> cases hn : n[i] <;> simp_all
    exact key a _ _ ha hr hx
  have h2 : (a &&& 0x0F#8).toNat = a.toNat % 16 := by
    rw [BitVec.toNat_and]; exact Nat.and_two_pow_sub_one_eq_mod a.toNat 4
  rw [← h2, h1]; rfl

theorem or_low (d a : Byte) (ha : a.toNat % 16 = 0) : (d ||| a).toNat % 16 = d.toNat % 16 := by
  rw [BitVec.toNat_or]
  have := Nat.or_mod_two_pow (a := d.toNat) (b := a.toNat) (n := 4)
  simp only [show (2 : Nat) ^ 4 = 16 from rfl, ha, Nat.or_zero] at this
  exact this

/-- The class of a command can be read off the first bytes of its two frames. -/
theorem slow_or (dh dl a : Byte) (ha : a.toNat % 16 = 0) : slow (dh ||| a) (dl ||| a) = slow dh dl := by
  simp only [slow, cmdval_toNat, or_low _ _ ha]

theorem respWord_toNat (d : Count) (e : Err) : (respWord d e).toNat = e.code.toNat * 2 ^ 14 + d.toNat := by
  unfold respWord
  rw [BitVec.toNat_append, ← Nat.shiftLeft_add_eq_or_of_lt d.isLt, Nat.shiftLeft_eq]

/-- A response word says its count and its code. -/
theorem respWord_inj {d d' : Count} {e e' : Err} (h : respWord d e = respWord d' e') : d = d' ∧ e = e' := by
  have h1 := congrArg BitVec.toNat h
  rw [respWord_toNat, respWord_toNat] at h1
  have hd := d.isLt
  have hd' := d'.isLt
  refine ⟨BitVec.eq_of_toNat_eq (by omega), ?_⟩
  have h2 : e.code.toNat = e'.code.toNat := by omega
  cases e <;> cases e' <;> first | rfl | (revert h2; decide)

end Sys2Proof.Machine
end

