-- ==== Sys2Proof/Laws/Cut.lean ====
section
/-! SUPPORT. Cutting commands into batches (R116): how the greedy cut relates to one closed batch and the rest. -/

namespace Sys2Proof.Machine

/-- A batch that is closed for one of the three reasons of R116 is the next batch of the cut. -/
theorem cutFrom_closed (ns : Nat) (acc us rest : List Cmd) (last : Cmd)
    (hlast : us.getLast? = some last) (hfast : ∀ u ∈ us.dropLast, slow u.1 u.2 = false)
    (hle : acc.length + us.length ≤ ns)
    (hclosed : slow last.1 last.2 = true ∨ acc.length + us.length = ns ∨ rest = []) :
    cutFrom ns acc (us ++ rest) = (acc ++ us) :: cutFrom ns [] rest := by
  induction us generalizing acc with
  | nil => simp at hlast
  | cons u us ih =>
    cases us with
    | nil =>
      simp only [List.getLast?_singleton, Option.some.injEq] at hlast
      subst hlast
      simp only [List.length_singleton] at hle hclosed
      simp only [List.singleton_append, cutFrom]
      split
      · rfl
      · rename_i hopen
        simp only [Bool.or_eq_true, beq_iff_eq, not_or] at hopen
        rcases hclosed with h | h | h
        · exact absurd h hopen.1
        · exact absurd h hopen.2
        · subst h; simp [cutFrom]
    | cons v us =>
      rw [List.getLast?_cons_cons] at hlast
      simp only [List.dropLast_cons_cons, List.mem_cons, forall_eq_or_imp] at hfast
      simp only [List.length_cons] at hle hclosed
      rw [List.cons_append, cutFrom, if_neg]
      · have := ih (acc ++ [u]) hlast hfast.2 (by simp; omega) (by simpa [Nat.add_assoc, Nat.add_comm, Nat.add_left_comm] using hclosed)
        rw [this]; simp
      · simp only [hfast.1, Bool.false_or, beq_iff_eq]; omega

/-- The writes planned for `us ++ rest` are `us`, when it is closed, and those planned for the rest. -/
theorem plannedWrites_closed (c : Cfg) (us rest : List Cmd) (last : Cmd)
    (hlast : us.getLast? = some last) (hfast : ∀ u ∈ us.dropLast, slow u.1 u.2 = false)
    (hdirect : c.mode = .direct → us.length = 1)
    (hle : us.length ≤ slotCount c)
    (hclosed : c.mode = .batched → slow last.1 last.2 = true ∨ us.length = slotCount c ∨ rest = []) :
    plannedWrites c (us ++ rest) = us :: plannedWrites c rest := by
  unfold plannedWrites
  cases hm : c.mode with
  | direct =>
    obtain ⟨u, rfl⟩ := List.length_eq_one_iff.1 (hdirect hm)
    simp
  | batched =>
    have := cutFrom_closed (slotCount c) [] us rest last hlast hfast (by simpa using hle) (by simpa using hclosed hm)
    simpa using this

@[simp] theorem plannedWrites_nil (c : Cfg) : plannedWrites c [] = [] := by
  unfold plannedWrites; cases c.mode <;> simp [cutFrom]

/-- The cut drops and doubles no command. -/
theorem cutFrom_flatten (ns : Nat) (acc us : List Cmd) : (cutFrom ns acc us).flatten = acc ++ us := by
  induction us generalizing acc with
  | nil => simp only [cutFrom]; split <;> simp_all
  | cons u us ih =>
    simp only [cutFrom]
    split
    · simp [ih]
    · rw [ih]; simp

/-- The planned writes hold the commands, each once, in order. -/
theorem plannedWrites_flatten (c : Cfg) (us : List Cmd) : (plannedWrites c us).flatten = us := by
  unfold plannedWrites
  cases c.mode with
  | direct =>
    induction us with
    | nil => rfl
    | cons u us ih => simpa using ih
  | batched => simpa using cutFrom_flatten (slotCount c) [] us

end Sys2Proof.Machine
end

