-- ==== Sys2Proof/Laws/Keep.lean ====
section
/-! SUPPORT. What no operation changes, from any state: the configuration, the reset line and the ports of the host; and that
time does not go back. -/

namespace Sys2Proof.Machine

/-- What every stretch of every operation leaves alone. -/
structure Same (s t : State) : Prop where
  cfg : t.cfg = s.cfg
  rst : t.rst = s.rst
  requests : t.requests = s.requests
  cur : t.cur = s.cur
  rspReady : t.rspReady = s.rspReady
  responses : t.responses = s.responses
  now : s.now.toNat ≤ t.now.toNat

theorem Same.refl (s : State) : Same s s := ⟨rfl, rfl, rfl, rfl, rfl, rfl, Nat.le_refl _⟩

theorem Same.trans {s t u : State} (h : Same s t) (k : Same t u) : Same s u :=
  ⟨k.cfg.trans h.cfg, k.rst.trans h.rst, k.requests.trans h.requests, k.cur.trans h.cur, k.rspReady.trans h.rspReady,
    k.responses.trans h.responses, Nat.le_trans h.now k.now⟩

/-- A stretch that ends in a state, ends in one that is the same as `s` in these fields. -/
def Flow.Keeps (m : Flow) (s : State) : Prop := ∀ t, m = .go t ∨ m = .stop t → Same s t

theorem Flow.Keeps.go {s t : State} (h : Same s t) : (Flow.go t).Keeps s := by
  rintro u (e | e) <;> simp at e; exact e ▸ h

theorem Flow.Keeps.stop {s t : State} (h : Same s t) : (Flow.stop t).Keeps s := by
  rintro u (e | e) <;> simp at e; exact e ▸ h

theorem Flow.Keeps.fault {s : State} {f : Fault} : (Flow.fault f).Keeps s := by
  rintro u (e | e) <;> simp at e

theorem Flow.Keeps.refuse {s : State} {r : Refusal} : (Flow.refuse r).Keeps s := by
  rintro u (e | e) <;> simp at e

theorem Flow.Keeps.andThen {m : Flow} {f : State → Flow} {s : State} (h : m.Keeps s) (k : ∀ t, (f t).Keeps t) :
    (m.andThen f).Keeps s := by
  cases m with
  | go u =>
    intro t e
    exact (h u (.inl rfl)).trans (k u t e)
  | stop u => exact fun t e => h t e
  | fault r => exact .fault
  | refuse r => exact .refuse

/-! ### The shared operations -/

theorem beginOp_keeps (s : State) : (beginOp s).Keeps s := by
  unfold beginOp; split
  · exact .go ⟨rfl, rfl, rfl, rfl, rfl, rfl, Nat.le_refl _⟩
  · exact .refuse

theorem waitDeadline_keeps (s : State) : (waitDeadline s).Keeps s := by
  rintro t (h | h)
  · obtain ⟨-, h1, -, dt, n, e⟩ := waitDeadline_eq_go h
    exact ⟨by rw [e], by rw [e], by rw [e], by rw [e], by rw [e], by rw [e], h1⟩
  · obtain ⟨-, -, h1, e⟩ := waitDeadline_eq_stop h
    exact ⟨by rw [e], by rw [e], by rw [e], by rw [e], by rw [e], by rw [e], h1⟩

theorem offerBuffer_keeps (s : State) : (offerBuffer s).Keeps s := by
  rw [offerBuffer_eq]; exact .go ⟨rfl, rfl, rfl, rfl, rfl, rfl, Nat.le_refl _⟩

theorem awaitAnswer_keeps (s : State) : (awaitAnswer s).Keeps s := by
  rcases awaitAnswer_cases s with ⟨_, _, _, _, _, _, _, ht, h⟩ | ⟨_, h⟩ | ⟨_, _, _, _, _, _, _, h⟩ |
    ⟨_, _, _, _, _, _, h⟩ <;> rw [h]
  · exact .go ⟨rfl, rfl, rfl, rfl, rfl, rfl, advance_le ht⟩
  · exact .stop (.refl s)
  · exact .refuse
  · exact .refuse

theorem armIf_keeps (b : Bool) (settle : Time) (s : State) : (armIf b settle s).Keeps s := by
  rcases armIf_cases b settle s with ⟨t, h⟩ | h
  · rw [h]
    rcases armIf_eq_go h with ⟨-, u, -, -, rfl⟩ | ⟨-, rfl⟩
    · exact .go ⟨rfl, rfl, rfl, rfl, rfl, rfl, Nat.le_refl _⟩
    · exact .go (.refl _)
  · rw [h]; exact .refuse

theorem storeBytes_keeps (i : Nat) (bytes : List Byte) {s t : State} (h : Same s t) : (storeBytes i bytes t).Keeps s := by
  rcases storeBytes_cases i bytes t with ⟨-, e⟩ | ⟨-, e⟩ <;> rw [e]
  · exact .go (h.trans ⟨rfl, rfl, rfl, rfl, rfl, rfl, Nat.le_refl _⟩)
  · exact .fault

/-! ### XINIT -/

theorem xinitPack_keeps (s : State) : (xinitPack s).Keeps s := by
  unfold xinitPack; split
  · exact .andThen (storeBytes_keeps _ _ ⟨rfl, rfl, rfl, rfl, rfl, rfl, Nat.le_refl _⟩)
      fun t => .go ⟨rfl, rfl, rfl, rfl, rfl, rfl, Nat.le_refl _⟩
  · exact .refuse

theorem emptyBuffer_same (s : State) : Same s s.emptyBuffer := ⟨rfl, rfl, rfl, rfl, rfl, rfl, Nat.le_refl _⟩

theorem xinitAcct_keeps (s : State) : (xinitAcct s).Keeps s := by
  unfold xinitAcct; split
  · refine .andThen (fun t h => (emptyBuffer_same s).trans (armIf_keeps _ _ _ t h)) fun t => ?_
    split <;> exact .stop ⟨rfl, rfl, rfl, rfl, rfl, rfl, Nat.le_refl _⟩
  · exact .stop (.refl s)

theorem xinitFromWrite_keeps (s : State) : (xinitFromWrite s).Keeps s :=
  .andThen (awaitAnswer_keeps s) xinitAcct_keeps

theorem xinitFromWait_keeps (s : State) : (xinitFromWait s).Keeps s :=
  .andThen (.andThen (waitDeadline_keeps s) offerBuffer_keeps) xinitFromWrite_keeps

theorem xinitFromPack_keeps (s : State) : (xinitFromPack s).Keeps s :=
  .andThen (xinitPack_keeps s) xinitFromWait_keeps

theorem xinitStart_keeps (s : State) : (xinitStart s).Keeps s := fun t h =>
  Same.trans (t := s.setDone 0) ⟨rfl, rfl, rfl, rfl, rfl, rfl, Nat.le_refl _⟩ (xinitFromPack_keeps _ t h)

/-! ### XMIT -/

theorem packSlot_keeps (pairs : BitVec 13) (s : State) : (packSlot pairs s).Keeps s := by
  unfold packSlot; split
  · exact .andThen (storeBytes_keeps _ _ ⟨rfl, rfl, rfl, rfl, rfl, rfl, Nat.le_refl _⟩)
      fun t => .go ⟨rfl, rfl, rfl, rfl, rfl, rfl, Nat.le_refl _⟩
  · exact .refuse

theorem packLoop_keeps (pairs : BitVec 13) (n : Nat) (s : State) : (packLoop pairs n s).Keeps s := by
  induction n generalizing s with
  | zero => exact .go (.refl s)
  | succ n ih =>
    refine .andThen (packSlot_keeps pairs s) fun t => ?_
    split
    · exact .go (.refl t)
    · exact ih t

theorem xmitPack_keeps (pairs : BitVec 13) (s : State) : (xmitPack pairs s).Keeps s := by
  unfold xmitPack; split
  · unfold xmitPackDirect; split
    · exact .andThen (storeBytes_keeps _ _ ⟨rfl, rfl, rfl, rfl, rfl, rfl, Nat.le_refl _⟩)
        fun t => .go ⟨rfl, rfl, rfl, rfl, rfl, rfl, Nat.le_refl _⟩
    · exact .refuse
  · exact .andThen (packLoop_keeps pairs _ s) fun t => .go ⟨rfl, rfl, rfl, rfl, rfl, rfl, Nat.le_refl _⟩

theorem countUnits_keeps (good : Bool) (c : Nat) (s : State) : (countUnits good c s).Keeps s := by
  unfold countUnits; split
  · exact .go ⟨rfl, rfl, rfl, rfl, rfl, rfl, Nat.le_refl _⟩
  · exact .stop ⟨rfl, rfl, rfl, rfl, rfl, rfl, Nat.le_refl _⟩

theorem xmitAcct_keeps (s : State) : (xmitAcct s).Keeps s := by
  unfold xmitAcct; split
  · unfold xmitAcctDirect; split
    · exact .andThen (fun t h => (emptyBuffer_same s).trans (armIf_keeps _ _ _ t h)) (countUnits_keeps _ _)
    · exact .stop (.refl s)
  · unfold xmitAcctBatched; split
    · exact .andThen (fun t h => (emptyBuffer_same s).trans (armIf_keeps _ _ _ t h)) (countUnits_keeps _ _)
    · exact .stop (.refl s)

theorem xmitFromWrite_keeps (s : State) : (xmitFromWrite s).Keeps s := .andThen (awaitAnswer_keeps s) xmitAcct_keeps

theorem xmitFromWait_keeps (s : State) : (xmitFromWait s).Keeps s :=
  .andThen (.andThen (waitDeadline_keeps s) offerBuffer_keeps) xmitFromWrite_keeps

theorem xmitFromPack_keeps (pairs : BitVec 13) (s : State) : (xmitFromPack pairs s).Keeps s :=
  .andThen (xmitPack_keeps pairs s) xmitFromWait_keeps

theorem startBatch_same (s : State) : Same s (startBatch s) := by
  unfold startBatch; split
  · exact .refl s
  · exact ⟨rfl, rfl, rfl, rfl, rfl, rfl, Nat.le_refl _⟩

theorem xmitLoop_keeps (pairs : BitVec 13) (n : Nat) (s : State) : (xmitLoop pairs n s).Keeps s := by
  induction n generalizing s with
  | zero => exact .stop ⟨rfl, rfl, rfl, rfl, rfl, rfl, Nat.le_refl _⟩
  | succ n ih =>
    rw [xmitLoop]; split
    · exact .andThen (fun t h => (startBatch_same s).trans (xmitFromPack_keeps pairs _ t h)) ih
    · exact .stop ⟨rfl, rfl, rfl, rfl, rfl, rfl, Nat.le_refl _⟩

theorem xmitCheck_keeps (pairs : BitVec 13) (s : State) : (xmitCheck pairs s).Keeps s := by
  unfold xmitCheck; split
  · exact .stop ⟨rfl, rfl, rfl, rfl, rfl, rfl, Nat.le_refl _⟩
  · exact .go ⟨rfl, rfl, rfl, rfl, rfl, rfl, Nat.le_refl _⟩

/-! ### SETRW and SETAUX -/

theorem auxFinish_keeps (s : State) : (auxFinish s).Keeps s := by
  unfold auxFinish; split
  · split <;> exact .stop ⟨rfl, rfl, rfl, rfl, rfl, rfl, Nat.le_refl _⟩
  · exact .stop (.refl s)

theorem auxFromWrite_keeps (s : State) : (auxFromWrite s).Keeps s := .andThen (awaitAnswer_keeps s) auxFinish_keeps

theorem auxWrite_keeps (a : Byte) (s : State) : (auxWrite a s).Keeps s := fun t h =>
  Same.trans (t := (s.setAux a).putOffer [a]) ⟨rfl, rfl, rfl, rfl, rfl, rfl, Nat.le_refl _⟩ (auxFromWrite_keeps _ t h)

/-! ### The operations as wholes -/

theorem Flow.Keeps.of_next {m : Flow} {s t : State} (h : m.Keeps s) (e : m.outcome = .next t) : Same s t :=
  h t (Flow.outcome_eq_next.1 e)

/-- What no operation changes. -/
theorem exec_same {i : Instr} {s t : State} (h : exec i s = .next t) : Same s t := by
  cases i with
  | xinit => exact (Flow.Keeps.andThen (beginOp_keeps s) xinitStart_keeps).of_next h
  | xmit pairs =>
    exact (Flow.Keeps.andThen (.andThen (beginOp_keeps s) (xmitCheck_keeps pairs)) (xmitLoop_keeps pairs _)).of_next h
  | setrw v => exact (Flow.Keeps.andThen (beginOp_keeps s) fun t => auxWrite_keeps _ t).of_next h
  | setaux v => exact (Flow.Keeps.andThen (beginOp_keeps s) fun t => auxWrite_keeps _ t).of_next h

/-- The same of an operation that goes on. -/
theorem resumeOp_same {i : Instr} {s t : State} (h : resumeOp i s = .next t) : Same s t := by
  have stay : ∀ {u : State}, (Host.Outcome.next s : Host.Outcome State Fault Refusal) = .next u → Same s u := by
    intro u e; simp only [Host.Outcome.next.injEq] at e; exact e ▸ .refl s
  cases i with
  | xinit =>
    simp only [resumeOp, resumeXinit] at h
    split at h
    · exact stay h
    · exact exec_same (i := .xinit) h
    · exact (xinitFromPack_keeps s).of_next h
    · exact (xinitFromWait_keeps s).of_next h
    · exact (xinitFromWrite_keeps s).of_next h
    · exact (xinitAcct_keeps s).of_next h
    · exact stay h
  | xmit pairs =>
    simp only [resumeOp, resumeXmit] at h
    split at h
    · exact stay h
    · exact exec_same (i := .xmit pairs) h
    · exact (Flow.Keeps.andThen (xmitFromPack_keeps pairs s) (xmitLoop_keeps pairs _)).of_next h
    · exact (Flow.Keeps.andThen (xmitFromWait_keeps s) (xmitLoop_keeps pairs _)).of_next h
    · exact (Flow.Keeps.andThen (xmitFromWrite_keeps s) (xmitLoop_keeps pairs _)).of_next h
    · exact (Flow.Keeps.andThen (xmitAcct_keeps s) (xmitLoop_keeps pairs _)).of_next h
    · exact stay h
  | setrw v =>
    simp only [resumeOp, resumeSetrw] at h
    split at h
    all_goals first
      | exact stay h
      | exact exec_same (i := .setrw v) h
      | exact (auxFromWrite_keeps s).of_next h
  | setaux v =>
    simp only [resumeOp, resumeSetaux] at h
    split at h
    all_goals first
      | exact stay h
      | exact exec_same (i := .setaux v) h
      | exact (auxFromWrite_keeps s).of_next h

/-! ### A step -/

/-- All that a step can be: a reset, nothing, an operation started, a rejected header answered, a response taken, or the
operation in progress going on. -/
theorem step_cases {s t : State} (h : step s = .next t) :
    cfgOk s.cfg = true ∧
    ((s.rst = true ∧ s.phase = .ready ∧ t = resetBlock s) ∨
      (s.rst = false ∧ s.phase = .ready ∧ s.requests = [] ∧ t = s) ∨
      (s.rst = false ∧ s.phase = .ready ∧ ∃ r rest u, s.requests = r :: rest ∧ advance s.now r.after = some u ∧
        ((∃ i, decode r.hdr = .op i ∧ exec i (s.takeRequest r rest u) = .next t) ∨
          ∃ e, decode r.hdr = .rejected e ∧ t = reject e (s.takeRequest r rest u))) ∨
      (s.rst = false ∧ s.phase = .resp ∧ t = takeResponse s) ∨
      (s.rst = false ∧ s.phase ≠ .ready ∧ s.phase ≠ .resp ∧
        ((s.cur = none ∧ t = s) ∨ ∃ r, s.cur = some r ∧
          ((∃ i, decode r.hdr = .op i ∧ resumeOp i s = .next t) ∨
            ∃ e, decode r.hdr = .rejected e ∧ t = reject e s)))) := by
  unfold step at h
  split at h
  · rename_i hc
    refine ⟨hc, ?_⟩
    split at h
    · rename_i hr
      split at h
      · rename_i hp
        simp only [Host.Outcome.next.injEq] at h
        exact .inl ⟨hr, hp, h.symm⟩
      · simp at h
    · rename_i hr
      have hr : s.rst = false := by simpa using hr
      have go : ∀ {u : State}, resume s = .next u → (s.cur = none ∧ u = s) ∨ ∃ r, s.cur = some r ∧
          ((∃ i, decode r.hdr = .op i ∧ resumeOp i s = .next u) ∨ ∃ e, decode r.hdr = .rejected e ∧ u = reject e s) := by
        intro u h
        unfold resume at h
        split at h
        · rename_i r hcur
          split at h
          · exact .inr ⟨r, hcur, .inl ⟨_, ‹_›, h⟩⟩
          · simp only [Host.Outcome.next.injEq] at h
            exact .inr ⟨r, hcur, .inr ⟨_, ‹_›, h.symm⟩⟩
        · simp only [Host.Outcome.next.injEq] at h
          exact .inl ⟨‹_›, h.symm⟩
      split at h
      · rename_i hp
        unfold takeNext at h
        cases hq : s.requests with
        | nil =>
          simp only [hq, Host.Outcome.next.injEq] at h
          exact .inr (.inl ⟨hr, hp, rfl, h.symm⟩)
        | cons r rest =>
          refine .inr (.inr (.inl ⟨hr, hp, r, rest, ?_⟩))
          cases ha : advance s.now r.after with
          | none => simp [hq, ha] at h
          | some u =>
            refine ⟨u, rfl, rfl, ?_⟩
            cases hd : decode r.hdr with
            | op i => simp only [hq, ha, hd] at h; exact .inl ⟨i, rfl, h⟩
            | rejected e => simp only [hq, ha, hd, Host.Outcome.next.injEq] at h; exact .inr ⟨e, rfl, h.symm⟩
      · rename_i hp
        simp only [Host.Outcome.next.injEq] at h
        exact .inr (.inr (.inr (.inl ⟨hr, hp, h.symm⟩)))
      · rename_i h1 h2
        exact .inr (.inr (.inr (.inr ⟨hr, h1, h2, go h⟩)))
  · simp at h

end Sys2Proof.Machine
end

