-- ==== Sys2Proof/Laws/Pack.lean ====
section
/-! SUPPORT. What packing (`PACK` of R113 to R115) can do, said once: which bytes stand in the buffer, which commands they are,
and that nothing else changes. -/

namespace Sys2Proof.Machine

theorem idx_add_two {i : Count} {n : Nat} (h : i.toNat + 2 ≤ n) (hn : n < 2 ^ 14) : (i + 2).toNat = i.toNat + 2 := by
  rw [BitVec.toNat_add]
  show (i.toNat + 2) % 2 ^ 14 = i.toNat + 2
  exact Nat.mod_eq_of_lt (by omega)

/-! ### XINIT -/

/-- If `XINIT` packs its frame, the buffer begins with it. -/
theorem xinitPack_eq_go {s t : State} (h : xinitPack s = .go t) :
    ∃ d, s.element 1 0 = some d ∧ 3 ≤ s.cfg.bufCap ∧
      t = { s with phase := .pack, bufLen := 3, buf := Memory.writeBytes s.buf 0 (frame s.cfg d s.aux) } := by
  unfold xinitPack at h
  split at h
  · rename_i d hd
    rcases storeBytes_cases 0 (frame s.cfg d s.aux) (s.toPhase .pack) with ⟨h1, h2⟩ | ⟨h1, h2⟩ <;> rw [h2] at h <;>
      simp at h
    exact ⟨d, hd, by simpa using h1, by rw [← h]; rfl⟩
  · simp at h

theorem xinitPack_ne_stop {s t : State} : xinitPack s ≠ .stop t := by
  unfold xinitPack
  split
  · rename_i d hd
    rcases storeBytes_cases 0 (frame s.cfg d s.aux) (s.toPhase .pack) with ⟨h1, h2⟩ | ⟨h1, h2⟩ <;> rw [h2] <;> simp
  · simp

theorem xinitPack_ne_fault {s : State} {f : Fault} (hc : cfgOk s.cfg = true) : xinitPack s ≠ .fault f := by
  have := ((cfgOk_iff _).1 hc).2.2.2.2.2.2.1
  unfold xinitPack
  split
  · rw [storeBytes_go (by simp; omega)]; simp
  · simp

/-! ### One slot -/

/-- All that packing one slot can do. -/
theorem packSlot_cases (pairs : BitVec 13) (s : State) :
    (∃ dh dl, s.element (lenOf pairs).toNat s.idx.toNat = some dh ∧
      s.element (lenOf pairs).toNat (s.idx.toNat + 1) = some dl ∧
      s.j * slotSize s.cfg + (slot s.cfg dh dl s.aux).length ≤ s.cfg.bufCap ∧
      packSlot pairs s = .go { s with
        phase := .pack, idx := s.idx + 2, j := s.j + 1, lastSlow := slow dh dl
        buf := Memory.writeBytes s.buf (s.j * slotSize s.cfg) (slot s.cfg dh dl s.aux) }) ∨
    (∃ dh dl, s.cfg.bufCap < s.j * slotSize s.cfg + (slot s.cfg dh dl s.aux).length ∧
      packSlot pairs s = .fault .bufferIndex) ∨
    ((s.element (lenOf pairs).toNat s.idx.toNat = none ∨ s.element (lenOf pairs).toNat (s.idx.toNat + 1) = none) ∧
      packSlot pairs s = .refuse .streamElement) := by
  unfold packSlot
  split
  · rename_i dh dl h1 h2
    rcases storeBytes_cases (s.j * slotSize s.cfg) (slot s.cfg dh dl s.aux) (s.toPhase .pack).nextPair with
      ⟨h3, h4⟩ | ⟨h3, h4⟩ <;> rw [h4]
    · exact .inl ⟨dh, dl, h1, h2, h3, rfl⟩
    · exact .inr (.inl ⟨dh, dl, h3, rfl⟩)
  · rename_i h
    refine .inr (.inr ⟨?_, rfl⟩)
    cases h1 : s.element (lenOf pairs).toNat s.idx.toNat with
    | none => exact .inl rfl
    | some dh =>
      cases h2 : s.element (lenOf pairs).toNat (s.idx.toNat + 1) with
      | none => exact .inr rfl
      | some dl => exact absurd h2 (h dh dl h1)

/-- The two elements read are the command at `IDX div 2`. -/
theorem elements_are_command {s : State} {r : Request} {len : Nat} {dh dl : Byte} (hr : s.cur = some r)
    (hev : s.idx.toNat % 2 = 0) (h1 : s.element len s.idx.toNat = some dh)
    (h2 : s.element len (s.idx.toNat + 1) = some dl) :
    (commands r.stream)[s.idx.toNat / 2]? = some (dh, dl) ∧ s.idx.toNat + 1 < len := by
  obtain ⟨-, r1, e1, e2⟩ := element_eq_some.1 h1
  obtain ⟨hlt, r2, f1, f2⟩ := element_eq_some.1 h2
  rw [hr] at e1 f1
  simp only [Option.some.injEq] at e1 f1
  subst e1; subst f1
  refine ⟨?_, hlt⟩
  rw [commands_getElem?, show 2 * (s.idx.toNat / 2) = s.idx.toNat by omega, e2, f2]

/-- The command at a place is the head of what is left from there. -/
theorem drop_of_getElem? {l : List Cmd} {k : Nat} {u : Cmd} (h : l[k]? = some u) : l.drop k = u :: l.drop (k + 1) := by
  obtain ⟨hk, rfl⟩ := List.getElem?_eq_some_iff.1 h
  exact List.drop_eq_getElem_cons hk

/-! ### The packing loop -/

/-- What the packing loop leaves when it goes on: it packed commands `us`, at least one, and the batch is closed. -/
structure Packed (pairs : BitVec 13) (s : State) (cmds : List Cmd) (old : List Byte) (us : List Cmd) (last : Cmd)
    (t : State) : Prop where
  frame : t = { s with phase := .pack, idx := t.idx, j := t.j, lastSlow := slow last.1 last.2, buf := t.buf }
  final : us.getLast? = some last
  fast : ∀ u ∈ us.dropLast, slow u.1 u.2 = false
  taken : us <+: cmds.drop (s.idx.toNat / 2)
  idx : t.idx.toNat = s.idx.toNat + 2 * us.length
  within : t.idx.toNat ≤ 2 * pairs.toNat
  j : t.j = s.j + us.length
  fits : t.j ≤ slotCount s.cfg
  closed : slow last.1 last.2 = true ∨ t.j = slotCount s.cfg ∨ t.idx.toNat = 2 * pairs.toNat
  bytes : Memory.readBytes t.buf 0 (t.j * slotSize s.cfg) = old ++ writeBytes s.cfg s.aux us
  wf : Memory.wf s.buf = true → Memory.wf t.buf = true
  outside : ∀ a, slotCount s.cfg * slotSize s.cfg ≤ a → Memory.read t.buf a = Memory.read s.buf a

theorem packLoop_eq_go {pairs : BitVec 13} {n : Nat} {s t : State} {r : Request} {old : List Byte}
    (hm : s.cfg.mode = .batched) (hr : s.cur = some r) (hev : s.idx.toNat % 2 = 0)
    (hfuel : 2 * pairs.toNat ≤ s.idx.toNat + 2 * n) (hlt : s.idx.toNat < 2 * pairs.toNat)
    (hj : s.j < slotCount s.cfg) (hold : Memory.readBytes s.buf 0 (s.j * slotSize s.cfg) = old)
    (h : packLoop pairs n s = .go t) :
    ∃ us last, Packed pairs s (commands r.stream) old us last t := by
  induction n generalizing s old with
  | zero => omega
  | succ n ih =>
    rw [packLoop] at h
    rcases packSlot_cases pairs s with ⟨dh, dl, h1, h2, hcap, h3⟩ | ⟨_, _, _, h3⟩ | ⟨_, h3⟩ <;> rw [h3] at h <;>
      simp only [Flow.go_andThen, Flow.fault_andThen, Flow.refuse_andThen, reduceCtorEq] at h
    obtain ⟨hcmd, hin⟩ := elements_are_command hr hev h1 h2
    rw [lenOf_toNat] at hin
    have hp := pairs.isLt
    have hidx : (s.idx + 2).toNat = s.idx.toNat + 2 := idx_add_two (n := 2 * pairs.toNat) (by omega) (by omega)
    have hslot : (slot s.cfg dh dl s.aux).length = slotSize s.cfg := by rw [slot_length, slotSize_batched hm]
    have hunit : unitBytes s.cfg s.aux (dh, dl) = slot s.cfg dh dl s.aux := by simp [unitBytes, hm]
    have hnext : Memory.readBytes (Memory.writeBytes s.buf (s.j * slotSize s.cfg) (slot s.cfg dh dl s.aux)) 0
        ((s.j + 1) * slotSize s.cfg) = old ++ slot s.cfg dh dl s.aux := by
      have := Memory.readBytes_append _ _ _ (slot s.cfg dh dl s.aux) hold
      rwa [hslot, ← Nat.succ_mul] at this
    have hout : ∀ a, slotCount s.cfg * slotSize s.cfg ≤ a →
        Memory.read (Memory.writeBytes s.buf (s.j * slotSize s.cfg) (slot s.cfg dh dl s.aux)) a =
          Memory.read s.buf a := by
      intro a ha
      refine Memory.read_writeBytes_outside _ _ _ _ (.inr ?_)
      rw [hslot]
      have : (s.j + 1) * slotSize s.cfg ≤ slotCount s.cfg * slotSize s.cfg := Nat.mul_le_mul_right _ hj
      rw [Nat.succ_mul] at this
      omega
    split at h
    · rename_i hclosed
      simp only [Flow.go.injEq] at h
      subst h
      refine ⟨[(dh, dl)], (dh, dl), ?_⟩
      constructor
      · rfl
      · rfl
      · simp
      · rw [drop_of_getElem? hcmd]; exact ⟨_, rfl⟩
      · simpa using hidx
      · simp only [hidx]; omega
      · rfl
      · exact hj
      · simp only [batchClosed, Bool.or_eq_true, beq_iff_eq] at hclosed
        rcases hclosed with (h | h) | h
        · exact .inl h
        · exact .inr (.inl h)
        · refine .inr (.inr ?_)
          have := congrArg BitVec.toNat h
          simpa using this
      · simp only [writeBytes_singleton, hunit]; exact hnext
      · exact fun hw => Memory.writeBytes_wf _ _ _ hw
      · exact hout
    · rename_i hopen
      simp only [batchClosed, Bool.or_eq_true, beq_iff_eq, not_or] at hopen
      obtain ⟨⟨ho1, ho2⟩, ho3⟩ := hopen
      have ho3' : s.idx.toNat + 2 ≠ 2 * pairs.toNat := by
        intro he
        exact ho3 (BitVec.eq_of_toNat_eq (by rw [hidx, lenOf_toNat, he]))
      obtain ⟨us, last, hpk⟩ := ih (s := { s with
        phase := .pack, idx := s.idx + 2, j := s.j + 1, lastSlow := slow dh dl
        buf := Memory.writeBytes s.buf (s.j * slotSize s.cfg) (slot s.cfg dh dl s.aux) }) hm hr
        (by simp only [hidx]; omega) (by simp only [hidx]; omega) (by simp only [hidx]; omega)
        (by simp only; omega) hnext h
      have hne : us ≠ [] := by
        intro he
        have := hpk.final
        rw [he] at this
        simp at this
      have hdrop := drop_of_getElem? hcmd
      refine ⟨(dh, dl) :: us, last, ?_⟩
      constructor
      · exact hpk.frame
      · rw [List.getLast?_cons_of_ne_nil hne]; exact hpk.final
      · intro u hu
        rw [List.dropLast_cons_of_ne_nil hne, List.mem_cons] at hu
        rcases hu with rfl | hu
        · simpa using ho1
        · exact hpk.fast u hu
      · rw [hdrop]
        have := hpk.taken
        simp only [hidx, show (s.idx.toNat + 2) / 2 = s.idx.toNat / 2 + 1 by omega] at this
        exact List.prefix_cons_iff.2 (.inr ⟨us, rfl, this⟩)
      · have := hpk.idx
        simp only [hidx] at this
        rw [this, List.length_cons]; omega
      · exact hpk.within
      · rw [hpk.j, List.length_cons]; simp only; omega
      · exact hpk.fits
      · exact hpk.closed
      · rw [hpk.bytes]
        simp only [writeBytes, List.flatMap_cons, hunit, List.append_assoc]
      · exact fun hw => hpk.wf (Memory.writeBytes_wf _ _ _ hw)
      · exact fun a ha => (hpk.outside a ha).trans (hout a ha)

theorem packSlot_ne_stop {pairs : BitVec 13} {s t : State} : packSlot pairs s ≠ .stop t := by
  rcases packSlot_cases pairs s with ⟨_, _, _, _, _, h⟩ | ⟨_, _, _, h⟩ | ⟨_, h⟩ <;> rw [h] <;> simp

theorem packLoop_ne_stop {pairs : BitVec 13} {n : Nat} {s t : State} : packLoop pairs n s ≠ .stop t := by
  induction n generalizing s with
  | zero => simp [packLoop]
  | succ n ih =>
    intro h
    rcases Flow.andThen_eq_stop h with h | ⟨u, -, h⟩
    · exact packSlot_ne_stop h
    · split at h
      · simp at h
      · exact ih h

/-- Slots below `NS` are within the buffer, so the loop never leaves it (R125). -/
theorem packLoop_ne_fault {pairs : BitVec 13} {n : Nat} {s : State} {f : Fault} (hm : s.cfg.mode = .batched)
    (hj : s.j < slotCount s.cfg) : packLoop pairs n s ≠ .fault f := by
  induction n generalizing s with
  | zero => simp [packLoop]
  | succ n ih =>
    intro h
    rw [packLoop] at h
    rcases packSlot_cases pairs s with ⟨dh, dl, _, _, _, h3⟩ | ⟨dh, dl, hcap, h3⟩ | ⟨_, h3⟩ <;> rw [h3] at h <;>
      simp only [Flow.go_andThen, Flow.fault_andThen, Flow.refuse_andThen, reduceCtorEq] at h
    · split at h
      · simp at h
      · rename_i hopen
        simp only [batchClosed, Bool.or_eq_true, beq_iff_eq, not_or] at hopen
        exact ih (s := { s with
          phase := .pack, idx := s.idx + 2, j := s.j + 1, lastSlow := slow dh dl
          buf := Memory.writeBytes s.buf (s.j * slotSize s.cfg) (slot s.cfg dh dl s.aux) }) hm
          (by have := hopen.1.2; simp only at this ⊢; omega) h
    · have hfit := slots_fit s.cfg (n := s.j + 1) hj
      rw [slot_length, ← slotSize_batched hm] at hcap
      rw [Nat.succ_mul] at hfit
      omega

/-! ### One write of XMIT, both modes -/

/-- The first index of the buffer that `XMIT` does not store to: past one record in direct mode (R114), past `NS` slots in
batched mode (R115). -/
def xmitRegion (c : Cfg) : Nat :=
  match c.mode with
  | .direct => 0 + 6
  | .batched => slotCount c * slotSize c

/-- What `PACK` leaves when it goes on: the bytes of the commands `us` stand in the buffer, from 0 to `BUF_LEN`. -/
structure Loaded (pairs : BitVec 13) (s : State) (cmds us : List Cmd) (last : Cmd) (t : State) : Prop where
  frame : t = { s with
    phase := .pack, idx := t.idx, j := t.j, lastSlow := slow last.1 last.2, buf := t.buf
    bufLen := us.length * slotSize s.cfg }
  final : us.getLast? = some last
  fast : ∀ u ∈ us.dropLast, slow u.1 u.2 = false
  taken : us <+: cmds.drop (s.idx.toNat / 2)
  idx : t.idx.toNat = s.idx.toNat + 2 * us.length
  within : t.idx.toNat ≤ 2 * pairs.toNat
  units : unitsInHand t = us.length
  fits : us.length ≤ slotCount s.cfg
  direct : s.cfg.mode = .direct → us.length = 1 ∧ t.j = s.j
  closed : s.cfg.mode = .batched →
    slow last.1 last.2 = true ∨ us.length = slotCount s.cfg ∨ t.idx.toNat = 2 * pairs.toNat
  bytes : Memory.readBytes t.buf 0 (us.length * slotSize s.cfg) = writeBytes s.cfg s.aux us
  wf : Memory.wf s.buf = true → Memory.wf t.buf = true
  outside : ∀ a, xmitRegion s.cfg ≤ a → Memory.read t.buf a = Memory.read s.buf a

theorem Loaded.nonempty {pairs : BitVec 13} {s t : State} {cmds us : List Cmd} {last : Cmd}
    (h : Loaded pairs s cmds us last t) : 1 ≤ us.length := by
  have := h.final
  cases us with
  | nil => simp at this
  | cons => simp

theorem xmitPackDirect_eq_go {pairs : BitVec 13} {s t : State} {r : Request} (hm : s.cfg.mode = .direct)
    (hc : cfgOk s.cfg = true) (hr : s.cur = some r) (hev : s.idx.toNat % 2 = 0)
    (h : xmitPackDirect pairs s = .go t) : ∃ us last, Loaded pairs s (commands r.stream) us last t := by
  unfold xmitPackDirect at h
  split at h
  · rename_i dh dl h1 h2
    obtain ⟨hcmd, hin⟩ := elements_are_command hr hev h1 h2
    rw [lenOf_toNat] at hin
    have hp := pairs.isLt
    have hidx : (s.idx + 2).toNat = s.idx.toNat + 2 := idx_add_two (n := 2 * pairs.toNat) (by omega) (by omega)
    have hsz := slotSize_direct hm
    have hunit : unitBytes s.cfg s.aux (dh, dl) = record s.cfg dh dl s.aux := by simp [unitBytes, hm]
    rcases storeBytes_cases 0 (record s.cfg dh dl s.aux) (s.toPhase .pack).nextPair with ⟨h3, h4⟩ | ⟨h3, h4⟩ <;>
      rw [h4] at h <;>
      simp only [Flow.go_andThen, Flow.fault_andThen, Flow.go.injEq, reduceCtorEq] at h
    subst h
    refine ⟨[(dh, dl)], (dh, dl), ?_⟩
    constructor
    · simp only [List.length_singleton, Nat.one_mul, hsz]; rfl
    · rfl
    · simp
    · rw [drop_of_getElem? hcmd]; exact ⟨_, rfl⟩
    · exact hidx
    · show (s.idx + 2).toNat ≤ _
      rw [hidx]; omega
    · show (match s.cfg.mode with | .direct => 1 | .batched => _) = _
      rw [hm]; rfl
    · exact slotCount_pos hc
    · exact fun _ => ⟨rfl, rfl⟩
    · intro hb; rw [hm] at hb; simp at hb
    · simp only [List.length_singleton, Nat.one_mul, writeBytes_singleton, hunit, hsz]
      exact Memory.readBytes_writeBytes s.buf (record s.cfg dh dl s.aux)
    · exact fun hw => Memory.writeBytes_wf _ _ _ hw
    · intro a ha
      simp only [xmitRegion, hm] at ha
      exact Memory.read_writeBytes_outside _ _ _ _ (.inr (by simpa using ha))
  · simp at h

theorem xmitPackBatched_eq_go {pairs : BitVec 13} {s t : State} {r : Request} (hm : s.cfg.mode = .batched)
    (hc : cfgOk s.cfg = true) (hr : s.cur = some r) (hev : s.idx.toNat % 2 = 0)
    (hlt : s.idx.toNat < 2 * pairs.toNat) (h : xmitPackBatched pairs (s.setJ 0) = .go t) :
    ∃ us last, Loaded pairs s (commands r.stream) us last t := by
  obtain ⟨v, h1, h2⟩ := Flow.andThen_eq_go h
  simp only [Flow.go.injEq] at h2
  have hpos := slotCount_pos hc
  obtain ⟨us, last, hp⟩ := packLoop_eq_go (s := s.setJ 0) (old := []) hm hr hev (by simp) hlt
    hpos (by simp [Memory.readBytes]) h1
  have hj : v.j = us.length := by simpa using hp.j
  have hcfg : v.cfg = s.cfg := by rw [hp.frame]; rfl
  refine ⟨us, last, ?_⟩
  subst h2
  constructor
  · rw [hcfg, hj]
    conv_lhs => rw [hp.frame]
    rfl
  · exact hp.final
  · exact hp.fast
  · exact hp.taken
  · exact hp.idx
  · exact hp.within
  · show (match v.cfg.mode with | .direct => 1 | .batched => v.j) = _
    rw [hcfg, hm, hj]
  · have := hp.fits; rw [hj] at this; exact this
  · intro hd; rw [hm] at hd; simp at hd
  · intro _
    have := hp.closed
    rw [hj] at this
    exact this
  · have := hp.bytes
    rw [hj] at this
    simpa using this
  · exact hp.wf
  · intro a ha
    simp only [xmitRegion, hm] at ha
    exact hp.outside a ha

theorem xmitPack_eq_go {pairs : BitVec 13} {s t : State} {r : Request} (hc : cfgOk s.cfg = true)
    (hr : s.cur = some r) (hev : s.idx.toNat % 2 = 0) (hlt : s.idx.toNat < 2 * pairs.toNat)
    (h : xmitPack pairs (startBatch s) = .go t) : ∃ us last, Loaded pairs s (commands r.stream) us last t := by
  unfold xmitPack at h
  rw [startBatch_cfg] at h
  cases hm : s.cfg.mode with
  | direct =>
    simp only [hm, startBatch] at h
    exact xmitPackDirect_eq_go hm hc hr hev h
  | batched =>
    simp only [hm, startBatch] at h
    exact xmitPackBatched_eq_go hm hc hr hev hlt h

theorem xmitPack_ne_stop {pairs : BitVec 13} {s t : State} : xmitPack pairs s ≠ .stop t := by
  unfold xmitPack
  split
  · unfold xmitPackDirect
    split
    · rename_i dh dl _ _
      rcases storeBytes_cases 0 (record s.cfg dh dl s.aux) (s.toPhase .pack).nextPair with ⟨_, h4⟩ | ⟨_, h4⟩ <;>
        rw [h4] <;> simp
    · simp
  · intro h
    rcases Flow.andThen_eq_stop h with h | ⟨u, -, h⟩
    · exact packLoop_ne_stop h
    · simp at h

theorem xmitPack_ne_fault {pairs : BitVec 13} {s : State} {f : Fault} (hc : cfgOk s.cfg = true) :
    xmitPack pairs (startBatch s) ≠ .fault f := by
  have hcap := ((cfgOk_iff _).1 hc).2.2.2.2.2.2.1
  have hpos := slotCount_pos hc
  unfold xmitPack
  rw [startBatch_cfg]
  cases hm : s.cfg.mode with
  | direct =>
    simp only [startBatch, hm, xmitPackDirect]
    split
    · rw [storeBytes_go (by simp; omega)]; simp
    · simp
  | batched =>
    intro h
    simp only [startBatch, hm] at h
    rcases Flow.andThen_eq_fault h with h | ⟨u, -, h⟩
    · exact packLoop_ne_fault (s := s.setJ 0) hm hpos h
    · simp at h

/-- An `XMIT` that packs has a stream. -/
theorem xmitPack_has_request {pairs : BitVec 13} {s t : State} (hp : s.idx.toNat < 2 * pairs.toNat)
    (h : xmitPack pairs (startBatch s) = .go t) : ∃ r, s.cur = some r := by
  have key : ∀ {v : State} {d : Byte} {len i : Nat}, v.cur = s.cur → v.element len i = some d →
      ∃ r, s.cur = some r := by
    intro v d len i hv he
    obtain ⟨-, r, hr, -⟩ := element_eq_some.1 he
    exact ⟨r, by rw [← hv, hr]⟩
  unfold xmitPack at h
  rw [startBatch_cfg] at h
  cases hm : s.cfg.mode with
  | direct =>
    simp only [hm, startBatch, xmitPackDirect] at h
    split at h
    · rename_i dh dl h1 h2
      exact key rfl h1
    · simp at h
  | batched =>
    simp only [hm, startBatch] at h
    obtain ⟨v, h1, -⟩ := Flow.andThen_eq_go h
    have : ∃ n, pairs.toNat = n + 1 := ⟨pairs.toNat - 1, by omega⟩
    obtain ⟨n, hn⟩ := this
    rw [hn, packLoop] at h1
    obtain ⟨u, h2, -⟩ := Flow.andThen_eq_go h1
    rcases packSlot_cases pairs (s.setJ 0) with ⟨dh, dl, h3, _⟩ | ⟨_, _, _, h4⟩ | ⟨_, h4⟩
    · exact key rfl h3
    · rw [h4] at h2; simp at h2
    · rw [h4] at h2; simp at h2

end Sys2Proof.Machine
end

