-- ==== Sys2Proof/Laws/Write.lean ====
section
/-! SUPPORT. The channel write of a transmit (`WAIT`, `WRITE`, `ACCT`), said once: what is offered, what an answer does, what is
armed and counted. -/

namespace Sys2Proof.Machine

/-! ### WAIT: hold, then offer -/

/-- If the hold ends and the write is offered: the scheduler is Idle, and the bytes of the buffer are offered at an instant that
is not before the deadline. -/
theorem waitOffer_eq_go {s t : State} (h : (waitDeadline s).andThen offerBuffer = .go t) :
    ∃ dt n, s.now.toNat ≤ t.now.toNat ∧
      (s.dlValid = true → s.dlTime.toNat ≤ t.now.toNat) ∧
      t = { s with
        phase := .write, now := t.now, ticks := t.ticks, dlValid := false, dlTime := dt, draws := n
        offer := some ⟨Memory.readBytes s.buf 0 s.bufLen, t.now⟩ } := by
  obtain ⟨u, h1, h2⟩ := Flow.andThen_eq_go h
  obtain ⟨hv, hnow, hdl, dt, n, hu⟩ := waitDeadline_eq_go h1
  simp only [offerBuffer_eq, Flow.go.injEq] at h2
  subst h2
  refine ⟨dt, n, hnow, hdl, ?_⟩
  conv_lhs => rw [hu]
  rfl

theorem offerBuffer_ne_stop {s t : State} : offerBuffer s ≠ .stop t := by simp

/-- If the block is held: it is Armed, the deadline has not come, only the clock moved. -/
theorem waitOffer_eq_stop {s t : State} (h : (waitDeadline s).andThen offerBuffer = .stop t) :
    s.dlValid = true ∧ t.now.toNat < s.dlTime.toNat ∧ s.now.toNat ≤ t.now.toNat ∧
      t = { s with phase := .wait, now := t.now, ticks := [] } := by
  rcases Flow.andThen_eq_stop h with h | ⟨u, -, h⟩
  · exact waitDeadline_eq_stop h
  · exact absurd h offerBuffer_ne_stop

/-- The offer never faults. -/
theorem waitOffer_ne_fault {s : State} {f : Fault} : (waitDeadline s).andThen offerBuffer ≠ .fault f := by
  intro h
  rcases Flow.andThen_eq_fault h with h | ⟨u, -, h2⟩
  · exact waitDeadline_ne_fault h
  · simp at h2

/-! ### ACCT of XINIT -/

/-- The end of an `XINIT` (R113): the response, the count, what is armed. -/
theorem xinitAcct_eq_stop {s t : State} {a : Answer} (ha : s.ans = some a) (h : xinitAcct s = .stop t) :
    ∃ dv dt, t = { s with
        phase := .resp, ans := none, bufLen := 0, buf := Memory.unspecify s.buf s.bufLen s.draws, draws := s.draws + 1
        dlValid := dv, dlTime := dt, done := BitVec.ofNat 14 (a.n / 3)
        rsp := some (if a.good 3 then respWord 1 .ok else respWord (BitVec.ofNat 14 (a.n / 3)) .channel) } ∧
      ((a.n / 3 = 1 ∧ dv = true ∧ dt.toNat = s.now.toNat + s.cfg.tInit.toNat) ∨
        (a.n / 3 ≠ 1 ∧ dv = s.dlValid ∧ dt = s.dlTime)) := by
  unfold xinitAcct at h
  simp only [ha] at h
  rcases Flow.andThen_eq_stop h with h | ⟨u, h1, h2⟩
  · rcases armIf_cases (a.n / 3 == 1) s.cfg.tInit s.emptyBuffer with ⟨v, hv⟩ | hv <;> rw [hv] at h <;> simp at h
  · rcases armIf_eq_go h1 with ⟨hb, d, -, hd, hu⟩ | ⟨hb, hu⟩
    · refine ⟨true, d, ?_, .inl ⟨by simpa using hb, rfl, hd⟩⟩
      subst hu
      split at h2 <;> simp only [Flow.stop.injEq] at h2 <;> subst h2 <;> simp_all [respond, raiseErr, State.setDeadline, State.emptyBuffer, State.setDone]
    · refine ⟨s.dlValid, s.dlTime, ?_, .inr ⟨by simpa using hb, rfl, rfl⟩⟩
      subst hu
      split at h2 <;> simp only [Flow.stop.injEq] at h2 <;> subst h2 <;> simp_all [respond, raiseErr, State.emptyBuffer, State.setDone]

theorem xinitAcct_ne_go {s t : State} : xinitAcct s ≠ .go t := by
  unfold xinitAcct
  split
  · intro h
    obtain ⟨u, -, h⟩ := Flow.andThen_eq_go h
    split at h <;> simp at h
  · simp

theorem xinitAcct_ne_fault {s : State} {f : Fault} : xinitAcct s ≠ .fault f := by
  unfold xinitAcct
  split
  · rename_i a _
    intro h
    rcases Flow.andThen_eq_fault h with h | ⟨u, -, h⟩
    · rcases armIf_cases (a.n / 3 == 1) s.cfg.tInit s.emptyBuffer with ⟨v, hv⟩ | hv <;> rw [hv] at h <;> simp at h
    · split at h <;> simp at h
  · simp

/-! ### ACCT of XMIT -/

/-- The settle time an `XMIT` arms when all units of a write are confirmed (R98): by the class of the last command and the mode. -/
def settleAfter (s : State) : Option Time :=
  if s.lastSlow then some s.cfg.tSlow
  else
    match s.cfg.mode with
    | .direct => some s.cfg.tFast
    | .batched => none

/-- What the scheduler holds after a write of `XMIT` answered `a` (R98, R101, R119). -/
def armedAfter (s : State) (a : Answer) (dv : Bool) (dt : Time) : Prop :=
  match settleAfter s with
  | some settle =>
    if a.n / slotSize s.cfg = unitsInHand s then dv = true ∧ dt.toNat = s.now.toNat + settle.toNat
    else dv = s.dlValid ∧ dt = s.dlTime
  | none => dv = s.dlValid ∧ dt = s.dlTime

/-- What the scheduler holds after a write of `XMIT`, case by case: armed from the answer on, or left as it was. -/
theorem armedAfter_cases {s : State} {a : Answer} {dv : Bool} {dt : Time} (h : armedAfter s a dv dt) :
    (a.n / slotSize s.cfg = unitsInHand s ∧ (s.lastSlow = true ∨ s.cfg.mode = .direct) ∧ dv = true ∧
      dt.toNat = s.now.toNat + (if s.lastSlow then s.cfg.tSlow.toNat else s.cfg.tFast.toNat)) ∨
    ((a.n / slotSize s.cfg ≠ unitsInHand s ∨ (s.lastSlow = false ∧ s.cfg.mode = .batched)) ∧
      dv = s.dlValid ∧ dt = s.dlTime) := by
  cases hl : s.lastSlow <;> cases hm : s.cfg.mode <;>
    simp only [armedAfter, settleAfter, hl, hm, if_true, Bool.false_eq_true, if_false] at h
  · split at h
    · exact .inl ⟨‹_›, .inr rfl, by simpa using h⟩
    · exact .inr ⟨.inl ‹_›, h⟩
  · exact .inr ⟨.inr ⟨rfl, rfl⟩, h⟩
  all_goals
    split at h
    · exact .inl ⟨‹_›, .inl rfl, by simpa using h⟩
    · exact .inr ⟨.inl ‹_›, h⟩

/-- The state after a write of `XMIT` is accounted. -/
def State.accounted (s : State) (a : Answer) (dv : Bool) (dt : Time) : State :=
  { s with
    phase := .acct, ans := none, bufLen := 0, buf := Memory.unspecify s.buf s.bufLen s.draws, draws := s.draws + 1
    dlValid := dv, dlTime := dt, done := s.done + BitVec.ofNat 14 (a.n / slotSize s.cfg) }

/-- All that accounting a write of `XMIT` can do: a good write goes on, any other ends with `ERR_CHANNEL`. -/
theorem xmitAcct_cases {s : State} {a : Answer} (ha : s.ans = some a) :
    (∃ dv dt, armedAfter s a dv dt ∧
      ((a.good (unitsInHand s * slotSize s.cfg) = true ∧ xmitAcct s = .go (s.accounted a dv dt)) ∨
        (a.good (unitsInHand s * slotSize s.cfg) = false ∧
          xmitAcct s = .stop (raiseErr .channel (s.done + BitVec.ofNat 14 (a.n / slotSize s.cfg))
            (s.accounted a dv dt))))) ∨
    xmitAcct s = .refuse .timeOverflow := by
  have core : ∀ (b : Bool) (settle : Time) (k : Nat) (good : Bool),
      (b = true → ∀ d : Time, d.toNat = s.now.toNat + settle.toNat → armedAfter s a true d) →
      (b = false → armedAfter s a s.dlValid s.dlTime) →
      (∃ dv dt, armedAfter s a dv dt ∧ (armIf b settle s.emptyBuffer).andThen (countUnits good k) =
        (if good then .go { s.emptyBuffer with dlValid := dv, dlTime := dt, done := s.done + BitVec.ofNat 14 k }
          else .stop (raiseErr .channel (s.done + BitVec.ofNat 14 k)
            { s.emptyBuffer with dlValid := dv, dlTime := dt, done := s.done + BitVec.ofNat 14 k }))) ∨
      (armIf b settle s.emptyBuffer).andThen (countUnits good k) =
        .refuse .timeOverflow := by
    intro b settle k good h1 h2
    rcases armIf_cases b settle s.emptyBuffer with ⟨v, hv⟩ | hv
    · left
      rw [hv]
      rcases armIf_eq_go hv with ⟨hb, d, -, hd, hu⟩ | ⟨hb, hu⟩ <;> subst hu
      · exact ⟨true, d, h1 hb d hd, by cases good <;> rfl⟩
      · exact ⟨s.dlValid, s.dlTime, h2 hb, by cases good <;> rfl⟩
    · right
      rw [hv]; rfl
  unfold xmitAcct
  cases hm : s.cfg.mode with
  | direct =>
    have hsz := slotSize_direct hm
    have hun : unitsInHand s = 1 := by simp [unitsInHand, hm]
    simp only [xmitAcctDirect, ha]
    have := core (a.n / 6 == 1) (if s.lastSlow then s.cfg.tSlow else s.cfg.tFast) (a.n / 6) (a.good 6)
      (by
        intro hb d hd
        simp only [beq_iff_eq] at hb
        cases hl : s.lastSlow <;> simp [armedAfter, settleAfter, hm, hsz, hun, hb, hl] <;> simp [hl] at hd <;> exact hd)
      (by
        intro hb
        simp only [beq_eq_false_iff_ne] at hb
        cases hl : s.lastSlow <;> simp [armedAfter, settleAfter, hm, hsz, hun, hb, hl])
    rcases this with ⟨dv, dt, h1, h2⟩ | h2
    · left
      refine ⟨dv, dt, h1, ?_⟩
      cases hg : a.good 6 with
      | true => left; exact ⟨by rw [hun, hsz]; exact hg, by rw [hg] at h2; rw [State.accounted, hsz]; exact h2⟩
      | false => right; exact ⟨by rw [hun, hsz]; exact hg, by rw [hg] at h2; rw [State.accounted, hsz]; exact h2⟩
    · exact .inr h2
  | batched =>
    have hun : unitsInHand s = s.j := by simp [unitsInHand, hm]
    simp only [xmitAcctBatched, ha]
    have := core (a.n / slotSize s.cfg == s.j && s.lastSlow) s.cfg.tSlow (a.n / slotSize s.cfg)
      (a.good (s.j * slotSize s.cfg))
      (by
        intro hb d hd
        simp only [Bool.and_eq_true, beq_iff_eq] at hb
        simp [armedAfter, settleAfter, hun, hb.1, hb.2, hd])
      (by
        intro hb
        cases hl : s.lastSlow
        · simp [armedAfter, settleAfter, hm, hl]
        · simp only [hl, Bool.and_true, beq_eq_false_iff_ne] at hb
          simp [armedAfter, settleAfter, hun, hb, hl])
    rcases this with ⟨dv, dt, h1, h2⟩ | h2
    · left
      refine ⟨dv, dt, h1, ?_⟩
      cases hg : a.good (s.j * slotSize s.cfg) with
      | true => left; exact ⟨by rw [hun]; exact hg, by rw [hg] at h2; exact h2⟩
      | false => right; exact ⟨by rw [hun]; exact hg, by rw [hg] at h2; exact h2⟩
    · exact .inr h2

end Sys2Proof.Machine
end

