-- ==== Sys2Proof/Laws/Transmit.lean ====
section
/-! SUPPORT. One channel write of `XMIT` from each phase on, and its outer loop: what they can do, said once, and the induction
over the loop, packaged once. -/

namespace Sys2Proof.Machine

/-! ### From WRITE on -/

/-- A write of `XMIT` that goes on was answered good. -/
theorem xmitFromWrite_eq_go {v t : State} (h : xmitFromWrite v = .go t) :
    ∃ w a rest u dv dt, v.offer = some w ∧ v.answers = a :: rest ∧ a.n ≤ w.bytes.length ∧
      u.toNat = v.now.toNat + a.after ∧ a.good (unitsInHand v * slotSize v.cfg) = true ∧
      armedAfter (v.takeAnswer w a rest u) a dv dt ∧ t = (v.takeAnswer w a rest u).accounted a dv dt := by
  obtain ⟨x, h1, h2⟩ := Flow.andThen_eq_go h
  obtain ⟨w, a, rest, u, ho, ha, hn, hu, rfl⟩ := awaitAnswer_eq_go h1
  rcases xmitAcct_cases (s := v.takeAnswer w a rest u) (a := a) rfl with ⟨dv, dt, harm, ⟨hg, he⟩ | ⟨hg, he⟩⟩ | he <;>
    rw [he] at h2 <;> simp only [Flow.go.injEq, reduceCtorEq] at h2
  exact ⟨w, a, rest, u, dv, dt, ho, ha, hn, (advance_eq_some.1 hu).2, hg, harm, h2.symm⟩

/-- A write of `XMIT` that stops is unanswered, or was answered bad and ended the operation. -/
theorem xmitFromWrite_eq_stop {v t : State} (h : xmitFromWrite v = .stop t) :
    (t = v ∧ (v.offer = none ∨ v.answers = [])) ∨
    ∃ w a rest u dv dt, v.offer = some w ∧ v.answers = a :: rest ∧ a.n ≤ w.bytes.length ∧
      u.toNat = v.now.toNat + a.after ∧ a.good (unitsInHand v * slotSize v.cfg) = false ∧
      armedAfter (v.takeAnswer w a rest u) a dv dt ∧
      t = raiseErr .channel (v.done + BitVec.ofNat 14 (a.n / slotSize v.cfg))
        ((v.takeAnswer w a rest u).accounted a dv dt) := by
  rcases Flow.andThen_eq_stop h with h1 | ⟨x, h1, h2⟩
  · exact .inl (awaitAnswer_eq_stop h1)
  · obtain ⟨w, a, rest, u, ho, ha, hn, hu, rfl⟩ := awaitAnswer_eq_go h1
    rcases xmitAcct_cases (s := v.takeAnswer w a rest u) (a := a) rfl with ⟨dv, dt, harm, ⟨hg, he⟩ | ⟨hg, he⟩⟩ | he <;>
      rw [he] at h2 <;> simp only [Flow.stop.injEq, reduceCtorEq] at h2
    exact .inr ⟨w, a, rest, u, dv, dt, ho, ha, hn, (advance_eq_some.1 hu).2, hg, harm, h2.symm⟩

theorem xmitAcct_ne_fault {s : State} {a : Answer} {f : Fault} (ha : s.ans = some a) : xmitAcct s ≠ .fault f := by
  rcases xmitAcct_cases ha with ⟨dv, dt, harm, ⟨hg, he⟩ | ⟨hg, he⟩⟩ | he <;> rw [he] <;> simp

theorem xmitFromWrite_ne_fault {v : State} {f : Fault} : xmitFromWrite v ≠ .fault f := by
  intro h
  rcases Flow.andThen_eq_fault h with h | ⟨u, h1, h2⟩
  · exact awaitAnswer_ne_fault h
  · obtain ⟨w, a, rest, x, _, _, _, _, rfl⟩ := awaitAnswer_eq_go h1
    exact xmitAcct_ne_fault (a := a) rfl h2

/-! ### From WAIT on -/

theorem xmitFromWait_eq_go {u t : State} (h : xmitFromWait u = .go t) :
    ∃ v, (waitDeadline u).andThen offerBuffer = .go v ∧ xmitFromWrite v = .go t :=
  Flow.andThen_eq_go h

theorem xmitFromWait_eq_stop {u t : State} (h : xmitFromWait u = .stop t) :
    (waitDeadline u).andThen offerBuffer = .stop t ∨
      ∃ v, (waitDeadline u).andThen offerBuffer = .go v ∧ xmitFromWrite v = .stop t :=
  Flow.andThen_eq_stop h

theorem xmitFromWait_ne_fault {u : State} {f : Fault} : xmitFromWait u ≠ .fault f := by
  intro h
  rcases Flow.andThen_eq_fault h with h | ⟨v, -, h⟩
  · exact waitOffer_ne_fault h
  · exact xmitFromWrite_ne_fault h

/-! ### One turn of the loop -/

/-- A turn that goes on packed commands, sent them and was answered good. -/
theorem turn_eq_go {pairs : BitVec 13} {s t : State} {r : Request} (hc : cfgOk s.cfg = true) (hr : s.cur = some r)
    (hev : s.idx.toNat % 2 = 0) (hlt : s.idx.toNat < 2 * pairs.toNat)
    (h : xmitFromPack pairs (startBatch s) = .go t) :
    ∃ us last u v, Loaded pairs s (commands r.stream) us last u ∧ (waitDeadline u).andThen offerBuffer = .go v ∧
      xmitFromWrite v = .go t := by
  obtain ⟨u, h1, h2⟩ := Flow.andThen_eq_go h
  obtain ⟨us, last, hl⟩ := xmitPack_eq_go hc hr hev hlt h1
  obtain ⟨v, h3, h4⟩ := xmitFromWait_eq_go h2
  exact ⟨us, last, u, v, hl, h3, h4⟩

/-- A turn that stops is held in `WAIT`, held in `WRITE`, or was answered bad. -/
theorem turn_eq_stop {pairs : BitVec 13} {s t : State} {r : Request} (hc : cfgOk s.cfg = true) (hr : s.cur = some r)
    (hev : s.idx.toNat % 2 = 0) (hlt : s.idx.toNat < 2 * pairs.toNat)
    (h : xmitFromPack pairs (startBatch s) = .stop t) :
    ∃ us last u, Loaded pairs s (commands r.stream) us last u ∧
      ((waitDeadline u).andThen offerBuffer = .stop t ∨
        ∃ v, (waitDeadline u).andThen offerBuffer = .go v ∧ xmitFromWrite v = .stop t) := by
  rcases Flow.andThen_eq_stop h with h1 | ⟨u, h1, h2⟩
  · exact absurd h1 xmitPack_ne_stop
  · obtain ⟨us, last, hl⟩ := xmitPack_eq_go hc hr hev hlt h1
    exact ⟨us, last, u, hl, xmitFromWait_eq_stop h2⟩

/-- No turn faults (R125). -/
theorem turn_ne_fault {pairs : BitVec 13} {s : State} {f : Fault} (hc : cfgOk s.cfg = true) :
    xmitFromPack pairs (startBatch s) ≠ .fault f := by
  intro h
  rcases Flow.andThen_eq_fault h with h | ⟨u, h1, h2⟩
  · exact xmitPack_ne_fault hc h
  · exact xmitFromWait_ne_fault h2

/-! ### The loop -/

theorem idx_lt_lenOf {s : State} {pairs : BitVec 13} : s.idx < lenOf pairs ↔ s.idx.toNat < 2 * pairs.toNat := by
  rw [BitVec.lt_def, lenOf_toNat]

theorem xmitLoop_ne_go {pairs : BitVec 13} {n : Nat} {s t : State} : xmitLoop pairs n s ≠ .go t := by
  induction n generalizing s with
  | zero => simp [xmitLoop]
  | succ n ih =>
    rw [xmitLoop]
    split
    · intro h
      obtain ⟨u, -, h⟩ := Flow.andThen_eq_go h
      exact ih h
    · simp

/-- The induction over the loop: `P` holds at the head of every turn, each turn that goes on keeps it and moves `IDX`, and each
way to stop gives `Q`. The fuel is enough for the commands left. -/
theorem xmitLoop_induct {pairs : BitVec 13} {P Q : State → Prop}
    (go : ∀ s t, P s → s.idx.toNat < 2 * pairs.toNat → xmitFromPack pairs (startBatch s) = .go t →
      P t ∧ s.idx.toNat + 2 ≤ t.idx.toNat)
    (stop : ∀ s t, P s → s.idx.toNat < 2 * pairs.toNat → xmitFromPack pairs (startBatch s) = .stop t → Q t)
    (fin : ∀ s, P s → 2 * pairs.toNat ≤ s.idx.toNat → Q (respond s.done s))
    {n : Nat} {s t : State} (hs : P s) (hfuel : 2 * pairs.toNat ≤ s.idx.toNat + 2 * n)
    (h : xmitLoop pairs n s = .stop t) : Q t := by
  induction n generalizing s with
  | zero =>
    simp only [xmitLoop, Flow.stop.injEq] at h
    subst h
    exact fin s hs (by omega)
  | succ n ih =>
    rw [xmitLoop] at h
    split at h
    · rename_i hlt
      have hlt := idx_lt_lenOf.1 hlt
      rcases Flow.andThen_eq_stop h with h1 | ⟨u, h1, h2⟩
      · exact stop s t hs hlt h1
      · obtain ⟨hu, hi⟩ := go s u hs hlt h1
        exact ih hu (by omega) h2
    · rename_i hge
      simp only [Flow.stop.injEq] at h
      subst h
      exact fin s hs (by have := mt idx_lt_lenOf.2 hge; omega)

/-- The loop never faults if no turn does. -/
theorem xmitLoop_ne_fault {pairs : BitVec 13} {P : State → Prop}
    (go : ∀ s t, P s → s.idx.toNat < 2 * pairs.toNat → xmitFromPack pairs (startBatch s) = .go t → P t)
    (safe : ∀ s f, P s → s.idx.toNat < 2 * pairs.toNat → xmitFromPack pairs (startBatch s) ≠ .fault f)
    {n : Nat} {s : State} {f : Fault} (hs : P s) : xmitLoop pairs n s ≠ .fault f := by
  induction n generalizing s with
  | zero => simp [xmitLoop]
  | succ n ih =>
    rw [xmitLoop]
    split
    · rename_i hlt
      have hlt := idx_lt_lenOf.1 hlt
      intro h
      rcases Flow.andThen_eq_fault h with h1 | ⟨u, h1, h2⟩
      · exact safe s f hs hlt h1
      · exact ih (go s u hs hlt h1) h2
    · simp

/-- More fuel than the commands left changes nothing, if each turn that goes on moves `IDX`. -/
theorem xmitLoop_fuel {pairs : BitVec 13} {P : State → Prop}
    (go : ∀ s t, P s → s.idx.toNat < 2 * pairs.toNat → xmitFromPack pairs (startBatch s) = .go t →
      P t ∧ s.idx.toNat + 2 ≤ t.idx.toNat)
    {n m : Nat} {s : State} (hs : P s) (hn : 2 * pairs.toNat ≤ s.idx.toNat + 2 * n)
    (hm : 2 * pairs.toNat ≤ s.idx.toNat + 2 * m) : xmitLoop pairs n s = xmitLoop pairs m s := by
  induction n generalizing s m with
  | zero =>
    cases m with
    | zero => rfl
    | succ m =>
      rw [xmitLoop, xmitLoop, if_neg]
      intro h
      have := idx_lt_lenOf.1 h
      omega
  | succ n ih =>
    cases m with
    | zero =>
      rw [xmitLoop, xmitLoop, if_neg]
      intro h
      have := idx_lt_lenOf.1 h
      omega
    | succ m =>
      rw [xmitLoop, xmitLoop]
      split
      · rename_i hlt
        have hlt := idx_lt_lenOf.1 hlt
        cases ht : xmitFromPack pairs (startBatch s) with
        | go u =>
          obtain ⟨hu, hi⟩ := go s u hs hlt ht
          exact ih hu (by omega) (by omega)
        | stop u => rfl
        | fault r => rfl
        | refuse r => rfl
      · rfl

/-! ### The operations as wholes -/

/-- All that an `XMIT` with commands does before its loop. -/
theorem execXmit_eq {pairs : BitVec 13} {s : State} (hc : cfgOk s.cfg = true) (hp : pairs ≠ 0) :
    execXmit pairs s = (xmitLoop pairs pairs.toNat (s.toPhase .check).startXmit).outcome := by
  unfold execXmit
  rw [beginOp_go hc, Flow.go_andThen, xmitCheck, if_neg hp, Flow.go_andThen]

theorem execXmit_zero {s : State} (hc : cfgOk s.cfg = true) :
    execXmit 0 s = .next (raiseErr .length 0 (s.toPhase .check)) := by
  simp [execXmit, beginOp_go hc, xmitCheck]

/-- An operation that answers a next state has a well-formed configuration. -/
theorem beginOp_of_next {s t : State} {f : State → Flow} (h : ((beginOp s).andThen f).outcome = .next t) :
    cfgOk s.cfg = true := by
  cases hc : cfgOk s.cfg with
  | true => rfl
  | false => rw [beginOp_refuse hc] at h; simp at h

end Sys2Proof.Machine
end

