-- ==== Sys2Proof/Laws/Ends.lean ====
section
/-! SUPPORT. In which phases an operation can end a step: held in `WAIT`, held in `WRITE`, or with its response offered. -/

namespace Sys2Proof.Machine

/-- The phases in which a step of an operation ends. -/
def Ends (s : State) : Prop := s.phase = .wait ∨ s.phase = .write ∨ s.phase = .resp

/-- From `WRITE`, with a write offered, an `XINIT` ends in one of them. -/
theorem xinitFromWrite_ends {s t : State} (hp : s.phase = .write) (h : (xinitFromWrite s).outcome = .next t) :
    Ends t := by
  rcases Flow.outcome_eq_next.1 h with h | h
  · obtain ⟨u, -, h⟩ := Flow.andThen_eq_go h
    exact absurd h xinitAcct_ne_go
  · rcases Flow.andThen_eq_stop h with h | ⟨u, h1, h2⟩
    · exact .inr (.inl (by rw [(awaitAnswer_eq_stop h).1]; exact hp))
    · obtain ⟨w, a, rest, x, -, -, -, -, rfl⟩ := awaitAnswer_eq_go h1
      obtain ⟨dv, dt, e, -⟩ := xinitAcct_eq_stop (a := a) rfl h2
      exact .inr (.inr (by rw [e]))

theorem xinitFromWait_ends {s t : State} (h : (xinitFromWait s).outcome = .next t) : Ends t := by
  unfold xinitFromWait at h
  cases hw : (waitDeadline s).andThen offerBuffer with
  | go v =>
    rw [hw, Flow.go_andThen] at h
    obtain ⟨_, _, -, -, e⟩ := waitOffer_eq_go hw
    exact xinitFromWrite_ends (by rw [e]) h
  | stop v =>
    rw [hw] at h
    simp only [Flow.stop_andThen, Flow.stop_outcome, Host.Outcome.next.injEq] at h
    obtain ⟨-, -, -, e⟩ := waitOffer_eq_stop hw
    exact .inl (by rw [← h, e])
  | fault f => rw [hw] at h; simp at h
  | refuse r => rw [hw] at h; simp at h

/-- From `WRITE`, one write of `XMIT` that stops, stops in one of them. -/
theorem xmitFromWrite_stop_ends {s t : State} (hp : s.phase = .write) (h : xmitFromWrite s = .stop t) : Ends t := by
  rcases xmitFromWrite_eq_stop h with ⟨rfl, -⟩ | ⟨_, _, _, _, _, _, -, -, -, -, -, -, e⟩
  · exact .inr (.inl hp)
  · exact .inr (.inr (by rw [e]; rfl))

theorem xmitFromWait_stop_ends {s t : State} (h : xmitFromWait s = .stop t) : Ends t := by
  rcases xmitFromWait_eq_stop h with h | ⟨v, h1, h2⟩
  · obtain ⟨-, -, -, e⟩ := waitOffer_eq_stop h
    exact .inl (by rw [e])
  · obtain ⟨_, _, -, -, e⟩ := waitOffer_eq_go h1
    exact xmitFromWrite_stop_ends (by rw [e]) h2

theorem xmitLoop_ends {pairs : BitVec 13} {n : Nat} {s t : State} (h : xmitLoop pairs n s = .stop t) : Ends t := by
  induction n generalizing s with
  | zero => simp only [xmitLoop, Flow.stop.injEq] at h; exact .inr (.inr (by rw [← h]; rfl))
  | succ n ih =>
    rw [xmitLoop] at h
    split at h
    · rcases Flow.andThen_eq_stop h with h | ⟨u, -, h⟩
      · rcases Flow.andThen_eq_stop h with h | ⟨v, -, h⟩
        · exact absurd h xmitPack_ne_stop
        · exact xmitFromWait_stop_ends h
      · exact ih h
    · simp only [Flow.stop.injEq] at h
      exact .inr (.inr (by rw [← h]; rfl))

theorem auxFromWrite_ends {s t : State} (hp : s.phase = .write) (h : (auxFromWrite s).outcome = .next t) : Ends t := by
  have fin : ∀ {u : State} {a : Answer}, u.ans = some a → ∀ v, auxFinish u = .go v ∨ auxFinish u = .stop v → Ends v := by
    intro u a ha v hv
    unfold auxFinish at hv
    simp only [ha] at hv
    split at hv <;> simp only [Flow.stop.injEq, reduceCtorEq, false_or] at hv <;>
      exact .inr (.inr (by rw [← hv]; rfl))
  rcases Flow.outcome_eq_next.1 h with h | h
  · obtain ⟨u, h1, h2⟩ := Flow.andThen_eq_go h
    obtain ⟨w, a, rest, x, -, -, -, -, rfl⟩ := awaitAnswer_eq_go h1
    exact fin (a := a) rfl t (.inl h2)
  · rcases Flow.andThen_eq_stop h with h | ⟨u, h1, h2⟩
    · exact .inr (.inl (by rw [(awaitAnswer_eq_stop h).1]; exact hp))
    · obtain ⟨w, a, rest, x, -, -, -, -, rfl⟩ := awaitAnswer_eq_go h1
      exact fin (a := a) rfl t (.inr h2)

/-- Every operation that answers a next state ends in one of them. -/
theorem exec_ends {i : Instr} {s t : State} (h : exec i s = .next t) : Ends t := by
  cases i with
  | xinit =>
    have hc : cfgOk s.cfg = true := beginOp_of_next h
    simp only [exec, execXinit, beginOp_go hc, Flow.go_andThen, xinitStart, xinitFromPack] at h
    cases hp : xinitPack ((s.toPhase .check).setDone 0) with
    | go u => rw [hp, Flow.go_andThen] at h; exact xinitFromWait_ends h
    | stop u => exact absurd hp xinitPack_ne_stop
    | fault f => rw [hp] at h; simp at h
    | refuse r => rw [hp] at h; simp at h
  | xmit pairs =>
    have hc : cfgOk s.cfg = true := by
      simp only [exec, execXmit, Flow.andThen_assoc] at h
      exact beginOp_of_next h
    by_cases hp : pairs = 0
    · subst hp
      simp only [exec, execXmit_zero hc, Host.Outcome.next.injEq] at h
      exact .inr (.inr (by rw [← h]; rfl))
    · simp only [exec] at h
      rw [execXmit_eq hc hp, Flow.outcome_eq_next] at h
      rcases h with h | h
      · exact absurd h xmitLoop_ne_go
      · exact xmitLoop_ends h
  | setrw v =>
    have hc : cfgOk s.cfg = true := beginOp_of_next h
    simp only [exec, execSetrw, beginOp_go hc, Flow.go_andThen, auxWrite] at h
    exact auxFromWrite_ends rfl h
  | setaux v =>
    have hc : cfgOk s.cfg = true := beginOp_of_next h
    simp only [exec, execSetaux, beginOp_go hc, Flow.go_andThen, auxWrite] at h
    exact auxFromWrite_ends rfl h

end Sys2Proof.Machine
end

