-- ==== Sys2Proof/Laws/Turn.lean ====
section
/-! SUPPORT. One whole turn of the loop of `XMIT`: what it leaves alone, which write it adds, and where it leaves the count. -/

namespace Sys2Proof.Machine

/-- What a stretch of an `XMIT` leaves alone: `AUX` (R123), `J` in direct mode, the ports of the host, the buffer outside the
slots `XMIT` stores to (R114, R115). -/
structure XKeep (s t : State) : Prop where
  cfg : t.cfg = s.cfg
  aux : t.aux = s.aux
  j : s.cfg.mode = .direct → t.j = s.j
  rst : t.rst = s.rst
  requests : t.requests = s.requests
  cur : t.cur = s.cur
  rspReady : t.rspReady = s.rspReady
  responses : t.responses = s.responses
  buf : ∀ a, xmitRegion s.cfg ≤ a → Memory.read t.buf a = Memory.read s.buf a

theorem units_region {c : Cfg} {us : List Cmd} (hd : c.mode = .direct → us.length = 1) (hf : us.length ≤ slotCount c) :
    us.length * slotSize c ≤ xmitRegion c := by
  unfold xmitRegion
  cases hm : c.mode with
  | direct => simp [hd hm, slotSize_direct hm]
  | batched => exact Nat.mul_le_mul_right _ hf

theorem XKeep.refl (s : State) : XKeep s s := ⟨rfl, rfl, fun _ => rfl, rfl, rfl, rfl, rfl, rfl, fun _ _ => rfl⟩
theorem XKeep.trans {s t u : State} (h : XKeep s t) (k : XKeep t u) : XKeep s u := by
  constructor
  · rw [k.cfg, h.cfg]
  · rw [k.aux, h.aux]
  · intro hd; rw [k.j (by rw [h.cfg]; exact hd), h.j hd]
  · rw [k.rst, h.rst]
  · rw [k.requests, h.requests]
  · rw [k.cur, h.cur]
  · rw [k.rspReady, h.rspReady]
  · rw [k.responses, h.responses]
  · intro a ha; rw [k.buf a (by rw [h.cfg]; exact ha), h.buf a ha]

theorem Loaded.keep {pairs : BitVec 13} {s u : State} {cmds us : List Cmd} {last : Cmd} (h : Loaded pairs s cmds us last u) : XKeep s u := by
  have e := h.frame
  constructor <;> first | (rw [e]; done) | skip
  · intro hd; exact (h.direct hd).2
  · exact h.outside

theorem waitGo_keep {u v : State} (h : (waitDeadline u).andThen offerBuffer = .go v) : XKeep u v := by
  obtain ⟨dt, n, -, -, e⟩ := waitOffer_eq_go h
  constructor <;> rw [e] <;> simp
theorem waitStop_keep {u v : State} (h : (waitDeadline u).andThen offerBuffer = .stop v) : XKeep u v := by
  obtain ⟨-, -, -, e⟩ := waitOffer_eq_stop h
  constructor <;> rw [e] <;> simp

theorem acct_keep {v : State} {w : Offer} {a : Answer} {rest : List Answer} {u : Time} {dv : Bool} {dt : Time}
    (h : v.bufLen ≤ xmitRegion v.cfg) :
    XKeep v ((v.takeAnswer w a rest u).accounted a dv dt) := by
  constructor <;> try rfl
  · intro _; rfl
  · intro x hx
    show Memory.read (Memory.unspecify v.buf v.bufLen v.draws) x = _
    rw [Memory.read_unspecify, if_neg (by omega)]

/-- The write after the hold: its bytes are those of the commands packed, and the answer is still to come. -/
theorem Loaded.offered {pairs : BitVec 13} {s u v : State} {cmds us : List Cmd} {last : Cmd}
    (h : Loaded pairs s cmds us last u) (hv : (waitDeadline u).andThen offerBuffer = .go v) :
    ∃ dt n, s.now.toNat ≤ v.now.toNat ∧ (s.dlValid = true → s.dlTime.toNat ≤ v.now.toNat) ∧
      v = { s with
        phase := .write, idx := u.idx, j := u.j, lastSlow := slow last.1 last.2, buf := u.buf
        bufLen := us.length * slotSize s.cfg
        now := v.now, ticks := v.ticks, dlValid := false, dlTime := dt, draws := n
        offer := some ⟨writeBytes s.cfg s.aux us, v.now⟩ } := by
  obtain ⟨dt, n, hnow, hdl, e⟩ := waitOffer_eq_go hv
  have hlen : u.bufLen = us.length * slotSize s.cfg := by rw [h.frame]
  rw [hlen, h.bytes] at e
  have e1 : u.now = s.now := by rw [h.frame]
  have e2 : u.dlValid = s.dlValid := by rw [h.frame]
  have e3 : u.dlTime = s.dlTime := by rw [h.frame]
  refine ⟨dt, n, by rwa [e1] at hnow, by rwa [e2, e3] at hdl, ?_⟩
  conv_lhs => rw [e, h.frame]

/-- The write in hand has as many units as commands were packed. -/
theorem Loaded.unitsInHand_eq {pairs : BitVec 13} {s u v : State} {cmds us : List Cmd} {last : Cmd}
    (h : Loaded pairs s cmds us last u) (hc : v.cfg = s.cfg) (hj : v.j = u.j) : unitsInHand v = us.length := by
  have := h.units
  have hu : u.cfg = s.cfg := by rw [h.frame]
  unfold unitsInHand at this ⊢
  rw [hc, hj, ← hu]; exact this

/-- A turn that goes on: it packed `us`, sent their bytes in one good write, and counted them. -/
structure TurnGo (pairs : BitVec 13) (s : State) (cmds us : List Cmd) (last : Cmd) (t : State) : Prop where
  final : us.getLast? = some last
  fast : ∀ u ∈ us.dropLast, slow u.1 u.2 = false
  taken : us <+: cmds.drop (s.idx.toNat / 2)
  fits : us.length ≤ slotCount s.cfg
  some : 1 ≤ us.length
  direct : s.cfg.mode = .direct → us.length = 1
  closed : s.cfg.mode = .batched →
    slow last.1 last.2 = true ∨ us.length = slotCount s.cfg ∨ t.idx.toNat = 2 * pairs.toNat
  idx : t.idx.toNat = s.idx.toNat + 2 * us.length
  within : t.idx.toNat ≤ 2 * pairs.toNat
  done : t.done = s.done + BitVec.ofNat 14 us.length
  keep : XKeep s t
  sent : ∃ issued a rest, s.answers = a :: rest ∧ t.answers = rest ∧ a.fail = false ∧
    a.n = us.length * slotSize s.cfg ∧ s.now.toNat ≤ issued.toNat ∧ (s.dlValid = true → s.dlTime.toNat ≤ issued.toNat) ∧
    t.now.toNat = issued.toNat + a.after ∧
    t.writes = s.writes ++ [⟨writeBytes s.cfg s.aux us, issued, t.now, a.n, a.fail⟩]
  armed : (t.dlValid = true ∧ t.dlTime.toNat = t.now.toNat +
      (if slow last.1 last.2 then s.cfg.tSlow.toNat else s.cfg.tFast.toNat) ∧
      (slow last.1 last.2 = true ∨ s.cfg.mode = .direct)) ∨
    (t.dlValid = false ∧ slow last.1 last.2 = false ∧ s.cfg.mode = .batched)
  phase : t.phase = .acct
  empty : t.bufLen = 0
  ports : t.offer = none ∧ t.ans = none ∧ t.rsp = s.rsp
  wf : Memory.wf s.buf = true → Memory.wf t.buf = true

theorem turn_go {pairs : BitVec 13} {s t : State} {r : Request} (hc : cfgOk s.cfg = true) (hr : s.cur = some r)
    (hev : s.idx.toNat % 2 = 0) (hlt : s.idx.toNat < 2 * pairs.toNat)
    (h : xmitFromPack pairs (startBatch s) = .go t) : ∃ us last, TurnGo pairs s (commands r.stream) us last t := by
  obtain ⟨us, last, u, v, hl, h1, h2⟩ := turn_eq_go hc hr hev hlt h
  obtain ⟨w, a, rest, x, dv, dt, ho, ha, hn, hx, hg, harm, e⟩ := xmitFromWrite_eq_go h2
  obtain ⟨dt', n, hnow, hdl, ev⟩ := hl.offered h1
  have hun : unitsInHand v = us.length := hl.unitsInHand_eq (by rw [ev]) (by rw [ev])
  have hcfg : v.cfg = s.cfg := by rw [ev]
  have hpos : 0 < slotSize s.cfg := by have := slotSize_pos s.cfg; omega
  have hg' : a.fail = false ∧ a.n = us.length * slotSize s.cfg := by
    rw [hun, hcfg] at hg
    simpa [Answer.good] using hg
  have hdiv : a.n / slotSize s.cfg = us.length := by rw [hg'.2, Nat.mul_div_cancel _ hpos]
  have hw : w = ⟨writeBytes s.cfg s.aux us, v.now⟩ := by
    rw [ev] at ho
    simp only [Option.some.injEq] at ho
    exact ho.symm
  refine ⟨us, last, ?_⟩
  constructor
  · exact hl.final
  · exact hl.fast
  · exact hl.taken
  · exact hl.fits
  · exact hl.nonempty
  · exact fun hd => (hl.direct hd).1
  · intro hb
    have := hl.closed hb
    rw [e]
    show _ ∨ _ ∨ v.idx.toNat = _
    rw [ev]; exact this
  · rw [e]; show v.idx.toNat = _
    rw [ev]; exact hl.idx
  · rw [e]; show v.idx.toNat ≤ _
    rw [ev]; exact hl.within
  · rw [e]; show v.done + BitVec.ofNat 14 (a.n / slotSize v.cfg) = _
    rw [hcfg, hdiv, ev]
  · rw [e]
    refine (hl.keep.trans (waitGo_keep h1)).trans (acct_keep ?_)
    have hb : v.bufLen = us.length * slotSize s.cfg := by rw [ev]
    rw [hb, hcfg]
    exact units_region (fun hd => (hl.direct hd).1) hl.fits
  · refine ⟨v.now, a, rest, by rw [ev] at ha; exact ha, by rw [e]; rfl, hg'.1, hg'.2, hnow, hdl, ?_, ?_⟩
    · rw [e]; exact hx
    · rw [e]; show v.writes ++ [⟨w.bytes, w.issued, x, a.n, a.fail⟩] = _
      rw [hw]
      conv_lhs => rw [ev]
      rfl
  · have hls : v.lastSlow = slow last.1 last.2 := by rw [ev]
    have hdv : v.dlValid = false := by rw [ev]
    have h3 := armedAfter_cases harm
    have hu2 : unitsInHand (v.takeAnswer w a rest x) = us.length := hun
    simp only [State.takeAnswer_cfg, State.takeAnswer_now, State.takeAnswer_dlValid, State.takeAnswer_lastSlow, hcfg,
      hdiv, hu2, hdv, hls] at h3
    rw [e]
    show (dv = true ∧ dt.toNat = x.toNat + _ ∧ _) ∨ (dv = false ∧ _)
    rcases h3 with ⟨-, h4, h5, h6⟩ | ⟨h4 | h4, h5, -⟩
    · exact .inl ⟨h5, h6, h4⟩
    · exact absurd rfl h4
    · exact .inr ⟨h5, h4⟩
  · rw [e]; rfl
  · rw [e]; rfl
  · refine ⟨by rw [e]; rfl, by rw [e]; rfl, ?_⟩
    rw [e]; show v.rsp = _
    rw [ev]
  · intro hw
    rw [e]; show Memory.wf (Memory.unspecify v.buf v.bufLen v.draws) = true
    refine Memory.unspecify_wf _ _ _ ?_
    rw [ev]; exact hl.wf hw

/-- A turn that stops: it packed `us`, and it is held in `WAIT`, held in `WRITE` with their bytes offered, or their write was the
first that was not good. -/
structure TurnStop (pairs : BitVec 13) (s : State) (cmds us : List Cmd) (last : Cmd) (t : State) : Prop where
  final : us.getLast? = some last
  fast : ∀ u ∈ us.dropLast, slow u.1 u.2 = false
  taken : us <+: cmds.drop (s.idx.toNat / 2)
  fits : us.length ≤ slotCount s.cfg
  some : 1 ≤ us.length
  direct : s.cfg.mode = .direct → us.length = 1
  closed : s.cfg.mode = .batched →
    slow last.1 last.2 = true ∨ us.length = slotCount s.cfg ∨ t.idx.toNat = 2 * pairs.toNat
  idx : t.idx.toNat = s.idx.toNat + 2 * us.length
  within : t.idx.toNat ≤ 2 * pairs.toNat
  keep : XKeep s t
  flag : t.lastSlow = slow last.1 last.2
  wf : Memory.wf s.buf = true → Memory.wf t.buf = true
  ans : s.ans = none → t.ans = none
  how :
    (t.phase = .wait ∧ s.dlValid = true ∧ t.now.toNat < s.dlTime.toNat ∧ s.now.toNat ≤ t.now.toNat ∧
      t.dlValid = true ∧ t.dlTime = s.dlTime ∧ t.writes = s.writes ∧ t.offer = s.offer ∧ t.rsp = s.rsp ∧
      t.done = s.done ∧ unitsInHand t = us.length ∧ t.bufLen = us.length * slotSize s.cfg ∧
      Memory.readBytes t.buf 0 t.bufLen = writeBytes s.cfg s.aux us) ∨
    (t.phase = .write ∧ s.now.toNat ≤ t.now.toNat ∧ (s.dlValid = true → s.dlTime.toNat ≤ t.now.toNat) ∧
      t.dlValid = false ∧ t.writes = s.writes ∧ t.rsp = s.rsp ∧ t.done = s.done ∧ unitsInHand t = us.length ∧
      t.bufLen = us.length * slotSize s.cfg ∧ s.answers = [] ∧ t.answers = [] ∧
      t.offer = Option.some ⟨writeBytes s.cfg s.aux us, t.now⟩) ∨
    (t.phase = .resp ∧ t.offer = none ∧ t.bufLen = 0 ∧
      ∃ issued a rest, s.answers = a :: rest ∧ a.n ≤ us.length * slotSize s.cfg ∧
        ¬ (a.fail = false ∧ a.n = us.length * slotSize s.cfg) ∧ s.now.toNat ≤ issued.toNat ∧
        (s.dlValid = true → s.dlTime.toNat ≤ issued.toNat) ∧ t.now.toNat = issued.toNat + a.after ∧
        t.writes = s.writes ++ [⟨writeBytes s.cfg s.aux us, issued, t.now, a.n, a.fail⟩] ∧
        t.rsp = Option.some (respWord (s.done + BitVec.ofNat 14 (a.n / slotSize s.cfg)) .channel) ∧
        ((t.dlValid = true ∧ a.n = us.length * slotSize s.cfg ∧ t.dlTime.toNat = t.now.toNat +
            (if slow last.1 last.2 then s.cfg.tSlow.toNat else s.cfg.tFast.toNat) ∧
            (slow last.1 last.2 = true ∨ s.cfg.mode = .direct)) ∨
          (t.dlValid = false ∧ (a.n ≠ us.length * slotSize s.cfg ∨
            (slow last.1 last.2 = false ∧ s.cfg.mode = .batched)))))

theorem turn_stop {pairs : BitVec 13} {s t : State} {r : Request} (hc : cfgOk s.cfg = true) (hr : s.cur = some r)
    (hev : s.idx.toNat % 2 = 0) (hlt : s.idx.toNat < 2 * pairs.toNat)
    (h : xmitFromPack pairs (startBatch s) = .stop t) :
    ∃ us last, TurnStop pairs s (commands r.stream) us last t := by
  obtain ⟨us, last, u, hl, h1 | ⟨v, h1, h2⟩⟩ := turn_eq_stop hc hr hev hlt h
  · obtain ⟨hd1, hd2, hd3, e⟩ := waitOffer_eq_stop h1
    have e1 : u.now = s.now := by rw [hl.frame]
    have e2 : u.dlValid = s.dlValid := by rw [hl.frame]
    have e3 : u.dlTime = s.dlTime := by rw [hl.frame]
    have hbl : t.bufLen = us.length * slotSize s.cfg := by rw [e, hl.frame]
    have hbuf : t.buf = u.buf := by rw [e]
    refine ⟨us, last, hl.final, hl.fast, hl.taken, hl.fits, hl.nonempty, fun hd => (hl.direct hd).1, ?_, ?_, ?_,
      hl.keep.trans (waitStop_keep h1), ?_, ?_, ?_, .inl ?_⟩
    · intro hb; have := hl.closed hb; rw [e]; exact this
    · rw [e]; exact hl.idx
    · rw [e]; exact hl.within
    · rw [e, hl.frame]
    · intro hw; rw [hbuf]; exact hl.wf hw
    · intro ha; rw [e, hl.frame]; exact ha
    · refine ⟨by rw [e], by rwa [e2] at hd1, by rwa [e3] at hd2, by rwa [e1] at hd3, ?_, ?_, ?_, ?_, ?_, ?_, ?_, hbl, ?_⟩
      · rw [e]; exact hd1
      · rw [e]; exact e3
      · rw [e, hl.frame]
      · rw [e, hl.frame]
      · rw [e, hl.frame]
      · rw [e, hl.frame]
      · exact hl.unitsInHand_eq (by rw [e, hl.frame]) (by rw [e])
      · rw [hbl, hbuf]; exact hl.bytes
  · obtain ⟨dt', n, hnow, hdl, ev⟩ := hl.offered h1
    have hun : unitsInHand v = us.length := hl.unitsInHand_eq (by rw [ev]) (by rw [ev])
    have hcfg : v.cfg = s.cfg := by rw [ev]
    have hpos : 0 < slotSize s.cfg := by have := slotSize_pos s.cfg; omega
    have hk := hl.keep.trans (waitGo_keep h1)
    rcases xmitFromWrite_eq_stop h2 with ⟨e, hno⟩ | ⟨w, a, rest, x, dv, dt, ho, ha, hn, hx, hg, harm, e⟩
    · subst e
      have hans : t.answers = [] := by
        rcases hno with hno | hno
        · rw [ev] at hno; simp at hno
        · exact hno
      refine ⟨us, last, hl.final, hl.fast, hl.taken, hl.fits, hl.nonempty, fun hd => (hl.direct hd).1, ?_, ?_, ?_,
        hk, ?_, ?_, ?_, .inr (.inl ?_)⟩
      · intro hb; have := hl.closed hb; rw [ev]; exact this
      · rw [ev]; exact hl.idx
      · rw [ev]; exact hl.within
      · rw [ev]
      · intro hw; rw [ev]; exact hl.wf hw
      · intro ha; rw [ev]; exact ha
      · refine ⟨by rw [ev], hnow, hdl, by rw [ev], by rw [ev], by rw [ev], by rw [ev], hun, by rw [ev], ?_, hans, ?_⟩
        · rw [ev] at hans; exact hans
        · conv_lhs => rw [ev]
    · have hw : w = ⟨writeBytes s.cfg s.aux us, v.now⟩ := by
        rw [ev] at ho
        simp only [Option.some.injEq] at ho
        exact ho.symm
      have hbl : v.bufLen = us.length * slotSize s.cfg := by rw [ev]
      rw [hun, hcfg] at hg
      have hg' : ¬ (a.fail = false ∧ a.n = us.length * slotSize s.cfg) := by
        intro hh
        simp [Answer.good, hh.1, hh.2] at hg
      have hle : a.n ≤ us.length * slotSize s.cfg := by
        rw [hw] at hn
        simpa using hn
      refine ⟨us, last, hl.final, hl.fast, hl.taken, hl.fits, hl.nonempty, fun hd => (hl.direct hd).1, ?_, ?_, ?_,
        ?_, ?_, ?_, ?_, .inr (.inr ⟨by rw [e]; rfl, by rw [e]; rfl, by rw [e]; rfl, v.now, a, rest, ?_, hle, hg', hnow, hdl,
          ?_, ?_, ?_, ?_⟩)⟩
      · intro hb; have := hl.closed hb
        rw [e]; show _ ∨ _ ∨ v.idx.toNat = _
        rw [ev]; exact this
      · rw [e]; show v.idx.toNat = _
        rw [ev]; exact hl.idx
      · rw [e]; show v.idx.toNat ≤ _
        rw [ev]; exact hl.within
      · rw [e]
        have k := hk.trans (acct_keep (w := w) (a := a) (rest := rest) (u := x) (dv := dv) (dt := dt)
          (by rw [hbl, hcfg]; exact units_region (fun hd => (hl.direct hd).1) hl.fits))
        exact ⟨k.1, k.2, k.3, k.4, k.5, k.6, k.7, k.8, k.9⟩
      · rw [e]; show v.lastSlow = _
        rw [ev]
      · intro hwf
        rw [e]; show Memory.wf (Memory.unspecify v.buf v.bufLen v.draws) = true
        refine Memory.unspecify_wf _ _ _ ?_
        rw [ev]; exact hl.wf hwf
      · intro _; rw [e]; rfl
      · rw [ev] at ha; exact ha
      · rw [e]; exact hx
      · rw [e]; show v.writes ++ [⟨w.bytes, w.issued, x, a.n, a.fail⟩] = _
        rw [hw]
        conv_lhs => rw [ev]
        rfl
      · rw [e]
        show Option.some (respWord (v.done + BitVec.ofNat 14 (a.n / slotSize v.cfg)) .channel) = _
        rw [hcfg, ev]
      · have hls : v.lastSlow = slow last.1 last.2 := by rw [ev]
        have hdv : v.dlValid = false := by rw [ev]
        have h3 := armedAfter_cases harm
        have hu2 : unitsInHand (v.takeAnswer w a rest x) = us.length := hun
        simp only [State.takeAnswer_cfg, State.takeAnswer_now, State.takeAnswer_dlValid, State.takeAnswer_lastSlow,
          hcfg, hu2, hdv, hls] at h3
        rw [e]
        show (dv = true ∧ _ ∧ dt.toNat = x.toNat + _ ∧ _) ∨ (dv = false ∧ _)
        rcases h3 with ⟨h7, h4, h5, h6⟩ | ⟨h4, h5, -⟩
        · refine .inl ⟨h5, ?_, h6, h4⟩
          have := Nat.div_mul_le_self a.n (slotSize s.cfg)
          rw [h7] at this
          omega
        · refine .inr ⟨h5, h4.imp (fun h8 h9 => h8 ?_) id⟩
          rw [h9, Nat.mul_div_cancel _ hpos]

/-- The planned writes begin with the commands of the turn. -/
theorem planned_turn {pairs : BitVec 13} {c : Cfg} {cmds us : List Cmd} {last : Cmd} {i k : Nat}
    (hlen : cmds.length = pairs.toNat) (hev : i % 2 = 0)
    (hfinal : us.getLast? = some last) (hfast : ∀ u ∈ us.dropLast, slow u.1 u.2 = false)
    (htaken : us <+: cmds.drop (i / 2)) (hfits : us.length ≤ slotCount c) (hdirect : c.mode = .direct → us.length = 1)
    (hk : k = i + 2 * us.length)
    (hclosed : c.mode = .batched → slow last.1 last.2 = true ∨ us.length = slotCount c ∨ k = 2 * pairs.toNat) :
    plannedWrites c (cmds.drop (i / 2)) = us :: plannedWrites c (cmds.drop (k / 2)) := by
  obtain ⟨rest, hrest⟩ := htaken
  have hd : cmds.drop (k / 2) = rest := by
    have : k / 2 = i / 2 + us.length := by omega
    rw [this, ← List.drop_drop, ← hrest, List.drop_left]
  rw [hd, ← hrest]
  refine plannedWrites_closed c us rest last hfinal hfast hdirect hfits ?_
  intro hb
  rcases hclosed hb with h | h | h
  · exact .inl h
  · exact .inr (.inl h)
  · refine .inr (.inr ?_)
    rw [← hd, List.drop_eq_nil_iff]
    omega

end Sys2Proof.Machine
end

