-- ==== Sys2Proof/Laws/Goes.lean ====
section
/-! SUPPORT. When the stretches of an `XMIT` go on: the stream is there, the deadline has passed, the channel answers good, the time
does not overflow. -/

namespace Sys2Proof.Machine

/-- A stream that is long enough has the element. -/
theorem element_exists {s : State} {r : Request} {len i : Nat} (hr : s.cur = some r) (hi : i < len)
    (hl : i < r.stream.length) : ∃ d, s.element len i = some d :=
  ⟨r.stream[i], element_eq_some.2 ⟨hi, r, hr, List.getElem?_eq_getElem hl⟩⟩

/-- With the stream there, no slot is refused. -/
theorem packSlot_ne_refuse {pairs : BitVec 13} {s : State} {r : Request} {x : Refusal} (hr : s.cur = some r)
    (hlen : 2 * pairs.toNat ≤ r.stream.length) (hin : s.idx.toNat + 1 < 2 * pairs.toNat) :
    packSlot pairs s ≠ .refuse x := by
  obtain ⟨dh, h1⟩ := element_exists (len := (lenOf pairs).toNat) (i := s.idx.toNat) hr (by rw [lenOf_toNat]; omega) (by omega)
  obtain ⟨dl, h2⟩ := element_exists (len := (lenOf pairs).toNat) (i := s.idx.toNat + 1) hr (by rw [lenOf_toNat]; omega)
    (by omega)
  rcases packSlot_cases pairs s with ⟨_, _, _, _, _, h⟩ | ⟨_, _, _, h⟩ | ⟨h | h, _⟩
  · rw [h]; simp
  · rw [h]; simp
  · rw [h1] at h; simp at h
  · rw [h2] at h; simp at h

theorem packLoop_ne_refuse {pairs : BitVec 13} {n : Nat} {s : State} {r : Request} {x : Refusal} (hr : s.cur = some r)
    (hlen : 2 * pairs.toNat ≤ r.stream.length) (hev : s.idx.toNat % 2 = 0) (hlt : s.idx.toNat < 2 * pairs.toNat) :
    packLoop pairs n s ≠ .refuse x := by
  induction n generalizing s with
  | zero => simp [packLoop]
  | succ n ih =>
    intro h
    rw [packLoop] at h
    have hne := packSlot_ne_refuse (pairs := pairs) (x := x) hr hlen (by omega)
    rcases packSlot_cases pairs s with ⟨dh, dl, _, _, _, h3⟩ | ⟨_, _, _, h3⟩ | ⟨_, h3⟩
    · rw [h3, Flow.go_andThen] at h
      split at h
      · simp at h
      · rename_i hopen
        simp only [batchClosed, Bool.or_eq_true, beq_iff_eq, not_or] at hopen
        have hp := pairs.isLt
        have hidx : (s.idx + 2).toNat = s.idx.toNat + 2 := idx_add_two (n := 2 * pairs.toNat) (by omega) (by omega)
        have hne2 : s.idx.toNat + 2 ≠ 2 * pairs.toNat := by
          intro he
          exact hopen.2 (BitVec.eq_of_toNat_eq (by rw [hidx, lenOf_toNat, he]))
        exact ih (s := { s with
          phase := .pack, idx := s.idx + 2, j := s.j + 1, lastSlow := slow dh dl
          buf := Memory.writeBytes s.buf (s.j * slotSize s.cfg) (slot s.cfg dh dl s.aux) }) hr
          (by simp only [hidx]; omega) (by simp only [hidx]; omega) h
    · rw [h3] at h; simp at h
    · rw [h3] at hne; rw [h3] at h; exact hne (by simpa using h)

/-- With the stream there, packing goes on. -/
theorem xmitPack_goes {pairs : BitVec 13} {s : State} {r : Request} (hc : cfgOk s.cfg = true) (hr : s.cur = some r)
    (hlen : 2 * pairs.toNat ≤ r.stream.length) (hev : s.idx.toNat % 2 = 0) (hlt : s.idx.toNat < 2 * pairs.toNat) :
    ∃ t, xmitPack pairs (startBatch s) = .go t := by
  cases h : xmitPack pairs (startBatch s) with
  | go t => exact ⟨t, rfl⟩
  | stop t => exact absurd h xmitPack_ne_stop
  | fault f => exact absurd h (xmitPack_ne_fault hc)
  | refuse x =>
    exfalso
    unfold xmitPack at h
    rw [startBatch_cfg] at h
    cases hm : s.cfg.mode with
    | direct =>
      simp only [hm, startBatch, xmitPackDirect] at h
      obtain ⟨dh, h1⟩ := element_exists (len := (lenOf pairs).toNat) (i := s.idx.toNat) hr (by rw [lenOf_toNat]; omega)
        (by omega)
      obtain ⟨dl, h2⟩ := element_exists (len := (lenOf pairs).toNat) (i := s.idx.toNat + 1) hr
        (by rw [lenOf_toNat]; omega) (by omega)
      rw [h1, h2] at h
      have hcap := ((cfgOk_iff _).1 hc).2.2.2.2.2.2.1
      simp only at h
      rw [storeBytes_go (by simp; omega)] at h
      simp at h
    | batched =>
      simp only [hm, startBatch, xmitPackBatched] at h
      cases hl : packLoop pairs pairs.toNat (s.setJ 0) with
      | go t => rw [hl] at h; simp at h
      | stop t => rw [hl] at h; simp at h
      | fault f => rw [hl] at h; simp at h
      | refuse y => exact packLoop_ne_refuse (s := s.setJ 0) hr hlen hev hlt hl

/-- When the hold ends at `u`, `WaitDeadline` goes on there. -/
theorem waitDeadline_over {s : State} {u : Time} {ts : List Nat} (h : hold s.holdTarget s.now s.ticks = .over u ts) :
    ∃ dt n, waitDeadline s =
      .go { s with phase := .wait, now := u, ticks := ts, dlValid := false, dlTime := dt, draws := n } := by
  rcases waitDeadline_cases s with ⟨x, xs, h1, -, h3⟩ | ⟨x, xs, h1, h2, h3⟩ | ⟨x, h1, -, h3⟩ | ⟨h1, h3⟩ <;>
    rw [h] at h1 <;> simp only [Hold.over.injEq, reduceCtorEq] at h1
  · obtain ⟨rfl, rfl⟩ := h1; exact ⟨_, _, h3⟩
  · obtain ⟨rfl, rfl⟩ := h1
    exact ⟨s.dlTime, s.draws, by rw [h3, State.toPhase, State.passTo, ← h2]⟩

/-- Accounting is refused only where the settle time that is armed then would overflow. -/
theorem xmitAcct_ne_refuse_of_settle {s : State} {a : Answer} {x : Refusal} (ha : s.ans = some a)
    (h : ∀ settle, settleAfter s = some settle → s.now.toNat + settle.toNat < 2 ^ 64) : xmitAcct s ≠ .refuse x := by
  have key : ∀ (b : Bool) (settle : Time) (good : Bool) (k : Nat), (b = true → settleAfter s = some settle) →
      (armIf b settle s.emptyBuffer).andThen (countUnits good k) ≠ .refuse x := by
    intro b settle good k hs
    cases b with
    | false => cases good <;> simp [armIf, countUnits]
    | true =>
      simp only [armIf, if_true]
      rcases arm_cases settle s.emptyBuffer with ⟨t, -, -, e⟩ | ⟨hbig, -⟩
      · rw [e]; cases good <;> simp [countUnits]
      · have := h settle (hs rfl)
        simp only [State.emptyBuffer] at hbig; omega
  unfold xmitAcct
  cases hm : s.cfg.mode <;> simp only
  · simp only [xmitAcctDirect, ha]
    refine key _ _ _ _ fun _ => ?_
    simp only [settleAfter, hm]
    split <;> rfl
  · simp only [xmitAcctBatched, ha]
    refine key _ _ _ _ fun hb => ?_
    simp only [Bool.and_eq_true] at hb
    simp [settleAfter, hb.2]

/-- Accounting is not refused where the longer settle time fits. -/
theorem xmitAcct_ne_refuse {s : State} {a : Answer} {x : Refusal} (ha : s.ans = some a)
    (h : s.now.toNat + max s.cfg.tSlow.toNat s.cfg.tFast.toNat < 2 ^ 64) : xmitAcct s ≠ .refuse x := by
  refine xmitAcct_ne_refuse_of_settle ha fun settle hs => ?_
  unfold settleAfter at hs
  split at hs
  · simp only [Option.some.injEq] at hs; subst hs; omega
  · split at hs <;> simp only [Option.some.injEq, reduceCtorEq] at hs
    subst hs; omega

/-! ### A run on a good channel -/

/-- Carrying out a plan, one write after the other (`goodRun`): the head of the plan is held till `t`, answered good at `u`, and
leaves the deadline `due'`. -/
theorem goodRun_cons {c : Cfg} {a : Byte} {us : List Cmd} {plan : List (List Cmd)} {due : Option Time} {now : Time}
    {ticks : List Nat} {answers : List Answer} {e : Run} (h : goodRun c a (us :: plan) due now ticks answers = some e) :
    ∃ t left ans rest u due' e', hold (due.getD 0) now ticks = .over t left ∧ answers = ans :: rest ∧
      ans.good (us.length * slotSize c) = true ∧ advance t ans.after = some u ∧ dueAfter c us u = some due' ∧
      goodRun c a plan due' u left rest = some e' ∧
      e = { e' with writes := ⟨writeBytes c a us, t, u, ans.n, ans.fail⟩ :: e'.writes } := by
  cases answers with
  | nil => simp [goodRun] at h
  | cons ans rest =>
    rw [goodRun] at h
    split at h <;> try simp only [reduceCtorEq] at h
    split at h <;> try simp only [reduceCtorEq] at h
    split at h <;> try simp only [reduceCtorEq] at h
    split at h <;> try simp only [reduceCtorEq] at h
    split at h <;> try simp only [reduceCtorEq, Option.some.injEq] at h
    exact ⟨_, _, _, _, _, _, _, ‹_›, rfl, ‹_›, ‹_›, ‹_›, ‹_›, h.symm⟩

end Sys2Proof.Machine
end

