-- ==== Sys2Proof/Laws/History.lean ====
section
/-! SUPPORT. A whole `XMIT`, whatever the channel and the time base do: which writes it has made and what it answers. -/

namespace Sys2Proof.Machine

/-- What an `XMIT` has done at the head of a turn. -/
structure Progress (pairs : BitVec 13) (s0 : State) (cmds : List Cmd) (new : List WriteRec) (s : State) : Prop where
  keep : XKeep s0 s
  even : s.idx.toNat = 2 * s.done.toNat
  within : s.done.toNat ≤ pairs.toNat
  writes : s.writes = s0.writes ++ new
  good : ∀ v ∈ new, v.good = true
  plan : (plannedWrites s0.cfg cmds).map (writeBytes s0.cfg s0.aux) =
    new.map WriteRec.bytes ++ (plannedWrites s0.cfg (cmds.drop s.done.toNat)).map (writeBytes s0.cfg s0.aux)
  confirmed : new.flatMap (confirmed s0.cfg) = (cmds.take s.done.toNat).flatMap (unitBytes s0.cfg s0.aux)
  counted : (new.map fun v => v.n / slotSize s0.cfg).sum = s.done.toNat
  sent : new.flatMap WriteRec.bytes = (cmds.take s.done.toNat).flatMap (unitBytes s0.cfg s0.aux)

/-- A write accepted in full confirms all its units. -/
theorem confirmed_all {c : Cfg} {a : Byte} {us : List Cmd} {i t : Time} {n : Nat} {f : Bool} (h : n = us.length * slotSize c) :
    confirmed c ⟨writeBytes c a us, i, t, n, f⟩ = us.flatMap (unitBytes c a) := by
  have hpos : 0 < slotSize c := by have := slotSize_pos c; omega
  unfold confirmed
  simp only [h, Nat.mul_div_cancel _ hpos]
  rw [List.take_of_length_le (by simp)]; rfl

/-- The first bytes of a write, unit by unit, are those of its first commands. -/
theorem writeBytes_take (c : Cfg) (a : Byte) (us : List Cmd) (k : Nat) :
    (writeBytes c a us).take (k * slotSize c) = writeBytes c a (us.take k) := by
  induction us generalizing k with
  | nil => simp [writeBytes]
  | cons u us ih =>
    cases k with
    | zero => simp [writeBytes]
    | succ k =>
      have hl : (unitBytes c a u).length = slotSize c := unitBytes_length c a u
      show (unitBytes c a u ++ writeBytes c a us).take _ = unitBytes c a u ++ writeBytes c a (us.take k)
      rw [List.take_append, hl, Nat.succ_mul, ← ih]
      congr 1
      · rw [List.take_of_length_le (by omega)]
      · congr 1; omega

/-- A turn that goes on makes progress. -/
theorem progress_go {pairs : BitVec 13} {s0 s t : State} {r : Request} {new : List WriteRec}
    (hc : cfgOk s0.cfg = true) (hr : s0.cur = some r) (hlen : (commands r.stream).length = pairs.toNat)
    (p : Progress pairs s0 (commands r.stream) new s) (hlt : s.idx.toNat < 2 * pairs.toNat)
    (h : xmitFromPack pairs (startBatch s) = .go t) :
    ∃ new', Progress pairs s0 (commands r.stream) new' t ∧ s.idx.toNat + 2 ≤ t.idx.toNat := by
  have hcfg := p.keep.cfg
  have haux := p.keep.aux
  obtain ⟨us, last, g⟩ := turn_go (by rw [hcfg]; exact hc) (by rw [p.keep.cur]; exact hr) (by have := p.even; omega) hlt h
  obtain ⟨issued, a, rest, ha, ha', hf, hn, hi, hd, hnow, hw⟩ := g.sent
  have he := p.even
  have hdone : t.done.toNat = s.done.toNat + us.length := by
    rw [g.done, BitVec.toNat_add, BitVec.toNat_ofNat]
    have := g.within; have := g.idx; have := pairs.isLt
    rw [Nat.mod_eq_of_lt (a := us.length) (by omega), Nat.mod_eq_of_lt (by omega)]
  have h2 : s.idx.toNat / 2 = s.done.toNat := by omega
  have htk := g.taken
  rw [h2] at htk
  rw [hcfg, haux] at hw
  rw [hcfg] at hn
  refine ⟨new ++ [⟨writeBytes s0.cfg s0.aux us, issued, t.now, a.n, a.fail⟩], ?_, by have := g.idx; have := g.some; omega⟩
  constructor
  · exact p.keep.trans g.keep
  · rw [g.idx, hdone]; omega
  · have := g.within; have := g.idx; omega
  · rw [hw, p.writes, List.append_assoc]
  · intro v hv
    rcases List.mem_append.1 hv with hv | hv
    · exact p.good v hv
    · simp only [List.mem_singleton] at hv
      subst hv
      simp [WriteRec.good, hf, hn]
  · have := planned_turn (c := s0.cfg) (i := s.idx.toNat) (k := t.idx.toNat) hlen (by omega) g.final g.fast g.taken
      (by have := g.fits; rwa [hcfg] at this) (by have := g.direct; rwa [hcfg] at this) g.idx
      (by have := g.closed; rwa [hcfg] at this)
    rw [h2, show t.idx.toNat / 2 = t.done.toNat by rw [hdone, g.idx]; omega] at this
    rw [p.plan, this]; simp
  · rw [List.flatMap_append, p.confirmed]
    simp only [List.flatMap_cons, List.flatMap_nil, List.append_nil]
    rw [confirmed_all hn, hdone, List.take_add, List.flatMap_append, ← List.prefix_iff_eq_take.1 htk]
  · simp [p.counted, hn, hdone]
    have hpos : 0 < slotSize s0.cfg := by have := slotSize_pos s0.cfg; omega
    rw [Nat.mul_div_cancel _ hpos]
  · rw [List.flatMap_append, p.sent, hdone, List.take_add, List.flatMap_append, ← List.prefix_iff_eq_take.1 htk]
    simp [writeBytes]

/-- How an `XMIT` with commands ends. -/
structure Ended (pairs : BitVec 13) (s0 : State) (cmds : List Cmd) (new : List WriteRec) (t : State) : Prop where
  writes : t.writes = s0.writes ++ new
  keep : XKeep s0 t
  how :
    (t.phase = .wait ∧ (∀ v ∈ new, v.good = true) ∧
      new.map WriteRec.bytes <+: (plannedWrites s0.cfg cmds).map (writeBytes s0.cfg s0.aux)) ∨
    (t.phase = .write ∧ (∀ v ∈ new, v.good = true) ∧ ∃ o, t.offer = some o ∧
      new.map WriteRec.bytes ++ [o.bytes] <+: (plannedWrites s0.cfg cmds).map (writeBytes s0.cfg s0.aux)) ∨
    (t.phase = .resp ∧ (∀ v ∈ new, v.good = true) ∧
      new.map WriteRec.bytes = (plannedWrites s0.cfg cmds).map (writeBytes s0.cfg s0.aux) ∧
      t.rsp = some (respWord (BitVec.ofNat 14 pairs.toNat) .ok) ∧
      new.flatMap (confirmed s0.cfg) = cmds.flatMap (unitBytes s0.cfg s0.aux)) ∨
    (t.phase = .resp ∧ ∃ (ok : List WriteRec) (bad : WriteRec), new = ok ++ [bad] ∧ (∀ v ∈ ok, v.good = true) ∧
      bad.good = false ∧ new.map WriteRec.bytes <+: (plannedWrites s0.cfg cmds).map (writeBytes s0.cfg s0.aux) ∧
      ∃ d : Count, d.toNat = (new.map fun v => v.n / slotSize s0.cfg).sum ∧ d.toNat ≤ pairs.toNat ∧
        t.rsp = some (respWord d .channel) ∧
        new.flatMap (confirmed s0.cfg) = (cmds.take d.toNat).flatMap (unitBytes s0.cfg s0.aux) ∧
        ∃ (k : Nat) (us : List Cmd), ok.flatMap WriteRec.bytes = (cmds.take k).flatMap (unitBytes s0.cfg s0.aux) ∧
          us <+: cmds.drop k ∧ bad.bytes = writeBytes s0.cfg s0.aux us ∧ bad.n ≤ us.length * slotSize s0.cfg ∧
          d.toNat = k + bad.n / slotSize s0.cfg ∧ us.length ≤ slotCount s0.cfg ∧
          (s0.cfg.mode = .direct → us.length = 1) ∧ t.idx.toNat = 2 * (k + us.length))

/-- A turn that stops ends the operation, or holds it, in one of the ways of `Ended`. -/
theorem ended_stop {pairs : BitVec 13} {s0 s t : State} {r : Request} {new : List WriteRec}
    (hc : cfgOk s0.cfg = true) (hr : s0.cur = some r) (hlen : (commands r.stream).length = pairs.toNat)
    (p : Progress pairs s0 (commands r.stream) new s) (hlt : s.idx.toNat < 2 * pairs.toNat)
    (h : xmitFromPack pairs (startBatch s) = .stop t) :
    ∃ new', Ended pairs s0 (commands r.stream) new' t := by
  have hcfg := p.keep.cfg
  have haux := p.keep.aux
  obtain ⟨us, last, g⟩ := turn_stop (by rw [hcfg]; exact hc) (by rw [p.keep.cur]; exact hr) (by have := p.even; omega) hlt h
  have he := p.even
  have h2 : s.idx.toNat / 2 = s.done.toNat := by omega
  have hplan := planned_turn (c := s0.cfg) (i := s.idx.toNat) (k := t.idx.toNat) hlen (by omega) g.final g.fast g.taken
      (by have := g.fits; rwa [hcfg] at this) (by have := g.direct; rwa [hcfg] at this) g.idx
      (by have := g.closed; rwa [hcfg] at this)
  have hfull : (plannedWrites s0.cfg (commands r.stream)).map (writeBytes s0.cfg s0.aux) =
      new.map WriteRec.bytes ++ (writeBytes s0.cfg s0.aux us :: (plannedWrites s0.cfg ((commands r.stream).drop (t.idx.toNat / 2))).map (writeBytes s0.cfg s0.aux)) := by
    rw [p.plan, ← h2, hplan]; rfl
  have htk := g.taken
  rw [h2] at htk
  rcases g.how with g' | g' | g'
  · refine ⟨new, ⟨?_, p.keep.trans g.keep, .inl ⟨g'.1, p.good, ?_⟩⟩⟩
    · rw [g'.2.2.2.2.2.2.1]; exact p.writes
    · rw [hfull]; exact List.prefix_append _ _
  · obtain ⟨h1, -, -, -, hw, -, -, -, -, -, -, ho⟩ := g'
    refine ⟨new, ⟨?_, p.keep.trans g.keep, .inr (.inl ⟨h1, p.good, _, ho, ?_⟩)⟩⟩
    · rw [hw]; exact p.writes
    · rw [hfull, hcfg, haux]
      exact ⟨_, by simp; rfl⟩
  · obtain ⟨h1, -, -, issued, a, rest, ha, hn, hg, -, -, -, hw, hrsp, -⟩ := g'
    rw [hcfg] at hn hg hw hrsp
    rw [haux] at hw
    have hpos : 0 < slotSize s0.cfg := by have := slotSize_pos s0.cfg; omega
    have hk : a.n / slotSize s0.cfg ≤ us.length := by
      have := Nat.div_le_div_right (c := slotSize s0.cfg) hn
      rwa [Nat.mul_div_cancel _ hpos] at this
    have hd : (s.done + BitVec.ofNat 14 (a.n / slotSize s0.cfg)).toNat = s.done.toNat + a.n / slotSize s0.cfg := by
      rw [BitVec.toNat_add, BitVec.toNat_ofNat]
      have := g.within; have := g.idx; have := pairs.isLt
      rw [Nat.mod_eq_of_lt (a := a.n / slotSize s0.cfg) (by omega), Nat.mod_eq_of_lt (by omega)]
    refine ⟨new ++ [_], ⟨by rw [hw, p.writes, List.append_assoc], p.keep.trans g.keep, .inr (.inr (.inr ⟨h1, new, _, rfl, p.good, ?_, ?_,
      _, ?_, ?_, hrsp, ?_, s.done.toNat, us, p.sent, htk, rfl, hn, hd, ?_, ?_, by have := g.idx; omega⟩))⟩⟩
    · simp [WriteRec.good]; exact fun h3 => fun h4 => hg ⟨h3, h4⟩
    · rw [hfull]; exact ⟨_, by simp; rfl⟩
    · rw [hd]; simp [p.counted]
    · rw [hd]; have := g.within; have := g.idx; omega
    · rw [hd, List.flatMap_append, p.confirmed, List.take_add, List.flatMap_append]
      congr 1
      simp only [List.flatMap_cons, List.flatMap_nil, List.append_nil, confirmed]
      rw [writeBytes_take, writeBytes]
      congr 1
      obtain ⟨l, hl⟩ := htk
      rw [← hl, List.take_append_of_le_length hk]
    · have := g.fits; rwa [hcfg] at this
    · have := g.direct; rwa [hcfg] at this

/-- All that an `XMIT` with commands does when it answers a next state. -/
theorem xmit_ended {pairs : BitVec 13} {s t : State} {r : Request} (hp : pairs ≠ 0) (hr : s.cur = some r)
    (hlen : r.stream.length = 2 * pairs.toNat) (h : execXmit pairs s = .next t) :
    ∃ new, Ended pairs s (commands r.stream) new t := by
  have hc : cfgOk s.cfg = true := by
    simp only [execXmit, Flow.andThen_assoc] at h
    exact beginOp_of_next h
  have hl : (commands r.stream).length = pairs.toNat := by rw [commands_length]; omega
  rw [execXmit_eq hc hp, Flow.outcome_eq_next] at h
  rcases h with h | h
  · exact absurd h xmitLoop_ne_go
  · have hk : XKeep s (s.toPhase .check).startXmit := ⟨rfl, rfl, fun _ => rfl, rfl, rfl, rfl, rfl, rfl, fun _ _ => rfl⟩
    refine xmitLoop_induct (P := fun u => ∃ new, Progress pairs s (commands r.stream) new u)
      (Q := fun u => ∃ new, Ended pairs s (commands r.stream) new u) ?_ ?_ ?_ ?_ (by simp) h
    · rintro u v ⟨new, p⟩ hlt hv
      obtain ⟨new', p', hi⟩ := progress_go hc hr hl p hlt hv
      exact ⟨⟨new', p'⟩, hi⟩
    · rintro u v ⟨new, p⟩ hlt hv
      exact ended_stop hc hr hl p hlt hv
    · rintro u ⟨new, p⟩ hge
      have hd : u.done.toNat = pairs.toNat := by have := p.even; have := p.within; omega
      refine ⟨new, ⟨p.writes, ?_, .inr (.inr (.inl ⟨rfl, p.good, ?_, ?_, ?_⟩))⟩⟩
      · have k := p.keep
        exact ⟨k.1, k.2, k.3, k.4, k.5, k.6, k.7, k.8, k.9⟩
      · rw [p.plan, hd, List.drop_of_length_le (by omega)]; simp
      · simp only [respond]
        rw [← hd, BitVec.ofNat_toNat]; simp
      · rw [p.confirmed, hd, List.take_of_length_le (by omega)]
    · exact ⟨[], ⟨hk, by simp, by simp, by simp, by simp, by simp, by simp, by simp, by simp⟩⟩

end Sys2Proof.Machine
end

