-- ==== Sys2Proof/Laws/PerInstr.lean ====
section
/-! SUPPORT. One statement for every operation as syntax: its header lies in its row of the opcode table (spec/opcode_table.json,
R73). -/

namespace Sys2Proof.Laws.TableRow

/-- The header of a well-formed operation has its row's fixed bits, and its free bits are its operand. -/
def Statement (i : Instr) : Prop :=
  i.wf = true →
    match i with
    | .xinit => encode i &&& 0xFFFF#16 = 0x0001#16
    | .xmit pairs => encode i &&& 0xC001#16 = 0x0000#16 ∧ (encode i).toNat = 2 * pairs.toNat ∧ encode i ≠ 0#16
    | .setrw v => encode i &&& 0xFFFE#16 = 0x4000#16 ∧ (encode i).getLsbD 0 = v
    | .setaux v => encode i &&& 0xFFFE#16 = 0x8000#16 ∧ (encode i).getLsbD 0 = v

theorem xinit : Statement .xinit := fun _ => rfl

theorem xmit (pairs : BitVec 13) : Statement (.xmit pairs) := by
  intro h
  have hn := encode_xmit_toNat pairs
  have hp := pairs.isLt
  refine ⟨?_, hn, ?_⟩
  · refine BitVec.eq_of_getLsbD_eq fun i hi => ?_
    simp only [encode, lenOf, BitVec.getLsbD_and, BitVec.getLsbD_append]
    rcases (by omega : i = 0 ∨ i = 14 ∨ i = 15 ∨ (i ≠ 0 ∧ i < 14)) with rfl | rfl | rfl | ⟨h0, h14⟩
    · rfl
    · rfl
    · rfl
    · have key : ∀ j : Fin 16, j.val ≠ 0 → j.val < 14 → (0xC001#16).getLsbD j.val = false := by decide
      rw [key ⟨i, by omega⟩ h0 h14]
      simp
  · intro hz
    rw [hz] at hn
    have h0 : pairs = 0 := BitVec.eq_of_toNat_eq (by simp at hn; simp; omega)
    simp [Instr.wf, h0] at h

theorem setrw (v : Bool) : Statement (.setrw v) := by
  intro _; cases v <;> decide

theorem setaux (v : Bool) : Statement (.setaux v) := by
  intro _; cases v <;> decide

end Sys2Proof.Laws.TableRow
end

