-- ==== Sys2Proof/Laws/Safety.lean ====
section
/-! SUPPORT. Small lemmas about the terms of Safety.lean: the last command of a write, legal values of `AUX`, the settle times along a
list of writes. -/

namespace Sys2Proof.Machine

/-- The last command of a write can be read off its bytes, up to the lines of `AUX`. -/
theorem lastCmd_writeBytes {c : Cfg} {a : Byte} {us : List Cmd} {last : Cmd} (h : us.getLast? = some last) :
    lastCmd c (writeBytes c a us) = some (last.1 ||| a, last.2 ||| a) := by
  obtain ⟨pre, rfl⟩ := List.getLast?_eq_some_iff.1 h
  have hl : (writeBytes c a (pre ++ [last])).length - slotSize c = (writeBytes c a pre).length := by
    simp [Nat.succ_mul]
  unfold lastCmd
  rw [hl, writeBytes_append, writeBytes_singleton]
  rw [List.getElem?_append_right (by omega), List.getElem?_append_right (by omega)]
  simp only [Nat.sub_self, Nat.add_sub_cancel_left]
  unfold unitBytes
  cases c.mode <;> simp [record, slot, frame]

/-- `LAST_SLOW` fits the bytes of the commands packed. -/
theorem flagged_writeBytes {s : State} {a : Byte} {us : List Cmd} {last : Cmd} (hc : cfgOk s.cfg = true)
    (ha : a &&& ~~~(rwMask s.cfg ||| auxMask s.cfg) = 0) (h : us.getLast? = some last)
    (hl : s.lastSlow = slow last.1 last.2) : flagged s (writeBytes s.cfg a us) :=
  ⟨_, lastCmd_writeBytes h, by rw [hl]; exact slow_or _ _ _ (legalAux_low hc ha)⟩

/-- Setting a line of `AUX` keeps `AUX` legal (R32 a). -/
theorem setLine_legal {c : Cfg} {m a : Byte} {v : Bool} (hm : m = rwMask c ∨ m = auxMask c)
    (ha : a &&& ~~~(rwMask c ||| auxMask c) = 0) : setLine m a v &&& ~~~(rwMask c ||| auxMask c) = 0 := by
  have key : ∀ x y a : Byte, a &&& ~~~(x ||| y) = 0 →
      ∀ v, setLine x a v &&& ~~~(x ||| y) = 0 ∧ setLine y a v &&& ~~~(x ||| y) = 0 := by
    intro x y a h v
    unfold setLine
    constructor <;> cases v <;> simp only [if_true, Bool.false_eq_true, if_false] <;> ext i hi <;>
      (have e1 := congrArg (fun v => v.getLsbD i) h
       simp [hi] at e1 ⊢
       cases hx : x[i] <;> cases hy : y[i] <;> simp_all)
  rcases hm with rfl | rfl
  · exact (key _ _ _ ha v).1
  · exact (key _ _ _ ha v).2

/-- One more write is spaced if it was issued after what the last one owes. -/
theorem spaced_append (c : Cfg) (ws : List WriteRec) (v : WriteRec) :
    spaced c (ws ++ [v]) ↔ spaced c ws ∧ releasedAt c ws ≤ v.issued.toNat := by
  induction ws with
  | nil => simp [spaced, releasedAt]
  | cons w ws ih =>
    cases ws with
    | nil => simp [spaced, releasedAt]
    | cons x ws =>
      simp only [List.cons_append, spaced] at ih ⊢
      rw [ih]
      simp [releasedAt, and_assoc]

theorem releasedAt_append (c : Cfg) (ws : List WriteRec) (v : WriteRec) :
    releasedAt c (ws ++ [v]) = v.answered.toNat + owed c v := by simp [releasedAt]

end Sys2Proof.Machine
end

