-- ==== Sys2Proof/Tests/Slice0.lean ====
section
/-! SUPPORT. The model's own tests. Expected values come from spec/95_test_vectors.md (the vector is named in each test) or are written
out from the tables of spec/30_encoding.md; the last part shows, for every statement that has hypotheses, a state that
meets them. -/

namespace Sys2Proof.Tests

open Sys2Proof.Machine

/-! ### Well-formedness -/

/-- R62, R111: an `XMIT` of no commands is no operation. -/
theorem test_wf_refuses_xmit_of_no_commands : (Instr.xmit 0).wf = false := by decide

theorem test_wf_accepts_each_operation :
    Instr.xinit.wf = true ∧ (Instr.xmit 1).wf = true ∧ (Instr.xmit 8191).wf = true ∧ (Instr.setrw true).wf = true ∧
      (Instr.setaux false).wf = true := by decide

/-! ### Decoding: headers written out bit by bit from R61 to R64 (`OP` in 15:14, `ARG` in 13:0) -/

theorem test_decode_xinit : decode 0b00_00000000000001#16 = .op .xinit := by decide

/-- `LEN` = 10: five commands. -/
theorem test_decode_xmit : decode 0b00_00000000001010#16 = .op (.xmit 5) := by decide

theorem test_decode_setrw :
    decode 0b01_0000000000000_1#16 = .op (.setrw true) ∧ decode 0b01_0000000000000_0#16 = .op (.setrw false) := by decide

theorem test_decode_setaux :
    decode 0b10_0000000000000_1#16 = .op (.setaux true) ∧ decode 0b10_0000000000000_0#16 = .op (.setaux false) := by
  decide

/-- Vectors of section 2.3. -/
theorem test_decode_rejects :
    decode 0x3FFF#16 = .rejected .badLength ∧ decode 0x7FFF#16 = .rejected .illegal ∧
      decode 0x8002#16 = .rejected .illegal ∧ decode 0xFFFF#16 = .rejected .illegal := by decide

/-- R75: the headers of the notation's examples. -/
theorem test_encode_examples :
    encode (.xmit 2) = 0x0004#16 ∧ encode .xinit = 0x0001#16 ∧ encode (.setrw true) = 0x4001#16 ∧
      encode (.setaux false) = 0x8000#16 := by decide

/-! ### One step, from the configurations of section 0 of the vectors -/

/-- CFG_A: direct mode. -/
def cfgA : Cfg := { Config.defaults with mode := .direct, fill := 0, bufCap := 64 }

/-- CFG_B: batched mode, two fillers, four slots. -/
def cfgB : Cfg := { Config.defaults with mode := .batched, fill := 2, bufCap := 32 }

/-- CFG_C: remapped pins, no fillers, two slots. -/
def cfgC : Cfg := { Config.defaults with eBit := 6, rwBit := 5, auxBit := 4, fill := 0, bufCap := 12 }

/-- A state in `READY` with one request presented, the channel's answers and the draws of time given. -/
def start (c : Cfg) (hdr : Header) (stream : List Byte) (answers : List Answer) (ticks : List Nat) : State :=
  { State.reset with cfg := c, requests := [⟨0, hdr, stream⟩], answers := answers, ticks := ticks }

/-- What a step leaves of interest: the response, `AUX`, the scheduler, and the writes. -/
def seen (s : State) : Option (Option RespWord × Byte × Bool × List (List Byte)) :=
  match step s with
  | .next t => some (t.rsp, t.aux, t.dlValid, t.writes.map WriteRec.bytes)
  | _ => none

/-- The deadline a step leaves. -/
def deadline (s : State) : Option Time :=
  match step s with
  | .next t => some t.dlTime
  | _ => none

/-- XI2: `XINIT 0x1` is not classified: `T_INIT` is armed. -/
theorem test_xinit_arms_init :
    seen (start cfgB 0x0001 [0x01] [⟨30, 3, false⟩] []) = some (some 0x0001, 0x00, true, [[0x01, 0x11, 0x01]]) ∧
      deadline (start cfgB 0x0001 [0x01] [⟨30, 3, false⟩] []) = some 5030 := by decide

/-- R26: `DONE` is 0 while an `XINIT` is held, whatever it was before. -/
theorem test_xinit_done_starts_at_zero :
    (match step { start cfgB 0x0001 [0x03] [] [] with done := 7 } with
      | .next t => some (t.phase, t.done)
      | _ => none) = some (.write, 0) := by decide

/-- XI5: a short count confirms nothing and arms nothing. -/
theorem test_xinit_short :
    seen (start cfgB 0x0001 [0x03] [⟨20, 2, false⟩] []) = some (some 0x8000, 0x00, false, [[0x03, 0x13, 0x03]]) := by
  decide

/-- V1: two commands in direct mode, the second after the long deadline. -/
theorem test_xmit_direct :
    seen (start cfgA 0x0004 [0x00, 0x01, 0x02, 0x08] [⟨60, 6, false⟩, ⟨60, 6, false⟩] [0, 16000]) =
        some (some 0x0002, 0x00, true,
          [[0x00, 0x10, 0x00, 0x01, 0x11, 0x01], [0x02, 0x12, 0x02, 0x08, 0x18, 0x08]]) ∧
      deadline (start cfgA 0x0004 [0x00, 0x01, 0x02, 0x08] [⟨60, 6, false⟩, ⟨60, 6, false⟩] [0, 16000]) =
        some 16170 := by decide

/-- BM5: all real bytes of the slow command are accepted but not its fillers: it is not confirmed. -/
theorem test_xmit_batched_short :
    seen (start cfgB 0x0006 [0x02, 0x08, 0x00, 0x0C, 0x00, 0x01] [⟨220, 22, false⟩] []) =
      some (some 0x8002, 0x00, false,
        [[0x02, 0x12, 0x02, 0x08, 0x18, 0x08, 0x00, 0x00, 0x00, 0x10, 0x00, 0x0C, 0x1C, 0x0C, 0x00, 0x00,
          0x00, 0x10, 0x00, 0x01, 0x11, 0x01, 0x00, 0x00]]) := by decide

/-- P4, write 1: the whole batch of four slots is offered, 19 bytes of it are accepted. -/
theorem test_xmit_batch_offered_whole :
    seen (start cfgB 0x000A [0x00, 0x06, 0x00, 0x0C, 0x08, 0x00, 0x04, 0x04, 0x04, 0x05] [⟨190, 19, false⟩] []) =
      some (some 0x8002, 0x00, false,
        [[0x00, 0x10, 0x00, 0x06, 0x16, 0x06, 0x00, 0x00, 0x00, 0x10, 0x00, 0x0C, 0x1C, 0x0C, 0x00, 0x00,
          0x08, 0x18, 0x08, 0x00, 0x10, 0x00, 0x00, 0x00, 0x04, 0x14, 0x04, 0x04, 0x14, 0x04, 0x00, 0x00]]) := by decide

/-- R91: time passes while Idle. Two fast commands with one slot a batch: the first write is answered at 80, and the time base
has grown by 5 more when the second is issued. The draws are events from outside after reset. -/
theorem test_time_passes_while_idle :
    (match [Input.request ⟨0, 0x0004, [0x00, 0x06, 0x00, 0x0C]⟩, .answer ⟨80, 8, false⟩, .tick 0, .tick 5].foldlM
        (fun s e => s.input e) { State.reset with cfg := { cfgB with bufCap := 8 } } with
      | some s => match step s with
        | .next t => some (t.dlValid, t.offer.map Offer.issued)
        | _ => none
      | none => none) = some (false, some 85) := by decide

/-- AX2: the other line keeps its level. -/
theorem test_setrw_sets :
    seen { start cfgA 0x4001 [] [⟨10, 1, false⟩] [] with aux := 0x80 } = some (some 0x0000, 0xA0, false, [[0xA0]]) := by
  decide

/-- AX6, third request, under the remapped configuration. -/
theorem test_setrw_clears_remapped :
    seen { start cfgC 0x4000 [] [⟨10, 1, false⟩] [] with aux := 0x30 } = some (some 0x0000, 0x10, false, [[0x10]]) := by
  decide

/-- AX7: the register keeps its new value when the write fails. -/
theorem test_setaux_failed :
    seen (start cfgB 0x8001 [] [⟨0, 0, true⟩] []) = some (some 0x8000, 0x80, false, [[0x80]]) := by decide

/-- AX8: no hold, and the deadline stays. -/
theorem test_setaux_while_armed :
    seen { start cfgA 0x8001 [] [⟨10, 1, false⟩] [] with dlValid := true, dlTime := 17060, now := 1060 } =
        some (some 0x0000, 0x80, true, [[0x80]]) ∧
      deadline { start cfgA 0x8001 [] [⟨10, 1, false⟩] [] with dlValid := true, dlTime := 17060, now := 1060 } =
        some 17060 := by decide

/-! ### The host's probe: each row's word is decoded, and is what the next step runs -/

theorem test_table_words :
    decodeTableWord 16 0x0001 = some .xinit ∧ decodeTableWord 16 0x0002 = some (.xmit 1) ∧
      decodeTableWord 16 0x4000 = some (.setrw false) ∧ decodeTableWord 16 0x8001 = some (.setaux true) ∧
      decodeTableWord 16 0x0000 = none := by decide

/-- The request is taken and its operation is held in `WRITE`, the channel not answering. -/
theorem test_fetch_runs_the_word :
    (match step (State.reset.withFetchWord 16 0x0006) with
      | .next t => some (t.phase, t.idx, t.bufLen)
      | _ => none) = some (.write, 2, 8) ∧
    (match step (State.reset.withFetchWord 16 0x4001) with
      | .next t => some (t.phase, t.aux)
      | _ => none) = some (.write, 0x20) := by decide

/-! ### Witnesses: states that meet the hypotheses of the statements -/

/-- `XINIT 0x03` in progress, held in `WAIT`, Armed with the deadline 500, the time 100. -/
def waiting : State :=
  { State.reset with
    cfg := cfgB, phase := .wait, cur := some ⟨0, 0x0001, [0x03]⟩, bufLen := 3
    buf := [(0, 0x03), (1, 0x13), (2, 0x03)], dlValid := true, dlTime := 500, now := 100 }

/-- The same once its write is offered, with the answers to come. -/
def writing (answers : List Answer) : State :=
  { State.reset with
    cfg := cfgB, answers := answers, phase := .write, cur := some ⟨0, 0x0001, [0x03]⟩, bufLen := 3
    buf := [(0, 0x03), (1, 0x13), (2, 0x03)], now := 500, offer := some ⟨[0x03, 0x13, 0x03], 500⟩ }

/-- `waiting` meets the invariant. -/
theorem witness_inv : Inv waiting where
  config := by decide
  aux := by decide
  within := by decide
  empty := by simp [waiting]
  buf := by decide
  phase := by simp [waiting]
  idle := by simp [waiting]
  busy := fun _ => ⟨⟨0, 0x0001, [0x03]⟩, .xinit, rfl, by decide, rfl, rfl, fun _ => ⟨0x03, rfl, by decide⟩,
    by simp [waiting, State.reset], by simp [waiting]⟩
  offered := by simp [waiting]
  quiet := fun _ => rfl
  accounted := rfl
  responds := by simp [waiting, State.reset]

/-- `writing` meets it too. -/
theorem witness_inv_writing (answers : List Answer) : Inv (writing answers) where
  config := rfl
  aux := BitVec.zero_and
  within := by show 3 ≤ 32; decide
  empty := by simp [writing]
  buf := rfl
  phase := by simp [writing]
  idle := by simp [writing]
  busy := fun _ => ⟨⟨0, 0x0001, [0x03]⟩, .xinit, rfl, by decide, rfl, rfl, by simp [writing],
    by simp [writing], fun _ => rfl⟩
  offered := fun _ => ⟨_, rfl, by simp, by show 500#64 ≤ 500#64; decide⟩
  quiet := by simp [writing]
  accounted := rfl
  responds := by simp [writing, State.reset]

theorem witness_settled : Settled waiting := by
  constructor <;> simp [waiting, State.reset, spaced, releasedAt]

/-- A next state with a property that can be computed. -/
theorem next_with {o : Host.Outcome State Fault Refusal} {f : State → Bool}
    (h : (match o with
      | .next t => f t
      | _ => false) = true) : ∃ t, o = .next t ∧ f t = true := by
  cases o with
  | next t => exact ⟨t, rfl, h⟩
  | fault r => simp at h
  | refused r => simp at h

theorem witness_settled_writing (answers : List Answer) : Settled (writing answers) := by
  constructor <;> simp [writing, State.reset, spaced, releasedAt]

theorem answered : ∃ t, step (writing [⟨30, 3, false⟩]) = .next t ∧
    (t.phase == .resp && t.writes.length == 1) = true :=
  next_with (f := fun t => t.phase == .resp && t.writes.length == 1) (by decide)

/-- For StepKeepsTheInvariant, StepKeepsSettleTimes, NoStepFaults, WritesAreOnlyAppended: a write is answered. -/
theorem witness_step_of_inv :
    ∃ s : State, Inv s ∧ Settled s ∧ s.rst = false ∧
      ∃ t, step s = .next t ∧ (t.phase == .resp && t.writes.length == 1) = true :=
  ⟨writing [⟨30, 3, false⟩], witness_inv_writing _, witness_settled_writing _, rfl, answered⟩

/-- For TimeNeverDecreases and ConfigurationNeverChanges. -/
theorem witness_step : ∃ t, step waiting = .next t := ⟨_, rfl⟩

/-- For InputsKeepTheInvariants: each kind of event. -/
theorem witness_inputs :
    (waiting.input (.request ⟨0, 0x4001, []⟩)).isSome = true ∧ (waiting.input (.answer ⟨0, 3, false⟩)).isSome = true ∧
      (waiting.input (.pass 400)).isSome = true ∧ (waiting.input (.tick 400)).isSome = true ∧ (waiting.input (.rst true)).isSome = true ∧
      (waiting.input (.rspReady false)).isSome = true ∧ Inv waiting ∧ Settled waiting :=
  ⟨rfl, rfl, by decide, rfl, rfl, rfl, witness_inv, witness_settled⟩

/-- For ResetLeavesBlockIdleAndSilent and ResetDuringAnOperationIsRefused. -/
theorem witness_reset :
    (cfgOk cfgB = true ∧ { State.reset with cfg := cfgB, rst := true }.phase = .ready) ∧
      cfgOk { waiting with rst := true }.cfg = true ∧ { waiting with rst := true }.phase ≠ .ready := by decide

/-- For IllFormedConfigurationIsRefused: two roles on one bit; no room for a slot. -/
theorem witness_ill_formed :
    cfgOk { cfgB with rwBit := 4 } = false ∧ cfgOk { cfgB with bufCap := 7 } = false ∧ cfgOk { cfgB with bufCap := 8 } = true ∧
      cfgOk { cfgA with bufCap := 6 } = true ∧ cfgOk { cfgA with bufCap := 5 } = false := by decide

/-- For DecodeOfEncodeIsTheOperation and EncodeOfDecodeIsTheHeader. -/
theorem witness_encoding : (Instr.xmit 8191).wf = true ∧ decode 0x3FFE#16 = .op (.xmit 8191) := by decide

/-- For StepRunsTheDecodedOperation; and, clause by clause, IllegalHeaderIsAnswered and BadLengthIsAnswered. -/
theorem witness_requests :
    cfgOk cfgB = true ∧ advance (start cfgB 0x0001 [0x03] [] []).now 0 = some 0 ∧ decode 0x0001#16 = .op .xinit ∧
      (0xC000#16).extractLsb' 14 2 = 0b11#2 ∧
      ((0x8002#16).extractLsb' 14 2 ≠ 0b00#2 ∧ (0x8002#16).extractLsb' 1 13 ≠ 0) ∧
      ((0x0000#16).toNat < 2 ^ 14 ∧ (0x0000#16).toNat = 0) ∧
      ((0x3FFF#16).toNat < 2 ^ 14 ∧ 3 ≤ (0x3FFF#16).toNat ∧ (0x3FFF#16).toNat % 2 = 1) ∧
      ((0x0003#16).toNat < 2 ^ 14 ∧ 3 ≤ (0x0003#16).toNat ∧ (0x0003#16).toNat % 2 = 1) := by decide

/-- For RequestsAreTakenOnlyInReady: a step in `WAIT`, a step that takes the first of two requests, a step with none. -/
theorem witness_taking :
    (∃ t, step waiting = .next t ∧ waiting.phase ≠ .ready) ∧
    (∃ t, step { State.reset with cfg := cfgB, requests := [⟨0, 0x4001, []⟩, ⟨0, 0x8001, []⟩] } = .next t) ∧
    ({ State.reset with cfg := cfgB }.requests = [] ∧ cfgOk cfgB = true) :=
  ⟨⟨_, rfl, by decide⟩, ⟨_, rfl⟩, rfl, by decide⟩

/-- For ResponseEndsTheRequest, both clauses. -/
theorem witness_response :
    ∃ s : State, cfgOk s.cfg = true ∧ s.rst = false ∧ s.phase = .resp ∧ s.rsp = some 0x0001#16 ∧ s.rspReady = true ∧
      { s with rspReady := false }.rspReady = false :=
  ⟨{ State.reset with cfg := cfgB, phase := .resp, rsp := some 0x0001 }, by decide⟩

/-- For FrameDecodesToItsElement and EnableIsHighOnlyMidFrame: elements with the caller's free bit, both lines of `AUX` set. -/
theorem witness_elements :
    cfgOk cfgB = true ∧ elemOk cfgB 0x4F ∧ elemOk cfgB 0x48 ∧
      (0xA0#8) &&& ~~~(rwMask cfgB ||| auxMask cfgB) = 0 := by
  refine ⟨by decide, ?_, ?_, by decide⟩ <;> (unfold elemOk; decide)

/-- For WaitDeadlineHoldsUntilTheDeadline: it returns exactly at the deadline, it holds one tick short of it, it returns at once. -/
theorem witness_wait :
    hold waiting.holdTarget waiting.now [399, 1] = .over 500 [] ∧ hold waiting.holdTarget waiting.now [399] = .held 499 ∧
      waiting.dlValid = true ∧ waiting.dlTime ≤ { waiting with now := 500 }.now := by decide

/-- For ArmSetsTheDeadline: the last instant that fits, and the first that does not. -/
theorem witness_arm :
    (0xFFFFFFFFFFFFFFFE#64).toNat + (1#64).toNat < 2 ^ 64 ∧ 2 ^ 64 ≤ (0xFFFFFFFFFFFFFFFF#64).toNat + (1#64).toNat := by
  decide

/-- For SetrwWritesTheReadWriteLine and SetauxWritesTheAuxiliaryLine: a good answer and a short one. -/
theorem witness_aux :
    cfgOk cfgB = true ∧ (1 : Nat) ≤ 1 ∧ (0 : Nat) ≤ 1 ∧ advance 100 10 = some 110 := by decide

/-- For XinitSendsOneFrameAndArms: Armed and Idle, a full count and a short one. -/
theorem witness_xinit :
    cfgOk cfgB = true ∧ waiting.cur = some ⟨0, 0x0001, [0x03]⟩ ∧
      hold (if waiting.dlValid then waiting.dlTime else 0) waiting.now [450] = .over 550 [] ∧
      hold (if State.reset.dlValid then State.reset.dlTime else 0) State.reset.now [] = .over 0 [] ∧
      advance 550 30 = some 580 ∧ (580#64).toNat + cfgB.tInit.toNat < 2 ^ 64 := by decide

/-- For XinitIsHeldByTheDeadline. -/
theorem witness_xinit_held :
    cfgOk waiting.cfg = true ∧ waiting.dlValid = true ∧ hold waiting.dlTime waiting.now waiting.ticks = .held 100 := by decide

/-- A transmit request taken: two commands, the first slow. -/
def sending (c : Cfg) (answers : List Answer) (ticks : List Nat) : State :=
  { State.reset with
    cfg := c, phase := .check, cur := some ⟨0, 0x0004, [0x00, 0x01, 0x02, 0x08]⟩, answers := answers, ticks := ticks }

/-- For XmitCompletesOnAGoodChannel: one state for each kind of hold. V1 (direct mode, draws 0 and 16 000); batched mode from
Idle, at once, with no draws; Armed at the start, held over two looks; a channel too slow to be waited for. -/
theorem witness_xmit_good :
    (∃ s : State, cfgOk s.cfg = true ∧ (2 : BitVec 13) ≠ 0 ∧ s.cur = some ⟨0, 0x0004, [0x00, 0x01, 0x02, 0x08]⟩ ∧
      (commands [0x00, 0x01, 0x02, 0x08]).getLast? = some ((0x02, 0x08) : Cmd) ∧
      (goodRun s.cfg s.aux (plannedWrites s.cfg (commands [0x00, 0x01, 0x02, 0x08]))
        (if s.dlValid then some s.dlTime else none) s.now s.ticks s.answers).map Run.now = some 16120) ∧
    (∃ s : State, cfgOk s.cfg = true ∧ s.cur = some ⟨0, 0x0002, [0x00, 0x06]⟩ ∧ s.ticks = [] ∧
      (goodRun s.cfg s.aux (plannedWrites s.cfg (commands [0x00, 0x06]))
        (if s.dlValid then some s.dlTime else none) s.now s.ticks s.answers).map Run.now = some 80) ∧
    (∃ s : State, cfgOk s.cfg = true ∧ s.cur = some ⟨0, 0x0002, [0x00, 0x06]⟩ ∧ s.dlValid = true ∧
      (goodRun s.cfg s.aux (plannedWrites s.cfg (commands [0x00, 0x06]))
        (if s.dlValid then some s.dlTime else none) s.now s.ticks s.answers).map Run.now = some 1080) ∧
    goodRun cfgB 0x00 [[(0x00, 0x06)]] none 0 [] [⟨2 ^ 64, 8, false⟩] = none :=
  ⟨⟨sending cfgA [⟨60, 6, false⟩, ⟨60, 6, false⟩] [0, 16000], by decide⟩,
    ⟨{ sending cfgB [⟨80, 8, false⟩] [] with cur := some ⟨0, 0x0002, [0x00, 0x06]⟩ }, by decide⟩,
    ⟨{ sending cfgB [⟨80, 8, false⟩] [600, 400] with
        cur := some ⟨0, 0x0002, [0x00, 0x06]⟩, dlValid := true, dlTime := 1000 }, by decide⟩, by decide⟩

/-- For XmitWritesFollowThePlan and XmitFrame: held in `WAIT`, held in `WRITE`, ended well, ended by a short write. -/
theorem witness_xmit_ends :
    (∃ t, exec (.xmit 2) (sending cfgA [⟨60, 6, false⟩] [0]) = .next t ∧ t.phase = .wait) ∧
    (∃ t, exec (.xmit 2) (sending cfgA [] []) = .next t ∧ t.phase = .write) ∧
    (∃ t, exec (.xmit 2) (sending cfgA [⟨60, 6, false⟩, ⟨60, 6, false⟩] [0, 16000]) = .next t ∧ t.phase = .resp ∧
      t.rsp = some (respWord 2 .ok)) ∧
    (∃ t, exec (.xmit 2) (sending cfgA [⟨60, 6, false⟩, ⟨40, 4, false⟩] [0, 16000]) = .next t ∧ t.phase = .resp ∧
      t.rsp = some (respWord 1 .channel)) :=
  ⟨⟨_, rfl, rfl⟩, ⟨_, rfl, rfl⟩, ⟨_, rfl, rfl, rfl⟩, ⟨_, rfl, rfl, rfl⟩⟩

/-- For SlowCommandClosesItsBatch and ConfirmedUnitsAreTheFirstDone: a batched request that wrote something. -/
theorem witness_batch :
    ∃ (t : State) (new : List WriteRec),
      exec (.xmit 2) (sending cfgB [⟨80, 8, false⟩, ⟨80, 8, false⟩] [0, 16000]) = .next t ∧ t.phase = .resp ∧
        t.writes = [] ++ new ∧ new.length = 2 :=
  ⟨_, _, rfl, rfl, rfl, rfl⟩

/-- For ErrorsArePreciseAtCommandGranularity: P4, the channel accepts 19 of 32 bytes; BM6, a failure with a full count. -/
theorem witness_precise :
    (∃ (t : State) (new : List WriteRec),
      exec (.xmit 5) { sending cfgB [⟨190, 19, false⟩] [] with
        cur := some ⟨0, 0x000A, [0x00, 0x06, 0x00, 0x0C, 0x08, 0x00, 0x04, 0x04, 0x04, 0x05]⟩ } = .next t ∧
        t.phase = .resp ∧ t.writes = [] ++ new ∧ t.rsp = some (respWord 2 .channel) ∧ (wire new).length = 19 ∧
        (new.flatMap WriteRec.bytes).length = 32 ∧ t.idx = 8 ∧
        (new.flatMap WriteRec.presented).length = 20) ∧
    (∃ (t : State) (new : List WriteRec),
      exec (.xmit 3) { sending cfgB [⟨240, 24, true⟩] [] with
        cur := some ⟨0, 0x0006, [0x02, 0x08, 0x00, 0x0C, 0x00, 0x01]⟩ } = .next t ∧
        t.phase = .resp ∧ t.writes = [] ++ new ∧ t.rsp = some (respWord 3 .channel) ∧ (wire new).length = 24) :=
  ⟨⟨_, _, rfl, rfl, rfl, rfl, rfl, rfl, rfl, rfl⟩, ⟨_, _, rfl, rfl, rfl, rfl, rfl⟩⟩

/-- For RetryOfTheSuffixRebuildsTheStream: the second write is short; the second command is sent again, `AUX` having been
changed in between. -/
theorem witness_retry :
    (∃ (t : State) (new : List WriteRec),
      exec (.xmit 2) (sending cfgA [⟨60, 6, false⟩, ⟨40, 4, false⟩] [0, 16000]) = .next t ∧ t.phase = .resp ∧
        t.writes = [] ++ new ∧ t.rsp = some (respWord 1 .channel)) ∧
    (1#14).toNat < (2#13).toNat ∧ (1#13).toNat = (2#13).toNat - (1#14).toNat ∧
    ([0x02, 0x08] : List Byte) = [0x00, 0x01, 0x02, 0x08].drop (2 * (1#14).toNat) ∧
    ∃ (t' : State) (new' : List WriteRec),
      exec (.xmit 1) { sending cfgA [⟨60, 6, false⟩] [] with
        aux := 0x80, cur := some ⟨0, 0x0002, [0x02, 0x08]⟩ } = .next t' ∧
        t'.phase = .resp ∧ t'.writes = [] ++ new' ∧ t'.rsp = some (respWord 1 .ok) :=
  ⟨⟨_, _, rfl, rfl, rfl, rfl⟩, by decide, by decide, by decide, ⟨_, _, rfl, rfl, rfl, rfl⟩⟩

/-- For ConfirmedUnitsArmByTheTable: all units confirmed and slow; and only some. -/
theorem witness_account :
    ∃ s : State, s.ans = some ⟨0, 16, false⟩ ∧ unitsInHand s = 2 ∧ slotSize s.cfg = 8 ∧ s.lastSlow = true ∧
      s.now.toNat + max s.cfg.tSlow.toNat s.cfg.tFast.toNat < 2 ^ 64 ∧ 15 / slotSize s.cfg ≠ unitsInHand s :=
  ⟨{ State.reset with cfg := cfgB, j := 2, lastSlow := true, ans := some ⟨0, 16, false⟩ }, by decide⟩

/-- For TransmitEndsWithAnEmptyBuffer and XinitFrame. -/
theorem witness_xinit_ends :
    ∃ t, exec .xinit { waiting with answers := [⟨30, 3, true⟩], ticks := [400] } = .next t ∧ t.phase = .resp :=
  ⟨_, rfl, rfl⟩

/-- For AuxiliaryOperationsFrame: held and finished. -/
theorem witness_aux_frame :
    (∃ t, exec (.setrw true) State.reset = .next t ∧ t.phase = .write) ∧
    (∃ t, exec (.setaux true) { State.reset with answers := [⟨10, 1, false⟩] } = .next t ∧ t.phase = .resp) :=
  ⟨⟨_, rfl, rfl⟩, ⟨_, rfl, rfl⟩⟩

/-- For AnswerAboveTheOfferIsRefused, UnansweredWriteHangs and LateAnswersResumeTheOperation. -/
theorem witness_write :
    ((writing []).offer = some ⟨[0x03, 0x13, 0x03], 500⟩ ∧ [0x03#8, 0x13#8, 0x03#8].length < 4) ∧
    (cfgOk (writing []).cfg = true ∧ (writing []).rst = false ∧ (writing []).phase = .write ∧ decode 0x0001#16 = .op .xinit ∧
      (writing []).answers = []) ∧
    ∃ t, exec .xinit { waiting with ticks := [400] } = .next t ∧ t.phase = .write :=
  ⟨by decide, by decide, ⟨_, rfl, rfl⟩⟩

/-- For HeldTransmitGoesOnWhenTheDeadlineHasCome: one tick short of the deadline, and at it. -/
theorem witness_held :
    waiting.ticks = [] ∧ Memory.readBytes waiting.buf 0 waiting.bufLen = [0x03, 0x13, 0x03] ∧
      { waiting with now := 499 }.now < waiting.dlTime ∧ waiting.dlTime ≤ { waiting with now := 500 }.now ∧
      waiting.answers = [] := by decide

/-- For LateTimeResumesTheOperation: an `XINIT` from its start, held in `WAIT`; and a time that passes then. -/
theorem witness_late_time :
    ∃ t, exec .xinit { waiting with phase := .check } = .next t ∧ t.phase = .wait ∧ t.rst = false ∧
      advance t.now 400 = some 500 :=
  ⟨_, rfl, rfl, rfl, by decide⟩

/-- For TimeAdvancesFreelyAtEachLook: at the deadline, past it, and Idle at `now` and past it. -/
theorem witness_free_time :
    waiting.ticks = [] ∧ waiting.answers = [] ∧ waiting.phase = .wait ∧ decode 0x0001#16 = .op .xinit ∧
      waiting.now ≤ 500 ∧ waiting.dlTime ≤ 500 ∧ waiting.dlTime ≤ 9000 ∧
      State.reset.ticks = [] ∧ State.reset.dlValid = false ∧ State.reset.now ≤ 0 ∧ State.reset.now ≤ 7 := by decide

/-- For ElementsBeyondLenAreNotRead: the stream has its one element; from the start, and held in `WAIT`. -/
theorem witness_beyond_len :
    payloadLen (encode .xinit) = 1 ∧ payloadLen (encode (.xmit 8191)) = 16382 ∧ payloadLen (encode (.setrw true)) = 0 ∧
      waiting.cur = some ⟨0, 0x0001, [0x03]⟩ ∧ waiting.phase = .wait ∧ decode 0x0001#16 = .op .xinit := by decide

/-- For DefaultSettleTimesForEveryTick: a tick of two thirds of a microsecond, one that lasts longer than the time, and the
longest time in ticks of 1 µs that fits. -/
theorem witness_tick :
    16000 * (⟨2, 3⟩ : Tick).den ≤ (2 ^ 64 - 1) * (⟨2, 3⟩ : Tick).num ∧
      (2 ^ 64 - 1) * (⟨1, 1⟩ : Tick).den ≤ (2 ^ 64 - 1) * (⟨1, 1⟩ : Tick).num ∧ Config.ticksOfMicros ⟨2, 3⟩ 16000 = 24000 ∧
      Config.ticksOfMicros ⟨60000, 1⟩ 50 = 1 := by decide

end Sys2Proof.Tests
end

namespace Sys2Proof.Machine

/-! ## Scope: the configuration, the inputs and the time base (00_scope.md) -/

/-! ### The advance of time is free (R9, R91) -/

/-- Between two instants lies a number of ticks that leads from the one to the other. -/
theorem advance_sub {now u : Time} (h : now ≤ u) : advance now (u.toNat - now.toNat) = some u := by
  have hle : now.toNat ≤ u.toNat := h
  exact advance_eq_some.2 ⟨by have := u.isLt; omega, by omega⟩

/-- An instant that is not before the deadline, when there is one, is not before the target of the hold. -/
theorem holdTarget_le {s : State} {u : Time} (h : s.dlValid = true → s.dlTime ≤ u) : s.holdTarget ≤ u := by
  unfold State.holdTarget
  split
  · exact h ‹_›
  · exact Nat.zero_le _

/-- One draw ends the hold at any instant `u` that R91 and R104 allow. -/
theorem waitDeadline_tick {s : State} {u : Time} (hts : s.ticks = []) (hnow : s.now ≤ u)
    (hdl : s.dlValid = true → s.dlTime ≤ u) :
    ∃ d dt n, waitDeadline { s with ticks := s.ticks ++ [d] } =
      .go { s with phase := .wait, now := u, ticks := [], dlValid := false, dlTime := dt, draws := n } := by
  have ends : hold s.holdTarget s.now (s.ticks ++ [u.toNat - s.now.toNat]) = .over u [] := by
    rw [hts]
    exact hold_first (advance_sub hnow) (holdTarget_le hdl)
  exact ⟨_, waitDeadline_over (s := { s with ticks := s.ticks ++ [u.toNat - s.now.toNat] }) ends⟩

/-- A step in `WAIT`, `WRITE` or a phase passed within a step is the operation in progress going on. -/
theorem step_eq_resumeOp {s : State} {r : Request} {i : Instr} (hc : cfgOk s.cfg = true) (hrst : s.rst = false)
    (hready : s.phase ≠ .ready) (hresp : s.phase ≠ .resp) (hcur : s.cur = some r) (hd : decode r.hdr = .op i) :
    step s = resumeOp i s := by
  have go : resume s = resumeOp i s := by simp only [resume, hcur, hd]
  unfold step
  rw [if_pos hc, hrst, if_neg Bool.false_ne_true]
  split
  · contradiction
  · contradiction
  · exact go

/-- A transmit in `WAIT` whose hold ends issues its buffer; with no answer to come it is held in `WRITE`. -/
theorem resumeOp_wait_offers {i : Instr} {s t : State} (hi : i = .xinit ∨ ∃ pairs, i = .xmit pairs)
    (hp : s.phase = .wait) (hgo : waitDeadline s = .go t) (hans : t.answers = []) :
    resumeOp i s = .next (t.putOffer (Memory.readBytes t.buf 0 t.bufLen)) := by
  have held := awaitAnswer_held (s := t.putOffer (Memory.readBytes t.buf 0 t.bufLen)) hans
  rcases hi with rfl | ⟨pairs, rfl⟩
  · simp [resumeOp, resumeXinit, hp, xinitFromWait, xinitFromWrite, hgo, held]
  · simp [resumeOp, resumeXmit, hp, xmitFromWait, xmitFromWrite, hgo, held]

/-- Draws added one after the other stand in order behind those that were there. -/
theorem foldlM_input_tick (s : State) (ds : List Nat) :
    ds.foldlM (fun (v : State) d => v.input (.tick d)) s = some { s with ticks := s.ticks ++ ds } := by
  induction ds generalizing s with
  | nil => simp
  | cons d ds ih =>
    rw [List.foldlM_cons]
    show ds.foldlM _ { s with ticks := s.ticks ++ [d] } = _
    rw [ih, List.append_assoc, List.singleton_append]

/-- Settles O52: the one draw that ends the hold at the chosen instant is the number of ticks from now to it. -/
theorem timeAdvancesFreelyAtEachLook : Obligations.TimeAdvancesFreelyAtEachLook := by
  unfold Obligations.TimeAdvancesFreelyAtEachLook
  refine ⟨?_, ?_, foldlM_input_tick⟩
  · intro s u hts hnow hdl
    obtain ⟨d, dt, n, hgo⟩ := waitDeadline_tick hts hnow hdl
    exact ⟨d, _, _, rfl, hgo, rfl, rfl, rfl⟩
  · intro s r i u hc hrst hp hcur hd hi hts hans hnow hdl
    obtain ⟨d, dt, n, hgo⟩ := waitDeadline_tick hts hnow hdl
    have hstep := step_eq_resumeOp (s := { s with ticks := s.ticks ++ [d] }) hc hrst (by simp [hp]) (by simp [hp]) hcur hd
    rw [resumeOp_wait_offers (s := { s with ticks := s.ticks ++ [d] }) hi hp hgo hans] at hstep
    exact ⟨d, _, _, rfl, hstep, rfl, rfl, rfl⟩

/-! ### The configuration is constant (R6, R28) -/

/-- Settles O45: each of the things a step can be leaves `CFG` alone. -/
theorem configurationNeverChanges : Obligations.ConfigurationNeverChanges := by
  unfold Obligations.ConfigurationNeverChanges
  intro s t h
  obtain ⟨-, ⟨-, -, rfl⟩ | ⟨-, -, -, rfl⟩ | ⟨-, -, r, rest, u, -, -, ⟨i, -, hx⟩ | ⟨e, -, rfl⟩⟩ | ⟨-, -, rfl⟩ |
    ⟨-, -, -, ⟨-, rfl⟩ | ⟨r, -, ⟨i, -, hx⟩ | ⟨e, -, rfl⟩⟩⟩⟩ := step_cases h
  · exact resetBlock_cfg s
  · rfl
  · exact (exec_same hx).cfg
  · rfl
  · rcases takeResponse_cases s with ⟨w, -, -, e⟩ | ⟨-, e⟩ <;> rw [e]
    exact State.release_cfg s w
  · rfl
  · exact (resumeOp_same hx).cfg
  · rfl

/-! ### Which configurations have a meaning, and what is derived from one (R7, R8) -/

/-- Where a record fits in the buffer, room for one slot is a condition in batched mode only. -/
theorem slotSize_le_iff {c : Cfg} (h : 6 ≤ c.bufCap) :
    slotSize c ≤ c.bufCap ↔ (c.mode = .batched → 6 + c.fill.toNat ≤ c.bufCap) := by
  cases hm : c.mode with
  | direct => simp [slotSize_direct hm, h]
  | batched => simp [slotSize_batched hm]

/-- Every operation begins with the check of R8. -/
theorem exec_refuses_badConfig (i : Instr) {s : State} (h : cfgOk s.cfg = false) : exec i s = .refused .badConfig := by
  have refuses := beginOp_refuse h
  cases i with
  | xinit => simp [exec, execXinit, refuses]
  | xmit pairs => simp [exec, execXmit, refuses]
  | setrw v => simp [exec, execSetrw, refuses]
  | setaux v => simp [exec, execSetaux, refuses]

theorem step_refuses_badConfig {s : State} (h : cfgOk s.cfg = false) : step s = .refused .badConfig := by
  simp [step, h]

/-- Settles O3: the configuration is checked at the head of a step and of every operation. -/
theorem illFormedConfigurationIsRefused : Obligations.IllFormedConfigurationIsRefused := by
  unfold Obligations.IllFormedConfigurationIsRefused
  refine ⟨fun c => ?_, fun s h => ⟨step_refuses_badConfig h, fun i => exec_refuses_badConfig i h⟩⟩
  rw [cfgOk_iff]
  -- the two sides differ in their last conjunct, and there under the one before it
  simp +contextual only [and_congr_right_iff, slotSize_le_iff, implies_true]

/-- The mask of a bit position in a byte. -/
theorem oneBit_toNat (b : BitVec 3) : (1#8 <<< b.toNat).toNat = 2 ^ b.toNat := by
  have hlt : 2 ^ b.toNat < 2 ^ 8 := Nat.pow_lt_pow_right (by omega) b.isLt
  rw [BitVec.toNat_shiftLeft, Nat.shiftLeft_eq, BitVec.toNat_ofNat, Nat.one_mod, Nat.one_mul, Nat.mod_eq_of_lt hlt]

/-- Settles O4: a bit position has 3 bits, so its mask fits a byte. -/
theorem derivedConstantsOfAConfiguration : Obligations.DerivedConstantsOfAConfiguration := by
  unfold Obligations.DerivedConstantsOfAConfiguration
  refine fun c => ⟨oneBit_toNat _, oneBit_toNat _, oneBit_toNat _, ?_, rfl, slotCount_pos⟩
  cases hm : c.mode with
  | direct => simpa using slotSize_direct hm
  | batched => simpa using slotSize_batched hm

/-! ### What the outside can do between two steps (R9) -/

/-- All that an event from outside can do: it moves the ports, and time does not go back. -/
theorem input_cases {s t : State} {e : Input} (h : s.input e = some t) :
    s.now ≤ t.now ∧ t = { s with
      requests := t.requests, answers := t.answers, now := t.now, ticks := t.ticks, rst := t.rst, rspReady := t.rspReady } := by
  cases e with
  | pass d =>
    simp only [State.input] at h
    split at h
    · rename_i u hu
      cases h
      exact ⟨advance_le hu, rfl⟩
    · cases h
  | request r => cases h; exact ⟨Nat.le_refl _, rfl⟩
  | answer a => cases h; exact ⟨Nat.le_refl _, rfl⟩
  | tick d => cases h; exact ⟨Nat.le_refl _, rfl⟩
  | rst level => cases h; exact ⟨Nat.le_refl _, rfl⟩
  | rspReady level => cases h; exact ⟨Nat.le_refl _, rfl⟩

section
variable {s : State} {requests : List Request} {answers : List Answer} {now : Time} {ticks : List Nat} {rst rspReady : Bool}

/-- What holds of an operation in flight reads none of the ports that the outside moves. -/
theorem inFlight_ports (i : Instr) :
    inFlight i { s with requests, answers, now, ticks, rst, rspReady } ↔ inFlight i s := by
  cases i <;> exact Iff.rfl

/-- The invariant reads, of those ports, only the time: a write on offer was issued no later than now. -/
theorem Inv.ports (h : Inv s) (hnow : s.now ≤ now) : Inv { s with requests, answers, now, ticks, rst, rspReady } where
  config := h.config
  aux := h.aux
  within := h.within
  empty := h.empty
  buf := h.buf
  phase := h.phase
  idle := h.idle
  busy hp := by
    obtain ⟨r, i, hcur, hd, hf⟩ := h.busy hp
    exact ⟨r, i, hcur, hd, (inFlight_ports i).2 hf⟩
  offered hp := by
    obtain ⟨o, ho, hne, hle⟩ := h.offered hp
    exact ⟨o, ho, hne, Nat.le_trans hle hnow⟩
  quiet := h.quiet
  accounted := h.accounted
  responds := h.responds

/-- The settle guarantee reads, of those ports, only the time: what is owed when Idle has passed. -/
theorem Settled.ports (h : Settled s) (hnow : s.now ≤ now) :
    Settled { s with requests, answers, now, ticks, rst, rspReady } where
  past := h.past
  armed := h.armed
  idle hv := Nat.le_trans (h.idle hv) hnow
  offered := h.offered

end

/-- Settles O47: the events move ports only, and the two invariants read of these no more than that time does not go back. -/
theorem inputsKeepTheInvariants : Obligations.InputsKeepTheInvariants := by
  unfold Obligations.InputsKeepTheInvariants
  intro s t e h
  obtain ⟨hnow, ht⟩ := input_cases h
  refine ⟨fun hi => ht ▸ hi.ports hnow, fun hs => ht ▸ hs.ports hnow, hnow, ?_⟩
  rw [ht]
  exact ⟨rfl, rfl, rfl, rfl, rfl, rfl, rfl, rfl, rfl, rfl, rfl, rfl, rfl⟩

/-! ### Microseconds in ticks (R6, R13) -/

/-- Where the ticks fit 64 bits, a time becomes its quotient by the length of a tick, rounded up. -/
theorem ticksOfMicros_toNat {tick : Tick} {us : Nat} (h : us * tick.den ≤ (2 ^ 64 - 1) * tick.num) :
    (Config.ticksOfMicros tick us).toNat = us * tick.den ⌈/⌉ (tick.num : Nat) := by
  have hfit : us * tick.den ⌈/⌉ (tick.num : Nat) < 2 ^ 64 := by
    have : us * tick.den ⌈/⌉ (tick.num : Nat) ≤ 2 ^ 64 - 1 :=
      (ceilDiv_le_iff_le_mul tick.num.pos).2 (by rwa [Nat.mul_comm (tick.num : Nat)])
    omega
  have hq : us * tick.den ⌈/⌉ (tick.num : Nat) = (us * tick.den + (tick.num - 1)) / tick.num := by
    rw [Nat.ceilDiv_eq_add_pred_div, Nat.add_sub_assoc tick.num.pos]
  rw [Config.ticksOfMicros, if_pos h, ← hq, BitVec.toNat_ofNat, Nat.mod_eq_of_lt hfit]

/-- With ticks of 1 µs nothing is rounded. -/
theorem ticksOfMicros_one {us : Nat} (h : us < 2 ^ 64) : Config.ticksOfMicros ⟨1, 1⟩ us = BitVec.ofNat 64 us := by
  have fits : us * ((1 : ℕ+) : Nat) ≤ (2 ^ 64 - 1) * ((1 : ℕ+) : Nat) := by simp; omega
  refine BitVec.eq_of_toNat_eq ?_
  rw [ticksOfMicros_toNat fits, BitVec.toNat_ofNat, Nat.mod_eq_of_lt h]
  simp

/-- Settles O48: a quotient rounded up, times the divisor, is less than one divisor above the dividend. -/
theorem defaultSettleTimesForEveryTick : Obligations.DefaultSettleTimesForEveryTick := by
  unfold Obligations.DefaultSettleTimesForEveryTick
  refine ⟨fun tick us h => ?_, fun tick => ⟨rfl, rfl, rfl, rfl⟩, rfl, ?_, ?_, ?_⟩
  · have hpos : 0 < (tick.num : Nat) := tick.num.pos
    have lower := (ceilDiv_le_iff_le_mul (b := us * tick.den) hpos).1 le_rfl
    have upper := Nat.div_mul_le_self (us * tick.den + tick.num - 1) tick.num
    rw [← Nat.ceilDiv_eq_add_pred_div] at upper
    rw [ticksOfMicros_toNat h]
    exact ⟨by rwa [Nat.mul_comm _ (tick.num : Nat)], by omega⟩
  · exact ticksOfMicros_one (us := 16000) (by decide)
  · exact ticksOfMicros_one (us := 5000) (by decide)
  · exact ticksOfMicros_one (us := 50) (by decide)

end Sys2Proof.Machine

namespace Sys2Proof.Machine

/-! ## The invariant of the block (R32): it holds after reset and every step keeps it -/

/-! ### The invariant, phase by phase -/

/-- The part of the invariant that speaks of no phase. -/
structure Sound (s : State) : Prop where
  config : cfgOk s.cfg = true
  aux : s.aux &&& ~~~(rwMask s.cfg ||| auxMask s.cfg) = 0
  buf : Memory.wf s.buf = true
  accounted : s.ans = none

/-- Nothing is in hand: no bytes are packed, no write is on the channel. -/
structure Clear (s : State) : Prop extends Sound s where
  empty : s.bufLen = 0
  silent : s.offer = none

theorem Inv.sound {s : State} (h : Inv s) : Sound s := ⟨h.config, h.aux, h.buf, h.accounted⟩

theorem Inv.rsp_eq_none {s : State} (h : Inv s) (hp : s.phase ≠ .resp) : s.rsp = none := by
  simpa using mt h.responds.2 hp

theorem Inv.clear {s : State} (h : Inv s) (hp : s.phase = .ready ∨ s.phase = .resp) : Clear s where
  toSound := h.sound
  empty := h.empty hp
  silent := h.quiet (by rcases hp with hp | hp <;> simp [hp])

/-- The operation in progress is the one that the invariant speaks of. -/
theorem Inv.inFlight {s : State} {r : Request} {i : Instr} (h : Inv s) (hp : s.phase = .wait ∨ s.phase = .write)
    (hcur : s.cur = some r) (hd : decode r.hdr = .op i) : inFlight i s := by
  obtain ⟨r', i', hcur', hd', hf⟩ := h.busy hp
  obtain rfl : r' = r := Option.some.inj (hcur'.symm.trans hcur)
  obtain rfl : i' = i := Decoded.op.inj (hd'.symm.trans hd)
  exact hf

/-- What is packed fits in the buffer (R32 b, R125). -/
theorem inFlight_within {s : State} {i : Instr} (hc : cfgOk s.cfg = true) (h : inFlight i s) : s.bufLen ≤ s.cfg.bufCap := by
  cases i with
  | xinit =>
    obtain ⟨hlen, -⟩ := h
    obtain ⟨-, -, -, -, -, -, hcap, -⟩ := (cfgOk_iff _).1 hc
    omega
  | xmit pairs =>
    obtain ⟨-, hfits, hlen, -⟩ := h
    exact hlen ▸ slots_fit _ hfits
  | setrw v | setaux v =>
    obtain ⟨-, hlen, -⟩ := h
    omega

/-- A write on offer has bytes (R49). -/
theorem inFlight_offer_ne_nil {s : State} {i : Instr} {o : Offer} (h : inFlight i s) (ho : s.offer = some o) :
    o.bytes ≠ [] := by
  rw [← List.length_pos_iff]
  cases i with
  | xinit =>
    obtain ⟨-, -, -, hoff, -⟩ := h
    have := hoff o ho
    omega
  | xmit pairs =>
    obtain ⟨hsome, -, hlen, -, -, hoff, -⟩ := h
    obtain ⟨hbytes, -⟩ := hoff o ho
    have := slotSize_pos s.cfg
    rw [hbytes, hlen]
    exact Nat.mul_pos hsome (by omega)
  | setrw v | setaux v =>
    obtain ⟨-, -, hoff⟩ := h
    have := hoff o ho
    omega

theorem Clear.inv_ready {s : State} (h : Clear s) (hp : s.phase = .ready) (hcur : s.cur = none) (hrsp : s.rsp = none) :
    Inv s where
  config := h.config
  aux := h.aux
  within := by simp [h.empty]
  empty _ := h.empty
  buf := h.buf
  phase := .inl hp
  idle _ := hcur
  busy := by simp [hp]
  offered := by simp [hp]
  quiet _ := h.silent
  accounted := h.accounted
  responds := by simp [hp, hrsp]

theorem Clear.inv_resp {s : State} (h : Clear s) (hp : s.phase = .resp) (hrsp : s.rsp.isSome = true) : Inv s where
  config := h.config
  aux := h.aux
  within := by simp [h.empty]
  empty _ := h.empty
  buf := h.buf
  phase := .inr (.inr (.inr hp))
  idle := by simp [hp]
  busy := by simp [hp]
  offered := by simp [hp]
  quiet _ := h.silent
  accounted := h.accounted
  responds := by simp [hp, hrsp]

theorem Sound.inv_wait {s : State} {r : Request} {i : Instr} (h : Sound s) (hp : s.phase = .wait) (hoff : s.offer = none)
    (hrsp : s.rsp = none) (hcur : s.cur = some r) (hd : decode r.hdr = .op i) (hf : inFlight i s) : Inv s where
  config := h.config
  aux := h.aux
  within := inFlight_within h.config hf
  empty := by simp [hp]
  buf := h.buf
  phase := .inr (.inl hp)
  idle := by simp [hp]
  busy _ := ⟨r, i, hcur, hd, hf⟩
  offered := by simp [hp]
  quiet _ := hoff
  accounted := h.accounted
  responds := by simp [hp, hrsp]

theorem Sound.inv_write {s : State} {r : Request} {i : Instr} {o : Offer} (h : Sound s) (hp : s.phase = .write)
    (ho : s.offer = some o) (hle : o.issued ≤ s.now) (hrsp : s.rsp = none) (hcur : s.cur = some r)
    (hd : decode r.hdr = .op i) (hf : inFlight i s) : Inv s where
  config := h.config
  aux := h.aux
  within := inFlight_within h.config hf
  empty := by simp [hp]
  buf := h.buf
  phase := .inr (.inr (.inl hp))
  idle := by simp [hp]
  busy _ := ⟨r, i, hcur, hd, hf⟩
  offered _ := ⟨o, ho, inFlight_offer_ne_nil hf ho, hle⟩
  quiet := by simp [hp]
  accounted := h.accounted
  responds := by simp [hp, hrsp]

/-! ### After reset -/

theorem reset_clear : Clear State.reset where
  config := rfl
  aux := rfl
  buf := Memory.reset_wf
  accounted := rfl
  empty := rfl
  silent := rfl

/-- Settles O5: the buffer is empty and the ports are quiet. -/
theorem resetStateMeetsTheInvariant : Obligations.ResetStateMeetsTheInvariant := by
  unfold Obligations.ResetStateMeetsTheInvariant
  exact reset_clear.inv_ready rfl rfl rfl

/-- Settles O6: with no write made, nothing is owed. -/
theorem resetStateIsSettled : Obligations.ResetStateIsSettled := by
  unfold Obligations.ResetStateIsSettled
  exact { past := trivial, armed := nofun, idle := fun _ => Nat.zero_le _, offered := nofun }

/-! ### What the updates keep -/

section
variable {s : State} {r : Request} {i : Instr}

/-- The operation `i` of the request `r` is in progress, with nothing in hand and nothing to answer yet: at its start, and at
the head of every turn of an `XMIT`. -/
structure Begun (i : Instr) (r : Request) (s : State) : Prop extends Clear s where
  rsp : s.rsp = none
  cur : s.cur = some r
  op : decode r.hdr = .op i

/-- Whether something is in hand depends on none of these. -/
theorem Clear.scratch {phase : Phase} {idx : Count} {j : Nat} {done : Count} {lastSlow : Bool} {now : Time}
    {requests : List Request} {cur : Option Request} {rsp : Option RespWord} {responses : List RespWord} {draws : Nat}
    (h : Clear s) :
    Clear { s with phase, idx, j, done, lastSlow, now, requests, cur, rsp, responses, draws } :=
  ⟨⟨h.config, h.aux, h.buf, h.accounted⟩, h.empty, h.silent⟩

theorem Begun.scratch {phase : Phase} {idx done : Count} (h : Begun i r s) : Begun i r { s with phase, idx, done } :=
  ⟨h.toClear.scratch, h.rsp, h.cur, h.op⟩

/-- Once an answer is accounted, nothing is in hand. -/
theorem Sound.account {phase : Phase} {now dlTime : Time} {dlValid : Bool} {answers : List Answer}
    {writes : List WriteRec} {k draws : Nat} {done : Count} {rsp : Option RespWord} (h : Sound s) :
    Clear { s with
      phase, now, dlTime, dlValid, answers, writes, done, rsp, draws, offer := none, ans := none, bufLen := 0
      buf := Memory.unspecify s.buf s.bufLen k } :=
  ⟨⟨h.config, h.aux, Memory.unspecify_wf _ _ _ h.buf, rfl⟩, rfl, rfl⟩

theorem raiseErr_inv (h : Clear s) (e : Err) (d : Count) : Inv (raiseErr e d s) :=
  h.scratch.inv_resp rfl rfl

theorem respond_inv (h : Clear s) (d : Count) : Inv (respond d s) := h.scratch.inv_resp rfl rfl

end

/-- An operation that answers a next state stops there in its first part, or gets there in its second. -/
theorem Flow.next_of_andThen {m : Flow} {f : State → Flow} {t : State} (h : (m.andThen f).outcome = .next t) :
    m = .stop t ∨ ∃ u, m = .go u ∧ (f u).outcome = .next t := by
  cases m with
  | go u => exact .inr ⟨u, rfl, h⟩
  | stop u => cases h; exact .inl rfl
  | fault f => cases h
  | refuse x => cases h

/-! ### Holding and sending -/

/-- Issuing the write of the packed bytes: what stood in the buffer is what is offered, and the scheduler is Idle. -/
theorem inFlight_send {i : Instr} {s : State} {now dt : Time} {ticks : List Nat} {n : Nat} (hp : s.phase = .wait)
    (h : inFlight i s) :
    inFlight i { s with
      phase := .write, now, ticks, dlValid := false, dlTime := dt, draws := n
      offer := some ⟨Memory.readBytes s.buf 0 s.bufLen, now⟩ } := by
  cases i with
  | xinit =>
    obtain ⟨hlen, hdone, -⟩ := h
    exact ⟨hlen, hdone, nofun, by rintro o ⟨⟩; simp [hlen], fun _ => rfl⟩
  | xmit pairs =>
    obtain ⟨hsome, hfits, hlen, hidx, hin, -, hpacked, -⟩ := h
    obtain ⟨-, hflag⟩ := hpacked hp
    exact ⟨hsome, hfits, hlen, hidx, hin, by rintro o ⟨⟩; exact ⟨by simp, hflag⟩, nofun, fun _ => rfl⟩
  | setrw v | setaux v =>
    obtain ⟨hwrite, -⟩ := h
    simp [hp] at hwrite

/-- A hold that ends issues the write. -/
theorem waitOffer_go_inv {s t : State} (h : Inv s) (hp : s.phase = .wait)
    (he : (waitDeadline s).andThen offerBuffer = .go t) : Inv t ∧ t.phase = .write ∧ t.cur = s.cur := by
  obtain ⟨r, i, hcur, hd, hf⟩ := h.busy (.inl hp)
  obtain ⟨dt, n, -, -, e⟩ := waitOffer_eq_go he
  generalize t.now = now, t.ticks = ticks at e
  subst e
  have hrsp : s.rsp = none := h.rsp_eq_none (by simp [hp])
  exact ⟨Sound.inv_write ⟨h.config, h.aux, h.buf, h.accounted⟩ rfl rfl (Nat.le_refl _) hrsp hcur hd
    (inFlight_send hp hf), rfl, rfl⟩

/-- A hold that does not end moves the clock only. -/
theorem waitOffer_stop_inv {s t : State} (h : Inv s) (hp : s.phase = .wait)
    (he : (waitDeadline s).andThen offerBuffer = .stop t) : Inv t := by
  obtain ⟨-, -, hnow, e⟩ := waitOffer_eq_stop he
  rw [← hp] at e
  exact e ▸ h.ports hnow

/-! ### XINIT

`WaitDeadline` sets the phase `WAIT` itself. So what packing leaves is said of that phase, as the invariant, and sending is proved
once for an operation that has just packed and one that was held. -/

/-- From `WRITE`, an `XINIT` is held, or answered and ended. -/
theorem xinitFromWrite_inv {s t : State} (h : Inv s) (he : (xinitFromWrite s).outcome = .next t) : Inv t := by
  rcases Flow.next_of_andThen he with hheld | ⟨u, hans, hacct⟩
  · exact (awaitAnswer_eq_stop hheld).1 ▸ h
  · obtain ⟨w, a, rest, now, -, -, -, -, rfl⟩ := awaitAnswer_eq_go hans
    rcases Flow.outcome_eq_next.1 hacct with hacct | hacct
    · exact absurd hacct xinitAcct_ne_go
    · obtain ⟨dv, dt, rfl, -⟩ := xinitAcct_eq_stop (a := a) rfl hacct
      exact h.sound.account.inv_resp rfl rfl

theorem xinitFromWait_inv {s t : State} (h : Inv s) (hp : s.phase = .wait) (he : (xinitFromWait s).outcome = .next t) :
    Inv t := by
  rcases Flow.next_of_andThen he with hheld | ⟨u, hsent, hwrite⟩
  · exact waitOffer_stop_inv h hp hheld
  · obtain ⟨hu, -⟩ := waitOffer_go_inv h hp hsent
    exact xinitFromWrite_inv hu hwrite

/-- The frame packed, an `XINIT` may be held. -/
theorem xinitPack_inv {s t : State} {r : Request} (h : Begun .xinit r s) (hdone : s.done = 0)
    (he : xinitPack s = .go t) : Inv (t.toPhase .wait) := by
  obtain ⟨d, hel, -, rfl⟩ := xinitPack_eq_go he
  refine Sound.inv_wait ⟨h.config, h.aux, Memory.writeBytes_wf _ _ _ h.buf, h.accounted⟩ rfl h.silent h.rsp h.cur h.op
    ⟨rfl, hdone, fun _ => ⟨d, hel, ?_⟩, ?_, nofun⟩
  · exact Memory.readBytes_writeBytes s.buf (frame s.cfg d s.aux)
  · simp [h.silent]

theorem execXinit_inv {s t : State} {r : Request} (h : Begun .xinit r s) (he : execXinit s = .next t) : Inv t := by
  rw [execXinit, beginOp_go h.config, Flow.go_andThen] at he
  have hbegun : Begun .xinit r ((s.toPhase .check).setDone 0) := h.scratch
  rcases Flow.next_of_andThen he with hstop | ⟨u, hpack, hwait⟩
  · exact absurd hstop xinitPack_ne_stop
  · exact xinitFromWait_inv (xinitPack_inv hbegun rfl hpack) rfl hwait

/-! ### XMIT -/

/-- The head of a turn of an `XMIT`: nothing in hand, and `IDX` counts the commands confirmed (R27). -/
structure TurnHead (pairs : BitVec 13) (r : Request) (s : State) : Prop extends Begun (.xmit pairs) r s where
  counted : s.idx.toNat = 2 * s.done.toNat

theorem TurnHead.even {pairs : BitVec 13} {r : Request} {s : State} (h : TurnHead pairs r s) : s.idx.toNat % 2 = 0 := by
  rw [h.counted]
  exact Nat.mul_mod_right _ _

/-- Counting units does not overflow `DONE`, since twice as many elements are within `LEN`. -/
theorem done_add_units {done : Count} {n : Nat} {pairs : BitVec 13} (h : 2 * (done.toNat + n) ≤ 2 * pairs.toNat) :
    (done + BitVec.ofNat 14 n).toNat = done.toNat + n := by
  have := pairs.isLt
  rw [BitVec.toNat_add, BitVec.toNat_ofNat, Nat.mod_eq_of_lt (a := n) (by omega), Nat.mod_eq_of_lt (by omega)]

/-- An answer that is good for whole units confirms them all. -/
theorem Answer.good_div {a : Answer} {n size : Nat} (hpos : 0 < size) (h : a.good (n * size) = true) : a.n / size = n := by
  simp only [Answer.good, Bool.and_eq_true, beq_iff_eq] at h
  obtain ⟨-, hn⟩ := h
  rw [hn, Nat.mul_div_cancel _ hpos]

/-- From `WRITE`, a good answer leads to the head of the next turn. -/
theorem xmitFromWrite_turnHead {s t : State} {r : Request} {pairs : BitVec 13} (h : Inv s) (hp : s.phase = .write)
    (hcur : s.cur = some r) (hd : decode r.hdr = .op (.xmit pairs)) (he : xmitFromWrite s = .go t) :
    TurnHead pairs r t := by
  obtain ⟨-, -, -, hidx, hin, -⟩ := h.inFlight (.inr hp) hcur hd
  obtain ⟨w, a, rest, now, dv, dt, -, -, -, -, hgood, -, rfl⟩ := xmitFromWrite_eq_go he
  refine ⟨⟨h.sound.account, h.rsp_eq_none (by simp [hp]), hcur, hd⟩, ?_⟩
  show s.idx.toNat = 2 * (s.done + BitVec.ofNat 14 (a.n / slotSize s.cfg)).toNat
  have hpos : 0 < slotSize s.cfg := by have := slotSize_pos s.cfg; omega
  rw [Answer.good_div hpos hgood, done_add_units (hidx ▸ hin), hidx]

/-- From `WRITE`, an `XMIT` with no good answer is held or ended. -/
theorem xmitFromWrite_stop_inv {s t : State} (h : Inv s) (he : xmitFromWrite s = .stop t) : Inv t := by
  rcases xmitFromWrite_eq_stop he with ⟨rfl, -⟩ | ⟨w, a, rest, now, dv, dt, -, -, -, -, -, -, rfl⟩
  · exact h
  · exact raiseErr_inv h.sound.account _ _

theorem xmitFromWait_turnHead {s t : State} {r : Request} {pairs : BitVec 13} (h : Inv s) (hp : s.phase = .wait)
    (hcur : s.cur = some r) (hd : decode r.hdr = .op (.xmit pairs)) (he : xmitFromWait s = .go t) :
    TurnHead pairs r t := by
  obtain ⟨u, hsent, hwrite⟩ := xmitFromWait_eq_go he
  obtain ⟨hu, hpu, hcu⟩ := waitOffer_go_inv h hp hsent
  exact xmitFromWrite_turnHead hu hpu (hcu.trans hcur) hd hwrite

theorem xmitFromWait_stop_inv {s t : State} (h : Inv s) (hp : s.phase = .wait) (he : xmitFromWait s = .stop t) :
    Inv t := by
  rcases xmitFromWait_eq_stop he with hheld | ⟨u, hsent, hwrite⟩
  · exact waitOffer_stop_inv h hp hheld
  · obtain ⟨hu, -⟩ := waitOffer_go_inv h hp hsent
    exact xmitFromWrite_stop_inv hu hwrite

/-- The commands just before `IDX` are those that were packed. -/
theorem Loaded.commands_in_hand {pairs : BitVec 13} {s t : State} {cmds us : List Cmd} {last : Cmd}
    (h : Loaded pairs s cmds us last t) : (cmds.drop (t.idx.toNat / 2 - us.length)).take us.length = us := by
  obtain ⟨rest, hrest⟩ := h.taken
  have hstart : t.idx.toNat / 2 - us.length = s.idx.toNat / 2 := by rw [h.idx]; omega
  rw [hstart, ← hrest, List.take_left]

/-- The commands packed, an `XMIT` may be held. -/
theorem loaded_inv {s t : State} {r : Request} {pairs : BitVec 13} {us : List Cmd} {last : Cmd}
    (h : TurnHead pairs r s) (hl : Loaded pairs s (commands r.stream) us last t) : Inv (t.toPhase .wait) := by
  have hcfg : t.cfg = s.cfg := hl.keep.cfg
  have hcur : t.cur = some r := hl.keep.cur.trans h.cur
  have hlen : t.bufLen = us.length * slotSize s.cfg := by rw [hl.frame]
  have hdone : t.done = s.done := by rw [hl.frame]
  have hoff : t.offer = none := by rw [hl.frame]; exact h.silent
  have hrsp : t.rsp = none := by rw [hl.frame]; exact h.rsp
  have hans : t.ans = none := by rw [hl.frame]; exact h.accounted
  have hunits : unitsInHand (t.toPhase .wait) = us.length := hl.units
  have hbytes : Memory.readBytes t.buf 0 t.bufLen = writeBytes t.cfg t.aux us := by
    rw [hlen, hl.bytes, hcfg, hl.keep.aux]
  have hsound : Sound (t.toPhase .wait) :=
    ⟨by simpa [hcfg] using h.config, by simpa [hcfg, hl.keep.aux] using h.aux, hl.wf h.buf, hans⟩
  have hflag : flagged (t.toPhase .wait) (Memory.readBytes t.buf 0 t.bufLen) :=
    hbytes ▸ flagged_writeBytes hsound.config hsound.aux hl.final (by rw [hl.frame]; rfl)
  refine hsound.inv_wait rfl hoff hrsp hcur h.op
    ⟨?_, ?_, ?_, ?_, hl.within, ?_, fun _ => ⟨⟨r, hcur, ?_⟩, hflag⟩, nofun⟩
  · rw [hunits]; exact hl.nonempty
  · rw [hunits, State.toPhase_cfg, hcfg]; exact hl.fits
  · rw [hunits, State.toPhase_cfg, hcfg]; exact hlen
  · rw [hunits, State.toPhase_idx, State.toPhase_done, hdone, hl.idx, h.counted, Nat.mul_add]
  · simp [hoff]
  · rw [hunits, State.toPhase_idx, hl.commands_in_hand]; exact hbytes

/-- A turn that goes on leads to the head of the next one, past the commands it sent. -/
theorem turn_turnHead {s t : State} {r : Request} {pairs : BitVec 13} (h : TurnHead pairs r s)
    (hlt : s.idx.toNat < 2 * pairs.toNat) (he : xmitFromPack pairs (startBatch s) = .go t) :
    TurnHead pairs r t ∧ s.idx.toNat + 2 ≤ t.idx.toNat := by
  constructor
  · obtain ⟨u, hpack, hwait⟩ := Flow.andThen_eq_go he
    obtain ⟨us, last, hl⟩ := xmitPack_eq_go h.config h.cur h.even hlt hpack
    exact xmitFromWait_turnHead (loaded_inv h hl) rfl (hl.keep.cur.trans h.cur) h.op hwait
  · obtain ⟨us, last, hturn⟩ := turn_go h.config h.cur h.even hlt he
    have := hturn.idx
    have := hturn.some
    omega

/-- A turn that stops holds the operation or ends it. -/
theorem turn_stop_inv {s t : State} {r : Request} {pairs : BitVec 13} (h : TurnHead pairs r s)
    (hlt : s.idx.toNat < 2 * pairs.toNat) (he : xmitFromPack pairs (startBatch s) = .stop t) : Inv t := by
  rcases Flow.andThen_eq_stop he with hstop | ⟨u, hpack, hwait⟩
  · exact absurd hstop xmitPack_ne_stop
  · obtain ⟨us, last, hl⟩ := xmitPack_eq_go h.config h.cur h.even hlt hpack
    exact xmitFromWait_stop_inv (loaded_inv h hl) rfl hwait

/-- The outer loop, by induction over its turns. -/
theorem xmitLoop_inv {s t : State} {r : Request} {pairs : BitVec 13} (h : TurnHead pairs r s)
    (he : (xmitLoop pairs pairs.toNat s).outcome = .next t) : Inv t := by
  rcases Flow.outcome_eq_next.1 he with he | he
  · exact absurd he xmitLoop_ne_go
  · exact xmitLoop_induct (P := TurnHead pairs r) (Q := Inv) (fun _ _ => turn_turnHead) (fun _ _ => turn_stop_inv)
      (fun _ hu _ => respond_inv hu.toClear _) h (by omega) he

theorem execXmit_inv {s t : State} {r : Request} {pairs : BitVec 13} (h : Begun (.xmit pairs) r s)
    (he : execXmit pairs s = .next t) : Inv t := by
  by_cases hp : pairs = 0
  · subst hp
    rw [execXmit_zero h.config] at he
    cases he
    exact raiseErr_inv h.toClear.scratch _ _
  · rw [execXmit_eq h.config hp] at he
    exact xmitLoop_inv (r := r) ⟨h.scratch, rfl⟩ he

/-- The rest of a turn, and then the turns that are left. -/
theorem andThen_xmitLoop_inv {m : Flow} {t : State} {r : Request} {pairs : BitVec 13}
    (hgo : ∀ u, m = .go u → TurnHead pairs r u) (hstop : ∀ u, m = .stop u → Inv u)
    (he : (m.andThen (xmitLoop pairs pairs.toNat)).outcome = .next t) : Inv t := by
  rcases Flow.next_of_andThen he with he | ⟨u, hu, hloop⟩
  · exact hstop t he
  · exact xmitLoop_inv (hgo u hu) hloop

/-! ### SETRW and SETAUX -/

/-- An answer to the one byte is followed by a response, and by nothing else. -/
theorem auxFinish_eq {s : State} {a : Answer} (ha : s.ans = some a) :
    ∃ w, auxFinish s = .stop { s with phase := .resp, ans := none, rsp := some w } := by
  simp only [auxFinish, ha]
  split
  · exact ⟨_, rfl⟩
  · exact ⟨_, rfl⟩

/-- From `WRITE`, an auxiliary operation is held, or answered and ended. -/
theorem auxFromWrite_inv {s t : State} (h : Inv s) (hlen : s.bufLen = 0) (he : (auxFromWrite s).outcome = .next t) :
    Inv t := by
  rcases Flow.next_of_andThen he with hheld | ⟨u, hans, hfin⟩
  · exact (awaitAnswer_eq_stop hheld).1 ▸ h
  · obtain ⟨w, a, rest, now, -, -, -, -, rfl⟩ := awaitAnswer_eq_go hans
    obtain ⟨word, e⟩ := auxFinish_eq (s := s.takeAnswer w a rest now) (a := a) rfl
    rw [e] at hfin
    cases hfin
    exact Clear.inv_resp ⟨⟨h.config, h.aux, h.buf, rfl⟩, hlen, rfl⟩ rfl rfl

/-- The new `AUX` offered, the operation may be held. -/
theorem auxWrite_inv {s t : State} {r : Request} {i : Instr} {v : Bool} {a : Byte} (h : Begun i r s)
    (hi : i = .setrw v ∨ i = .setaux v) (ha : a &&& ~~~(rwMask s.cfg ||| auxMask s.cfg) = 0)
    (he : (auxWrite a s).outcome = .next t) : Inv t := by
  have hf : inFlight i ((s.setAux a).putOffer [a]) := by
    rcases hi with rfl | rfl
    · exact ⟨rfl, h.empty, by rintro o ⟨⟩; rfl⟩
    · exact ⟨rfl, h.empty, by rintro o ⟨⟩; rfl⟩
  have hoffered : Inv ((s.setAux a).putOffer [a]) :=
    Sound.inv_write ⟨h.config, ha, h.buf, h.accounted⟩ rfl rfl (Nat.le_refl _) h.rsp h.cur h.op hf
  exact auxFromWrite_inv hoffered h.empty he

theorem execSetrw_inv {s t : State} {r : Request} {v : Bool} (h : Begun (.setrw v) r s)
    (he : execSetrw v s = .next t) : Inv t := by
  rw [execSetrw, beginOp_go h.config] at he
  have hbegun : Begun (.setrw v) r (s.toPhase .check) := h.scratch
  exact auxWrite_inv hbegun (.inl rfl) (setLine_legal (.inl rfl) h.aux) he

theorem execSetaux_inv {s t : State} {r : Request} {v : Bool} (h : Begun (.setaux v) r s)
    (he : execSetaux v s = .next t) : Inv t := by
  rw [execSetaux, beginOp_go h.config] at he
  have hbegun : Begun (.setaux v) r (s.toPhase .check) := h.scratch
  exact auxWrite_inv hbegun (.inr rfl) (setLine_legal (.inr rfl) h.aux) he

/-! ### Every step -/

/-- Every operation, from its start. -/
theorem exec_inv {s t : State} {r : Request} {i : Instr} (h : Begun i r s) (he : exec i s = .next t) : Inv t := by
  cases i with
  | xinit => exact execXinit_inv h he
  | xmit pairs => exact execXmit_inv h he
  | setrw v => exact execSetrw_inv h he
  | setaux v => exact execSetaux_inv h he

/-- Every operation that was held and goes on. -/
theorem resumeOp_inv {s t : State} {r : Request} {i : Instr} (h : Inv s) (hp : s.phase = .wait ∨ s.phase = .write)
    (hcur : s.cur = some r) (hd : decode r.hdr = .op i) (he : resumeOp i s = .next t) : Inv t := by
  have hf := h.inFlight hp hcur hd
  cases i with
  | xinit =>
    rcases hp with hp | hp <;> simp only [resumeOp, resumeXinit, hp] at he
    · exact xinitFromWait_inv h hp he
    · exact xinitFromWrite_inv h he
  | xmit pairs =>
    rcases hp with hp | hp <;> simp only [resumeOp, resumeXmit, hp] at he
    · exact andThen_xmitLoop_inv (fun _ => xmitFromWait_turnHead h hp hcur hd) (fun _ => xmitFromWait_stop_inv h hp) he
    · exact andThen_xmitLoop_inv (fun _ => xmitFromWrite_turnHead h hp hcur hd) (fun _ => xmitFromWrite_stop_inv h) he
  | setrw v =>
    obtain ⟨hwrite, hlen, -⟩ := hf
    simp only [resumeOp, resumeSetrw, hwrite] at he
    exact auxFromWrite_inv h hlen he
  | setaux v =>
    obtain ⟨hwrite, hlen, -⟩ := hf
    simp only [resumeOp, resumeSetaux, hwrite] at he
    exact auxFromWrite_inv h hlen he

theorem resetBlock_inv {s : State} (h : Inv s) (hp : s.phase = .ready) : Inv (resetBlock s) :=
  Clear.inv_ready ⟨⟨h.config, BitVec.zero_and, Memory.reset_wf, h.accounted⟩, rfl, h.quiet (by simp [hp])⟩ rfl (h.idle hp)
    (h.rsp_eq_none (by simp [hp]))

theorem takeResponse_inv {s : State} (h : Inv s) (hp : s.phase = .resp) : Inv (takeResponse s) := by
  rcases takeResponse_cases s with ⟨w, -, -, e⟩ | ⟨-, e⟩ <;> rw [e]
  · exact (h.clear (.inr hp)).scratch.inv_ready rfl rfl rfl
  · exact h

theorem takeRequest_begun {s : State} {r : Request} {i : Instr} (h : Inv s) (hp : s.phase = .ready)
    (hd : decode r.hdr = .op i) (rest : List Request) (now : Time) : Begun i r (s.takeRequest r rest now) :=
  ⟨(h.clear (.inl hp)).scratch, h.rsp_eq_none (by simp [hp]), rfl, hd⟩

/-- Settles O41: case by case over what a step can be; an operation keeps the invariant from its start and from where it was held. -/
theorem stepKeepsTheInvariant : Obligations.StepKeepsTheInvariant := by
  unfold Obligations.StepKeepsTheInvariant
  intro s t h he
  obtain ⟨-, ⟨-, hp, rfl⟩ | ⟨-, -, -, rfl⟩ | ⟨-, hp, r, rest, now, -, -, ⟨i, hd, hx⟩ | ⟨e, -, rfl⟩⟩ | ⟨-, hp, rfl⟩ |
    ⟨-, hready, hresp, ⟨-, rfl⟩ | ⟨r, hcur, hgo⟩⟩⟩ := step_cases he
  · exact resetBlock_inv h hp
  · exact h
  · exact exec_inv (takeRequest_begun h hp hd rest now) hx
  · exact raiseErr_inv (h.clear (.inl hp)).scratch _ _
  · exact takeResponse_inv h hp
  · exact h
  · have hp : s.phase = .wait ∨ s.phase = .write := by
      have := h.phase
      tauto
    rcases hgo with ⟨i, hd, hx⟩ | ⟨e, hd, -⟩
    · exact resumeOp_inv h hp hcur hd hx
    · -- the request in progress has an operation, so its header is not a rejected one
      obtain ⟨r', i, hcur', hd', -⟩ := h.busy hp
      obtain rfl : r' = r := Option.some.inj (hcur'.symm.trans hcur)
      exact absurd (hd'.symm.trans hd) (by simp)

end Sys2Proof.Machine

namespace Sys2Proof.Machine

/-! ## The channel and the stream: memory of the block (20_memory.md) -/

/-! ### An operation from WRITE on and from WAIT on

The four operations share what they do there: in `WAIT` a transmit holds and offers its buffer, in `WRITE` every operation
awaits the answer, and only what follows the answer is its own. -/

/-- What is left of an operation once the write in hand is answered. -/
def afterAnswer : Instr → State → Flow
  | .xinit => xinitAcct
  | .xmit pairs => fun s => (xmitAcct s).andThen (xmitLoop pairs pairs.toNat)
  | .setrw _ => auxFinish
  | .setaux _ => auxFinish

/-- An operation from `WRITE` on. -/
def fromWrite (i : Instr) (s : State) : Flow := (awaitAnswer s).andThen (afterAnswer i)

/-- An operation from `WAIT` on; `SETRW` and `SETAUX` have nothing to do there (R142). -/
def fromWait : Instr → State → Flow
  | .xinit => fun s => ((waitDeadline s).andThen offerBuffer).andThen (fromWrite .xinit)
  | .xmit pairs => fun s => ((waitDeadline s).andThen offerBuffer).andThen (fromWrite (.xmit pairs))
  | .setrw _ => .stop
  | .setaux _ => .stop

theorem fromWrite_xmit (pairs : BitVec 13) (s : State) :
    fromWrite (.xmit pairs) s = (xmitFromWrite s).andThen (xmitLoop pairs pairs.toNat) :=
  (Flow.andThen_assoc _ _ _).symm

theorem fromWait_xmit (pairs : BitVec 13) (s : State) :
    fromWait (.xmit pairs) s = (xmitFromWait s).andThen (xmitLoop pairs pairs.toNat) := by
  rw [fromWait, xmitFromWait, Flow.andThen_assoc]
  exact congrArg _ (funext (fromWrite_xmit pairs))

theorem resumeOp_write {i : Instr} {s : State} (hp : s.phase = .write) : resumeOp i s = (fromWrite i s).outcome := by
  cases i with
  | xinit => simp only [resumeOp, resumeXinit, hp]; rfl
  | xmit pairs => simp only [resumeOp, resumeXmit, hp, fromWrite_xmit]
  | setrw v => simp only [resumeOp, resumeSetrw, hp]; rfl
  | setaux v => simp only [resumeOp, resumeSetaux, hp]; rfl

theorem resumeOp_wait {i : Instr} {s : State} (hp : s.phase = .wait) : resumeOp i s = (fromWait i s).outcome := by
  cases i with
  | xinit => simp only [resumeOp, resumeXinit, hp]; rfl
  | xmit pairs => simp only [resumeOp, resumeXmit, hp, fromWait_xmit]
  | setrw v => simp only [resumeOp, resumeSetrw, hp]; rfl
  | setaux v => simp only [resumeOp, resumeSetaux, hp]; rfl

/-- From `CHECK`, an `XINIT` packs its frame and goes on from `WAIT`. -/
theorem exec_xinit {s : State} (hc : cfgOk s.cfg = true) :
    exec .xinit s = ((xinitPack ((s.toPhase .check).setDone 0)).andThen (fromWait .xinit)).outcome := by
  rw [exec, execXinit, beginOp_go hc]
  rfl

/-- From `CHECK`, an auxiliary operation offers the new `AUX` and goes on from `WRITE`. -/
theorem exec_setrw {v : Bool} {s : State} (hc : cfgOk s.cfg = true) :
    exec (.setrw v) s = (auxWrite (setLine (rwMask s.cfg) s.aux v) (s.toPhase .check)).outcome := by
  rw [exec, execSetrw, beginOp_go hc]
  rfl

theorem exec_setaux {v : Bool} {s : State} (hc : cfgOk s.cfg = true) :
    exec (.setaux v) s = (auxWrite (setLine (auxMask s.cfg) s.aux v) (s.toPhase .check)).outcome := by
  rw [exec, execSetaux, beginOp_go hc]
  rfl

/-! ### No step leaves the buffer (R42, R125) -/

/-- No turn faults, so the loop does not. -/
theorem xmitLoop_never_faults {pairs : BitVec 13} {n : Nat} {s : State} {f : Fault} (hc : cfgOk s.cfg = true) :
    xmitLoop pairs n s ≠ .fault f := by
  refine xmitLoop_ne_fault (P := fun s => cfgOk s.cfg = true) (fun s t hc _ hgo => ?_) (fun s f hc _ => turn_ne_fault hc) hc
  have same := xmitFromPack_keeps pairs (startBatch s) t (.inl hgo)
  rwa [same.cfg, startBatch_cfg]

theorem afterAnswer_ne_fault {i : Instr} {s : State} {a : Answer} {f : Fault} (hc : cfgOk s.cfg = true)
    (ha : s.ans = some a) : afterAnswer i s ≠ .fault f := by
  cases i with
  | xinit => exact xinitAcct_ne_fault
  | xmit pairs =>
    intro h
    rcases Flow.andThen_eq_fault h with h | ⟨t, hgo, h⟩
    · exact xmitAcct_ne_fault ha h
    · have same := xmitAcct_keeps s t (.inl hgo)
      exact xmitLoop_never_faults (by rwa [same.cfg]) h
  | setrw v | setaux v =>
    obtain ⟨w, e⟩ := auxFinish_eq ha
    simp [afterAnswer, e]

theorem fromWrite_ne_fault {i : Instr} {s : State} {f : Fault} (hc : cfgOk s.cfg = true) : fromWrite i s ≠ .fault f := by
  intro h
  rcases Flow.andThen_eq_fault h with h | ⟨t, hgo, h⟩
  · exact awaitAnswer_ne_fault h
  · obtain ⟨w, a, rest, u, -, -, -, -, rfl⟩ := awaitAnswer_eq_go hgo
    exact afterAnswer_ne_fault (s := s.takeAnswer w a rest u) (a := a) hc rfl h

theorem fromWait_ne_fault {i : Instr} {s : State} {f : Fault} (hc : cfgOk s.cfg = true) : fromWait i s ≠ .fault f := by
  have transmit : ((waitDeadline s).andThen offerBuffer).andThen (fromWrite i) ≠ .fault f := by
    intro h
    rcases Flow.andThen_eq_fault h with h | ⟨t, hgo, h⟩
    · exact waitOffer_ne_fault h
    · exact fromWrite_ne_fault (by rwa [(waitGo_keep hgo).cfg]) h
  cases i with
  | xinit | xmit pairs => exact transmit
  | setrw v | setaux v => exact nofun

/-- No operation faults from its start, whatever the state: an `XMIT` packs from slot 0, and slots up to `NS` fit. -/
theorem exec_ne_fault {i : Instr} {s : State} {f : Fault} : exec i s ≠ .fault f := by
  cases hc : cfgOk s.cfg with
  | false => simp [exec_refuses_badConfig i hc]
  | true =>
    cases i with
    | xinit =>
      rw [exec_xinit hc, ne_eq, Flow.outcome_eq_fault]
      intro h
      rcases Flow.andThen_eq_fault h with h | ⟨t, hgo, h⟩
      · exact xinitPack_ne_fault (s := (s.toPhase .check).setDone 0) hc h
      · have same := xinitPack_keeps _ t (.inl hgo)
        exact fromWait_ne_fault (by rw [same.cfg]; exact hc) h
    | xmit pairs =>
      by_cases hp : pairs = 0
      · subst hp
        rw [exec, execXmit_zero hc]
        exact nofun
      · rw [exec, execXmit_eq hc hp, ne_eq, Flow.outcome_eq_fault]
        exact xmitLoop_never_faults hc
    | setrw v =>
      rw [exec_setrw hc, ne_eq, Flow.outcome_eq_fault]
      exact fromWrite_ne_fault (i := .setrw v) hc
    | setaux v =>
      rw [exec_setaux hc, ne_eq, Flow.outcome_eq_fault]
      exact fromWrite_ne_fault (i := .setaux v) hc

/-- A step faults only where an operation does: one that starts, or the one in progress. -/
theorem step_eq_fault {s : State} {f : Fault} (h : step s = .fault f) :
    cfgOk s.cfg = true ∧ ((∃ i t, exec i t = .fault f) ∨
      (s.phase ≠ .ready ∧ s.phase ≠ .resp ∧ ∃ i, resumeOp i s = .fault f)) := by
  unfold step at h
  split at h
  case isFalse => cases h
  case isTrue hc =>
    refine ⟨hc, ?_⟩
    split at h
    · split at h <;> cases h
    · split at h
      · split at h
        · cases h
        · cases h
        · exact .inl ⟨_, _, h⟩
        · cases h
      · cases h
      · refine .inr ⟨‹_›, ‹_›, ?_⟩
        unfold resume at h
        split at h
        · split at h
          · exact ⟨_, h⟩
          · cases h
        · cases h

/-- Settles O42: an operation never faults from its start, nor from `WAIT` or `WRITE`, and the invariant has no other phase in
which one could go on. -/
theorem noStepFaults : Obligations.NoStepFaults := by
  unfold Obligations.NoStepFaults
  intro s f h he
  obtain ⟨hc, ⟨i, t, hx⟩ | ⟨hready, hresp, i, hx⟩⟩ := step_eq_fault he
  · exact exec_ne_fault hx
  · rcases h.phase with hp | hp | hp | hp
    · exact hready hp
    · rw [resumeOp_wait hp, Flow.outcome_eq_fault] at hx
      exact fromWait_ne_fault hc hx
    · rw [resumeOp_write hp, Flow.outcome_eq_fault] at hx
      exact fromWrite_ne_fault hc hx
    · exact hresp hp

/-! ### The channel's answer (R46, R47, R54) -/

theorem awaitAnswer_overrun {s : State} {w : Offer} {a : Answer} {rest : List Answer} (ho : s.offer = some w)
    (ha : s.answers = a :: rest) (hn : w.bytes.length < a.n) : awaitAnswer s = .refuse .channelOverrun := by
  simp [awaitAnswer, ho, ha, hn]

/-- A step in `WRITE` is the operation in progress going on from there. -/
theorem step_eq_fromWrite {s : State} {r : Request} {i : Instr} (hc : cfgOk s.cfg = true) (hrst : s.rst = false)
    (hp : s.phase = .write) (hcur : s.cur = some r) (hd : decode r.hdr = .op i) : step s = (fromWrite i s).outcome := by
  rw [step_eq_resumeOp hc hrst (by simp [hp]) (by simp [hp]) hcur hd, resumeOp_write hp]

/-- Settles O34: in `WRITE` every operation awaits its answer before anything else, and the answer is refused there. -/
theorem answerAboveTheOfferIsRefused : Obligations.AnswerAboveTheOfferIsRefused := by
  unfold Obligations.AnswerAboveTheOfferIsRefused
  intro s w a rest ho ha hn
  have refused := awaitAnswer_overrun ho ha hn
  refine ⟨refused, fun r i hc hrst hp hcur hd => ?_⟩
  rw [step_eq_fromWrite hc hrst hp hcur hd, fromWrite, refused, Flow.refuse_andThen, Flow.refuse_outcome]

/-- Settles O38: in `WRITE` every operation awaits its answer, and with none to come it stays as it is. -/
theorem unansweredWriteHangs : Obligations.UnansweredWriteHangs := by
  unfold Obligations.UnansweredWriteHangs
  intro s r i hc hrst hp hcur hd ha
  rw [step_eq_fromWrite hc hrst hp hcur hd, fromWrite, awaitAnswer_held ha, Flow.stop_andThen, Flow.stop_outcome]

/-! ### The observed writes (R10, R46, R47, R51) -/

/-- R47, R51: an observed write offered at least one byte, was accepted for at most its length, and was answered no earlier than it
was issued. -/
def WriteRec.Proper (w : WriteRec) : Prop := w.bytes ≠ [] ∧ w.n ≤ w.bytes.length ∧ w.issued ≤ w.answered

/-- From `s` to `t` the observed writes are only added to, by proper ones. -/
def Appends (s t : State) : Prop := ∃ new : List WriteRec, t.writes = s.writes ++ new ∧ ∀ w ∈ new, w.Proper

theorem Appends.of_eq {s t : State} (h : t.writes = s.writes) : Appends s t := ⟨[], by simp [h], by simp⟩

theorem Appends.trans {s t u : State} (h : Appends s t) (k : Appends t u) : Appends s u := by
  obtain ⟨new, hw, hproper⟩ := h
  obtain ⟨more, kw, kproper⟩ := k
  refine ⟨new ++ more, by rw [kw, hw, List.append_assoc], fun w hmem => ?_⟩
  rcases List.mem_append.1 hmem with hmem | hmem
  · exact hproper w hmem
  · exact kproper w hmem

/-- A stretch that ends in a state has appended to the writes of `s`. -/
def Flow.Appends (m : Flow) (s : State) : Prop := ∀ t, m = .go t ∨ m = .stop t → Machine.Appends s t

theorem Flow.Appends.go {s t : State} (h : t.writes = s.writes) : (Flow.go t).Appends s := by
  rintro u (e | e) <;> cases e
  exact .of_eq h

theorem Flow.Appends.stop {s t : State} (h : t.writes = s.writes) : (Flow.stop t).Appends s := by
  rintro u (e | e) <;> cases e
  exact .of_eq h

theorem Flow.Appends.refuse {s : State} {x : Refusal} : (Flow.refuse x).Appends s := by
  rintro u (e | e) <;> cases e

theorem Flow.Appends.fault {s : State} {f : Fault} : (Flow.fault f).Appends s := by
  rintro u (e | e) <;> cases e

theorem Flow.Appends.andThen {m : Flow} {k : State → Flow} {s : State} (h : m.Appends s)
    (hk : ∀ t, m = .go t → (k t).Appends t) : (m.andThen k).Appends s := by
  cases m with
  | go t => exact fun u e => (h t (.inl rfl)).trans (hk t rfl u e)
  | stop t => exact fun u e => h u e
  | fault f => exact .fault
  | refuse x => exact .refuse

theorem Flow.Appends.of_next {m : Flow} {s t : State} (h : m.Appends s) (e : m.outcome = .next t) : Machine.Appends s t :=
  h t (Flow.outcome_eq_next.1 e)

/-- A write on offer is one that may be answered: it has bytes, and was issued no later than now. -/
def Offering (s : State) : Prop := ∀ w, s.offer = some w → w.bytes ≠ [] ∧ w.issued ≤ s.now

theorem Inv.offering {s : State} (h : Inv s) (hp : s.phase = .write) : Offering s := by
  intro w hw
  obtain ⟨o, ho, hne, hle⟩ := h.offered hp
  obtain rfl : o = w := Option.some.inj (ho.symm.trans hw)
  exact ⟨hne, hle⟩

/-- The one place where a write is observed: its answer. -/
theorem awaitAnswer_appends {s : State} (h : Offering s) : (awaitAnswer s).Appends s := by
  rcases awaitAnswer_cases s with ⟨w, a, rest, t, ho, -, hn, ht, e⟩ | ⟨-, e⟩ | ⟨_, _, _, -, -, -, -, e⟩ |
    ⟨_, _, _, -, -, -, e⟩ <;> rw [e]
  · obtain ⟨hne, hle⟩ := h w ho
    rintro u (e | e) <;> cases e
    refine ⟨[⟨w.bytes, w.issued, t, a.n, a.fail⟩], rfl, ?_⟩
    simp only [List.mem_singleton, forall_eq]
    exact ⟨hne, hn, Nat.le_trans hle (advance_le ht)⟩
  · exact .stop rfl
  · exact .refuse
  · exact .refuse

/-! What follows an answer observes no write of its own. -/

theorem xinitAcct_appends {s : State} {a : Answer} (ha : s.ans = some a) : (xinitAcct s).Appends s := by
  rintro t (h | h)
  · exact absurd h xinitAcct_ne_go
  · obtain ⟨dv, dt, rfl, -⟩ := xinitAcct_eq_stop ha h
    exact .of_eq rfl

theorem xmitAcct_appends {s : State} {a : Answer} (ha : s.ans = some a) : (xmitAcct s).Appends s := by
  rcases xmitAcct_cases ha with ⟨dv, dt, -, ⟨-, e⟩ | ⟨-, e⟩⟩ | e <;> rw [e]
  · exact .go rfl
  · exact .stop rfl
  · exact .refuse

theorem auxFinish_appends {s : State} {a : Answer} (ha : s.ans = some a) : (auxFinish s).Appends s := by
  obtain ⟨w, e⟩ := auxFinish_eq ha
  rw [e]
  exact .stop rfl

/-- So a write awaited and then accounted is one write observed. -/
theorem awaitAnswer_andThen_appends {s : State} {acct : State → Flow} (h : Offering s)
    (hacct : ∀ t a, t.ans = some a → (acct t).Appends t) : ((awaitAnswer s).andThen acct).Appends s := by
  refine (awaitAnswer_appends h).andThen fun t hgo => ?_
  obtain ⟨w, a, rest, u, -, -, -, -, rfl⟩ := awaitAnswer_eq_go hgo
  exact hacct _ a rfl

theorem waitOffer_appends (s : State) : ((waitDeadline s).andThen offerBuffer).Appends s := by
  rintro t (h | h)
  · obtain ⟨dt, n, -, -, e⟩ := waitOffer_eq_go h
    exact .of_eq (by rw [e])
  · obtain ⟨-, -, -, e⟩ := waitOffer_eq_stop h
    exact .of_eq (by rw [e])

theorem xmitFromWait_appends {s : State} (h : Inv s) (hp : s.phase = .wait) : (xmitFromWait s).Appends s := by
  refine (waitOffer_appends s).andThen fun t hsent => ?_
  obtain ⟨ht, hpt, -⟩ := waitOffer_go_inv h hp hsent
  exact awaitAnswer_andThen_appends (ht.offering hpt) fun _ _ => xmitAcct_appends

theorem turn_appends {s : State} {r : Request} {pairs : BitVec 13} (h : TurnHead pairs r s)
    (hlt : s.idx.toNat < 2 * pairs.toNat) : (xmitFromPack pairs (startBatch s)).Appends s := by
  rintro t ht
  cases hpack : xmitPack pairs (startBatch s) with
  | go u =>
    obtain ⟨us, last, hl⟩ := xmitPack_eq_go h.config h.cur h.even hlt hpack
    rw [xmitFromPack, hpack, Flow.go_andThen] at ht
    have sent : Appends (u.toPhase .wait) t := xmitFromWait_appends (loaded_inv h hl) rfl t ht
    exact .trans (.of_eq (by rw [hl.frame]; rfl)) sent
  | stop u => exact absurd hpack xmitPack_ne_stop
  | fault f => simp [xmitFromPack, hpack] at ht
  | refuse x => simp [xmitFromPack, hpack] at ht

theorem xmitLoop_appends {s : State} {r : Request} {pairs : BitVec 13} {n : Nat} (h : TurnHead pairs r s) :
    (xmitLoop pairs n s).Appends s := by
  induction n generalizing s with
  | zero => exact .stop rfl
  | succ n ih =>
    rw [xmitLoop]
    split
    · rename_i hlt
      have hlt := idx_lt_lenOf.1 hlt
      exact (turn_appends h hlt).andThen fun t hgo => ih (turn_turnHead h hlt hgo).1
    · exact .stop rfl

theorem fromWrite_appends {s : State} {r : Request} {i : Instr} (h : Inv s) (hp : s.phase = .write)
    (hcur : s.cur = some r) (hd : decode r.hdr = .op i) : (fromWrite i s).Appends s := by
  have hoff := h.offering hp
  cases i with
  | xinit => exact awaitAnswer_andThen_appends hoff fun _ _ => xinitAcct_appends
  | xmit pairs =>
    rw [fromWrite_xmit]
    exact (awaitAnswer_andThen_appends hoff fun _ _ => xmitAcct_appends).andThen fun t hgo =>
      xmitLoop_appends (xmitFromWrite_turnHead h hp hcur hd hgo)
  | setrw v | setaux v => exact awaitAnswer_andThen_appends hoff fun _ _ => auxFinish_appends

theorem fromWait_appends {s : State} {r : Request} {i : Instr} (h : Inv s) (hp : s.phase = .wait)
    (hcur : s.cur = some r) (hd : decode r.hdr = .op i) : (fromWait i s).Appends s := by
  have transmit : (((waitDeadline s).andThen offerBuffer).andThen (fromWrite i)).Appends s := by
    refine (waitOffer_appends s).andThen fun t hsent => ?_
    obtain ⟨ht, hpt, hct⟩ := waitOffer_go_inv h hp hsent
    exact fromWrite_appends ht hpt (hct.trans hcur) hd
  cases i with
  | xinit | xmit pairs => exact transmit
  | setrw v | setaux v => exact .stop rfl

theorem auxWrite_appends (a : Byte) (s : State) : (auxWrite a s).Appends s := by
  have offered : Offering ((s.setAux a).putOffer [a]) := by
    rintro w ⟨⟩
    exact ⟨by simp, Nat.le_refl _⟩
  exact fun t ht => awaitAnswer_andThen_appends offered (fun _ _ => auxFinish_appends) t ht

/-- Every operation, from its start. -/
theorem exec_appends {s t : State} {r : Request} {i : Instr} (h : Begun i r s) (he : exec i s = .next t) : Appends s t := by
  cases i with
  | xinit =>
    rw [exec_xinit h.config] at he
    have hbegun : Begun .xinit r ((s.toPhase .check).setDone 0) := h.scratch
    rcases Flow.next_of_andThen he with hstop | ⟨u, hpack, hwait⟩
    · exact absurd hstop xinitPack_ne_stop
    · have hu := xinitPack_inv hbegun rfl hpack
      have same := xinitPack_keeps _ u (.inl hpack)
      have sent : Appends (u.toPhase .wait) t := (fromWait_appends hu rfl (same.cur.trans h.cur) h.op).of_next hwait
      obtain ⟨d, -, -, e⟩ := xinitPack_eq_go hpack
      exact .trans (.of_eq (by rw [e]; rfl)) sent
  | xmit pairs =>
    by_cases hp : pairs = 0
    · subst hp
      rw [exec, execXmit_zero h.config] at he
      cases he
      exact .of_eq rfl
    · rw [exec, execXmit_eq h.config hp] at he
      exact (xmitLoop_appends (r := r) (s := (s.toPhase .check).startXmit) ⟨h.scratch, rfl⟩).of_next he
  | setrw v =>
    rw [exec_setrw h.config] at he
    exact (auxWrite_appends _ (s.toPhase .check)).of_next he
  | setaux v =>
    rw [exec_setaux h.config] at he
    exact (auxWrite_appends _ (s.toPhase .check)).of_next he

/-- Settles O46: a write is observed where it is answered and nowhere else; what is on offer there has bytes and was issued no
later than now. -/
theorem writesAreOnlyAppended : Obligations.WritesAreOnlyAppended := by
  unfold Obligations.WritesAreOnlyAppended
  intro s t h he
  show Appends s t
  obtain ⟨-, ⟨-, -, rfl⟩ | ⟨-, -, -, rfl⟩ | ⟨-, hp, r, rest, now, -, -, ⟨i, hd, hx⟩ | ⟨e, -, rfl⟩⟩ | ⟨-, -, rfl⟩ |
    ⟨-, hready, hresp, ⟨-, rfl⟩ | ⟨r, hcur, ⟨i, hd, hx⟩ | ⟨e, -, rfl⟩⟩⟩⟩ := step_cases he
  · exact .of_eq rfl
  · exact .of_eq rfl
  · have begun : Appends (s.takeRequest r rest now) t := exec_appends (takeRequest_begun h hp hd rest now) hx
    exact .trans (.of_eq rfl) begun
  · exact .of_eq rfl
  · rcases takeResponse_cases s with ⟨w, -, -, e⟩ | ⟨-, e⟩ <;> rw [e]
    · exact .of_eq rfl
    · exact .of_eq rfl
  · exact .of_eq rfl
  · rcases h.phase with hp | hp | hp | hp
    · exact absurd hp hready
    · rw [resumeOp_wait hp] at hx
      exact (fromWait_appends h hp hcur hd).of_next hx
    · rw [resumeOp_write hp] at hx
      exact (fromWrite_appends h hp hcur hd).of_next hx
    · exact absurd hp hresp
  · exact .of_eq rfl

/-! ### The ports that an operation reads in one place only

The text of the request is read where elements are packed (R40), the channel's answers where one is awaited (R46). So all
other stretches of an operation do the same whatever stands at these two ports. -/

/-- The same state with the request `r` in progress and the answers to come changed by `g`. -/
def State.withPorts (r : Request) (g : List Answer → List Answer) (s : State) : State :=
  { s with cur := some r, answers := g s.answers }

/-- The states in which a stretch ends, changed by `φ`. -/
def Flow.map (φ : State → State) : Flow → Flow
  | .go s => .go (φ s)
  | .stop s => .stop (φ s)
  | .fault f => .fault f
  | .refuse x => .refuse x

/-- The next state that a step answers, changed by `φ`. -/
def mapNext (φ : State → State) : Host.Outcome State Fault Refusal → Host.Outcome State Fault Refusal
  | .next s => .next (φ s)
  | .fault f => .fault f
  | .refused x => .refused x

@[simp] theorem Flow.map_outcome (φ : State → State) (m : Flow) : (m.map φ).outcome = mapNext φ m.outcome := by
  cases m <;> rfl

/-- Two stretches that do the same under `φ` do so in sequence. -/
theorem Flow.map_andThen {φ : State → State} {m m' : Flow} {k : State → Flow} (hm : m' = m.map φ)
    (hk : ∀ t, m = .go t → k (φ t) = (k t).map φ) : m'.andThen k = (m.andThen k).map φ := by
  subst hm
  cases m with
  | go t => exact hk t rfl
  | stop t => rfl
  | fault f => rfl
  | refuse x => rfl

section
variable (r : Request) (g : List Answer → List Answer) (s : State)

@[simp] theorem State.withPorts_cfg : (s.withPorts r g).cfg = s.cfg := rfl
@[simp] theorem State.withPorts_dlValid : (s.withPorts r g).dlValid = s.dlValid := rfl
@[simp] theorem State.withPorts_idx : (s.withPorts r g).idx = s.idx := rfl
@[simp] theorem State.withPorts_j : (s.withPorts r g).j = s.j := rfl
@[simp] theorem State.withPorts_lastSlow : (s.withPorts r g).lastSlow = s.lastSlow := rfl
@[simp] theorem State.withPorts_now : (s.withPorts r g).now = s.now := rfl
@[simp] theorem State.withPorts_ticks : (s.withPorts r g).ticks = s.ticks := rfl
@[simp] theorem State.withPorts_cur : (s.withPorts r g).cur = some r := rfl
@[simp] theorem State.withPorts_answers : (s.withPorts r g).answers = g s.answers := rfl
@[simp] theorem State.withPorts_offer : (s.withPorts r g).offer = s.offer := rfl
@[simp] theorem State.withPorts_ans : (s.withPorts r g).ans = s.ans := rfl
@[simp] theorem State.withPorts_holdTarget : (s.withPorts r g).holdTarget = s.holdTarget := rfl

theorem startBatch_withPorts : startBatch (s.withPorts r g) = (startBatch s).withPorts r g := by
  simp only [startBatch, State.withPorts_cfg]
  split <;> rfl

theorem storeBytes_withPorts (i : Nat) (bytes : List Byte) :
    storeBytes i bytes (s.withPorts r g) = (storeBytes i bytes s).map (State.withPorts r g) := by
  rcases storeBytes_cases i bytes s with ⟨h, e⟩ | ⟨h, e⟩ <;> rw [e]
  · exact storeBytes_go h
  · exact if_neg (by simpa using h)

/-! #### WAIT and WRITE -/

theorem waitDeadline_withPorts : waitDeadline (s.withPorts r g) = (waitDeadline s).map (State.withPorts r g) := by
  rcases waitDeadline_cases s with ⟨t, ts, h, hv, e⟩ | ⟨t, ts, h, hv, e⟩ | ⟨t, h, -, e⟩ | ⟨h, e⟩ <;> rw [e] <;>
    simp only [waitDeadline, State.withPorts_holdTarget, State.withPorts_now, State.withPorts_ticks, h]
  · exact if_pos hv
  · exact if_neg (by simp [hv])
  · rfl
  · rfl

theorem waitOffer_withPorts : (waitDeadline (s.withPorts r g)).andThen offerBuffer =
    ((waitDeadline s).andThen offerBuffer).map (State.withPorts r g) :=
  Flow.map_andThen (waitDeadline_withPorts r g s) fun _ _ => rfl

/-! #### ACCT -/

theorem arm_withPorts (settle : Time) : arm settle (s.withPorts r g) = (arm settle s).map (State.withPorts r g) := by
  simp only [arm, State.withPorts_now]
  cases advance s.now settle.toNat <;> rfl

theorem armIf_withPorts (b : Bool) (settle : Time) :
    armIf b settle (s.withPorts r g) = (armIf b settle s).map (State.withPorts r g) := by
  cases b with
  | false => rfl
  | true => exact arm_withPorts r g s settle

theorem countUnits_withPorts (good : Bool) (c : Nat) :
    countUnits good c (s.withPorts r g) = (countUnits good c s).map (State.withPorts r g) := by
  cases good <;> rfl

theorem xinitAcct_withPorts : xinitAcct (s.withPorts r g) = (xinitAcct s).map (State.withPorts r g) := by
  simp only [xinitAcct, State.withPorts_ans]
  cases s.ans with
  | none => rfl
  | some a =>
    refine Flow.map_andThen (armIf_withPorts r g s.emptyBuffer _ _) fun t _ => ?_
    split <;> rfl

theorem xmitAcct_withPorts : xmitAcct (s.withPorts r g) = (xmitAcct s).map (State.withPorts r g) := by
  have accounted : ∀ (b good : Bool) (settle : Time) (c : Nat),
      (armIf b settle (s.withPorts r g).emptyBuffer).andThen (countUnits good c) =
        ((armIf b settle s.emptyBuffer).andThen (countUnits good c)).map (State.withPorts r g) :=
    fun b good settle c =>
      Flow.map_andThen (armIf_withPorts r g s.emptyBuffer b settle) fun t _ => countUnits_withPorts r g t good c
  simp only [xmitAcct, xmitAcctDirect, xmitAcctBatched, State.withPorts_cfg, State.withPorts_ans, State.withPorts_lastSlow,
    State.withPorts_j, accounted]
  cases s.cfg.mode <;> cases s.ans <;> rfl

theorem auxFinish_withPorts : auxFinish (s.withPorts r g) = (auxFinish s).map (State.withPorts r g) := by
  simp only [auxFinish, State.withPorts_ans]
  cases s.ans with
  | none => rfl
  | some a =>
    dsimp only
    split <;> rfl

end

/-! #### PACK -/

/-- The elements `0` to `LEN - 1` are the same in both streams. -/
def SameElements (len : Nat) (r r' : Request) : Prop := ∀ i, i < len → r'.stream[i]? = r.stream[i]?

section
variable {r r' : Request} {g : List Answer → List Answer} {s : State}

/-- So is what is read of them. -/
theorem element_withPorts {len i : Nat} (hs : SameElements len r r') (hcur : s.cur = some r) :
    (s.withPorts r' g).element len i = s.element len i := by
  unfold State.element
  split
  · rename_i hi
    simp only [State.withPorts_cur, hcur]
    exact hs i hi
  · rfl

theorem xinitPack_withPorts (hs : SameElements 1 r r') (hcur : s.cur = some r) :
    xinitPack (s.withPorts r' g) = (xinitPack s).map (State.withPorts r' g) := by
  simp only [xinitPack, element_withPorts hs hcur]
  cases s.element 1 0 with
  | none => rfl
  | some d => exact Flow.map_andThen (storeBytes_withPorts r' g (s.toPhase .pack) _ _) fun _ _ => rfl

variable {pairs : BitVec 13}

theorem xmitPackDirect_withPorts (hs : SameElements (lenOf pairs).toNat r r') (hcur : s.cur = some r) :
    xmitPackDirect pairs (s.withPorts r' g) = (xmitPackDirect pairs s).map (State.withPorts r' g) := by
  simp only [xmitPackDirect, State.withPorts_idx, element_withPorts hs hcur]
  split
  · exact Flow.map_andThen (storeBytes_withPorts r' g (s.toPhase .pack).nextPair _ _) fun _ _ => rfl
  · rfl

theorem packSlot_withPorts (hs : SameElements (lenOf pairs).toNat r r') (hcur : s.cur = some r) :
    packSlot pairs (s.withPorts r' g) = (packSlot pairs s).map (State.withPorts r' g) := by
  simp only [packSlot, State.withPorts_idx, element_withPorts hs hcur]
  split
  · exact Flow.map_andThen (storeBytes_withPorts r' g (s.toPhase .pack).nextPair _ _) fun _ _ => rfl
  · rfl

theorem packLoop_withPorts {n : Nat} (hs : SameElements (lenOf pairs).toNat r r') (hcur : s.cur = some r) :
    packLoop pairs n (s.withPorts r' g) = (packLoop pairs n s).map (State.withPorts r' g) := by
  induction n generalizing s with
  | zero => rfl
  | succ n ih =>
    refine Flow.map_andThen (packSlot_withPorts hs hcur) fun t hgo => ?_
    have same := packSlot_keeps pairs s t (.inl hgo)
    rw [show batchClosed pairs (t.withPorts r' g) = batchClosed pairs t from rfl]
    split
    · rfl
    · exact ih (same.cur.trans hcur)

theorem xmitPack_withPorts (hs : SameElements (lenOf pairs).toNat r r') (hcur : s.cur = some r) :
    xmitPack pairs (s.withPorts r' g) = (xmitPack pairs s).map (State.withPorts r' g) := by
  simp only [xmitPack, State.withPorts_cfg]
  split
  · exact xmitPackDirect_withPorts hs hcur
  · exact Flow.map_andThen (packLoop_withPorts hs hcur) fun _ _ => rfl

end

/-! ### Elements beyond LEN (R40, R41) -/

section
variable {r r' : Request} {s : State}

theorem awaitAnswer_withPorts : awaitAnswer (s.withPorts r' id) = (awaitAnswer s).map (State.withPorts r' id) := by
  simp only [awaitAnswer, State.withPorts_offer, State.withPorts_answers, State.withPorts_now, id_eq]
  cases s.offer with
  | none => rfl
  | some w =>
    cases s.answers with
    | nil => rfl
    | cons a rest =>
      dsimp only
      split
      · cases advance s.now a.after <;> rfl
      · rfl

theorem xmitFromWait_withPorts : xmitFromWait (s.withPorts r' id) = (xmitFromWait s).map (State.withPorts r' id) :=
  Flow.map_andThen (waitOffer_withPorts r' id s) fun _ _ =>
    Flow.map_andThen awaitAnswer_withPorts fun t _ => xmitAcct_withPorts r' id t

theorem xmitLoop_withPorts {pairs : BitVec 13} {n : Nat} (hs : SameElements (lenOf pairs).toNat r r')
    (hcur : s.cur = some r) :
    xmitLoop pairs n (s.withPorts r' id) = (xmitLoop pairs n s).map (State.withPorts r' id) := by
  induction n generalizing s with
  | zero => rfl
  | succ n ih =>
    rw [xmitLoop, xmitLoop, State.withPorts_idx, startBatch_withPorts]
    split
    · refine Flow.map_andThen (Flow.map_andThen (xmitPack_withPorts hs (by simpa using hcur)) fun _ _ =>
        xmitFromWait_withPorts) fun t hgo => ih ?_
      have same := xmitFromPack_keeps pairs (startBatch s) t (.inl hgo)
      rw [same.cur, startBatch_cur, hcur]
    · rfl

theorem payloadLen_xinit : payloadLen (encode .xinit) = 1 := by decide

theorem payloadLen_xmit (pairs : BitVec 13) : payloadLen (encode (.xmit pairs)) = (lenOf pairs).toNat := by
  have hlt := pairs.isLt
  have hop : opField (encode (.xmit pairs)) = 0b00 :=
    (opField_eq_iff _ 0 (by decide)).2 (by rw [encode_xmit_toNat]; omega)
  rw [payloadLen, if_pos hop, argField_toNat, encode_xmit_toNat, lenOf_toNat]
  omega

theorem fromWrite_withPorts {i : Instr} (hs : SameElements (payloadLen (encode i)) r r') (hcur : s.cur = some r) :
    fromWrite i (s.withPorts r' id) = (fromWrite i s).map (State.withPorts r' id) := by
  refine Flow.map_andThen awaitAnswer_withPorts fun t hgo => ?_
  have same := awaitAnswer_keeps s t (.inl hgo)
  cases i with
  | xinit => exact xinitAcct_withPorts r' id t
  | xmit pairs =>
    refine Flow.map_andThen (xmitAcct_withPorts r' id t) fun u hacct => ?_
    rw [payloadLen_xmit] at hs
    exact xmitLoop_withPorts hs (by rw [(xmitAcct_keeps t u (.inl hacct)).cur, same.cur, hcur])
  | setrw v | setaux v => exact auxFinish_withPorts r' id t

theorem fromWait_withPorts {i : Instr} (hs : SameElements (payloadLen (encode i)) r r') (hcur : s.cur = some r) :
    fromWait i (s.withPorts r' id) = (fromWait i s).map (State.withPorts r' id) := by
  have transmit : ((waitDeadline (s.withPorts r' id)).andThen offerBuffer).andThen (fromWrite i) =
      (((waitDeadline s).andThen offerBuffer).andThen (fromWrite i)).map (State.withPorts r' id) :=
    Flow.map_andThen (waitOffer_withPorts r' id s) fun t hgo => fromWrite_withPorts hs ((waitGo_keep hgo).cur.trans hcur)
  cases i with
  | xinit | xmit pairs => exact transmit
  | setrw v | setaux v => rfl

theorem auxWrite_withPorts (a : Byte) : auxWrite a (s.withPorts r' id) = (auxWrite a s).map (State.withPorts r' id) :=
  Flow.map_andThen (awaitAnswer_withPorts (s := (s.setAux a).putOffer [a])) fun t _ => auxFinish_withPorts r' id t

/-- Every operation, from its start. -/
theorem exec_withPorts {i : Instr} (hs : SameElements (payloadLen (encode i)) r r') (hcur : s.cur = some r) :
    exec i (s.withPorts r' id) = mapNext (State.withPorts r' id) (exec i s) := by
  cases hc : cfgOk s.cfg with
  | false => rw [exec_refuses_badConfig i hc, exec_refuses_badConfig i (s := s.withPorts r' id) hc]; rfl
  | true =>
    have hc' : cfgOk (s.withPorts r' id).cfg = true := hc
    cases i with
    | xinit =>
      rw [exec_xinit hc, exec_xinit hc', ← Flow.map_outcome]
      rw [payloadLen_xinit] at hs
      refine congrArg Flow.outcome (Flow.map_andThen (xinitPack_withPorts (g := id)
        (s := (s.toPhase .check).setDone 0) hs hcur) fun t hgo => fromWait_withPorts (payloadLen_xinit ▸ hs) ?_)
      exact (xinitPack_keeps _ t (.inl hgo)).cur.trans hcur
    | xmit pairs =>
      by_cases hp : pairs = 0
      · subst hp
        rw [exec, exec, execXmit_zero hc, execXmit_zero hc']
        rfl
      · rw [exec, exec, execXmit_eq hc hp, execXmit_eq hc' hp, ← Flow.map_outcome]
        rw [payloadLen_xmit] at hs
        exact congrArg Flow.outcome (xmitLoop_withPorts (s := (s.toPhase .check).startXmit) hs hcur)
    | setrw v =>
      rw [exec_setrw hc, exec_setrw hc', ← Flow.map_outcome]
      exact congrArg Flow.outcome (auxWrite_withPorts (s := s.toPhase .check) _)
    | setaux v =>
      rw [exec_setaux hc, exec_setaux hc', ← Flow.map_outcome]
      exact congrArg Flow.outcome (auxWrite_withPorts (s := s.toPhase .check) _)

theorem step_refuses_reset (hc : cfgOk s.cfg = true) (hrst : s.rst = true) (hp : s.phase ≠ .ready) :
    step s = .refused .resetDuringOperation := by
  unfold step
  rw [if_pos hc, if_pos hrst]
  split
  · contradiction
  · rfl

/-- A step on an operation in progress, held in `WAIT` or `WRITE`. -/
theorem step_withPorts {i : Instr} (hs : SameElements (payloadLen (encode i)) r r') (hcur : s.cur = some r)
    (hd : decode r.hdr = .op i) (hd' : decode r'.hdr = .op i) (hp : s.phase = .wait ∨ s.phase = .write) :
    step (s.withPorts r' id) = mapNext (State.withPorts r' id) (step s) := by
  have hready : s.phase ≠ .ready := by rcases hp with hp | hp <;> simp [hp]
  have hresp : s.phase ≠ .resp := by rcases hp with hp | hp <;> simp [hp]
  cases hc : cfgOk s.cfg with
  | false => rw [step_refuses_badConfig hc, step_refuses_badConfig (s := s.withPorts r' id) hc]; rfl
  | true =>
    cases hrst : s.rst with
    | true => rw [step_refuses_reset hc hrst hready, step_refuses_reset (s := s.withPorts r' id) hc hrst hready]; rfl
    | false =>
      rw [step_eq_resumeOp hc hrst hready hresp hcur hd,
        step_eq_resumeOp (s := s.withPorts r' id) hc hrst hready hresp rfl hd']
      rcases hp with hp | hp
      · rw [resumeOp_wait hp, resumeOp_wait (s := s.withPorts r' id) hp, fromWait_withPorts hs hcur, Flow.map_outcome]
      · rw [resumeOp_write hp, resumeOp_write (s := s.withPorts r' id) hp, fromWrite_withPorts hs hcur, Flow.map_outcome]

end

/-- Settles O49: elements added behind the first `LEN` leave those as they are, and no other element is read. -/
theorem elementsBeyondLenAreNotRead : Obligations.ElementsBeyondLenAreNotRead := by
  unfold Obligations.ElementsBeyondLenAreNotRead
  intro i s r extra hcur hlen
  have hs : SameElements (payloadLen (encode i)) r { r with stream := r.stream ++ extra } :=
    fun k hk => List.getElem?_append_left (Nat.lt_of_lt_of_le hk hlen)
  exact ⟨exec_withPorts hs hcur, fun hd hp => step_withPorts hs hcur hd hd hp⟩

/-! ### Answers that come late (R46, R54, R172) -/

theorem SameElements.refl (len : Nat) (r : Request) : SameElements len r r := fun _ _ => rfl

/-- `PACK` and `WAIT` of a turn: the write of the next commands is packed and offered. -/
def sendTurn (pairs : BitVec 13) (s : State) : Flow :=
  (xmitPack pairs (startBatch s)).andThen fun u => (waitDeadline u).andThen offerBuffer

/-- `PACK` and `WAIT` of `XINIT`. -/
def sendFrame (s : State) : Flow := (xinitPack s).andThen fun u => (waitDeadline u).andThen offerBuffer

theorem xmitFromPack_eq (pairs : BitVec 13) (s : State) :
    xmitFromPack pairs (startBatch s) = (sendTurn pairs s).andThen fun v => (awaitAnswer v).andThen xmitAcct :=
  (Flow.andThen_assoc _ _ _).symm

theorem exec_xinit_eq {s : State} (hc : cfgOk s.cfg = true) :
    exec .xinit s = ((sendFrame ((s.toPhase .check).setDone 0)).andThen (fromWrite .xinit)).outcome := by
  rw [exec_xinit hc, sendFrame, Flow.andThen_assoc]
  rfl

/-- The start of a write: if it goes on, a write is on offer; if it stops, the block is not in `WRITE` yet. -/
structure Flow.Sends (m : Flow) : Prop where
  offered : ∀ v, m = .go v → ∃ w, v.offer = some w
  held : ∀ v, m = .stop v → v.phase ≠ .write

theorem packed_sends {m : Flow} (h : ∀ t, m ≠ .stop t) :
    (m.andThen fun u => (waitDeadline u).andThen offerBuffer).Sends where
  offered v hv := by
    obtain ⟨u, -, hsent⟩ := Flow.andThen_eq_go hv
    obtain ⟨dt, n, -, -, e⟩ := waitOffer_eq_go hsent
    exact ⟨_, by rw [e]⟩
  held v hv := by
    rcases Flow.andThen_eq_stop hv with hstop | ⟨u, -, hheld⟩
    · exact absurd hstop (h v)
    · obtain ⟨-, -, -, e⟩ := waitOffer_eq_stop hheld
      rw [e]
      exact nofun

theorem sendTurn_sends (pairs : BitVec 13) (s : State) : (sendTurn pairs s).Sends := packed_sends fun _ => xmitPack_ne_stop

theorem sendFrame_sends (s : State) : (sendFrame s).Sends := packed_sends fun _ => xinitPack_ne_stop

theorem putOffer_sends (s : State) (bytes : List Byte) : (Flow.go (s.putOffer bytes)).Sends where
  offered v hv := by
    obtain rfl := Flow.go.inj hv
    exact ⟨_, rfl⟩
  held v hv := by simp at hv

/-- An operation that stops in accounting an answer has left `WRITE`. -/
def LeavesWrite (acct : State → Flow) : Prop := ∀ s a t, s.ans = some a → acct s = .stop t → t.phase ≠ .write

theorem xinitAcct_leavesWrite : LeavesWrite xinitAcct := by
  intro s a t ha h
  obtain ⟨dv, dt, rfl, -⟩ := xinitAcct_eq_stop ha h
  exact nofun

theorem xmitAcct_leavesWrite : LeavesWrite xmitAcct := by
  intro s a t ha h
  rcases xmitAcct_cases ha with ⟨dv, dt, -, ⟨-, e⟩ | ⟨-, e⟩⟩ | e <;> rw [e] at h <;> cases h
  exact nofun

theorem auxFinish_leavesWrite : LeavesWrite auxFinish := by
  intro s a t ha h
  obtain ⟨w, e⟩ := auxFinish_eq ha
  rw [e] at h
  cases h
  exact nofun

section
variable {r : Request} {later : List Answer} {s t : State}

/-- An answer that is there is received whatever comes behind it. -/
theorem awaitAnswer_later (h : awaitAnswer s = .go t) :
    awaitAnswer (s.withPorts r (· ++ later)) = .go (t.withPorts r (· ++ later)) := by
  obtain ⟨w, a, rest, u, ho, ha, hn, hu, rfl⟩ := awaitAnswer_eq_go h
  exact awaitAnswer_go (s := s.withPorts r (· ++ later)) ho (by simp [ha]) hn hu

/-- A write held in `WRITE` for want of an answer: given answers from the start, the same write is sent and awaits them. -/
theorem held_later {m m' : Flow} {acct : State → Flow} (hsend : m.Sends) (hacct : LeavesWrite acct)
    (hm : m' = m.map (State.withPorts r (· ++ later)))
    (h : m.andThen (fun v => (awaitAnswer v).andThen acct) = .stop t) (hp : t.phase = .write) :
    t.answers = [] ∧ m'.andThen (fun v => (awaitAnswer v).andThen acct) =
      (awaitAnswer (t.withPorts r (· ++ later))).andThen acct := by
  rcases Flow.andThen_eq_stop h with hheld | ⟨v, hv, hwrite⟩
  · exact absurd hp (hsend.held t hheld)
  rcases Flow.andThen_eq_stop hwrite with hheld | ⟨u, hans, hstop⟩
  · obtain ⟨rfl, hno⟩ := awaitAnswer_eq_stop hheld
    obtain ⟨w, ho⟩ := hsend.offered t hv
    refine ⟨hno.resolve_left (by simp [ho]), ?_⟩
    rw [hm, hv]
    rfl
  · obtain ⟨w, a, rest, x, -, -, -, -, rfl⟩ := awaitAnswer_eq_go hans
    exact absurd hp (hacct _ a t rfl hstop)

theorem sendTurn_withPorts {pairs : BitVec 13} {g : List Answer → List Answer} (hcur : s.cur = some r) :
    sendTurn pairs (s.withPorts r g) = (sendTurn pairs s).map (State.withPorts r g) := by
  rw [sendTurn, startBatch_withPorts]
  exact Flow.map_andThen (xmitPack_withPorts (.refl _ r) (by simpa using hcur)) fun u _ => waitOffer_withPorts r g u

theorem sendFrame_withPorts {g : List Answer → List Answer} (hcur : s.cur = some r) :
    sendFrame (s.withPorts r g) = (sendFrame s).map (State.withPorts r g) :=
  Flow.map_andThen (xinitPack_withPorts (.refl _ r) hcur) fun u _ => waitOffer_withPorts r g u

/-- A turn whose write is answered well goes on, whatever answers come behind. -/
theorem turn_later {pairs : BitVec 13} (hcur : s.cur = some r) (h : xmitFromPack pairs (startBatch s) = .go t) :
    xmitFromPack pairs (startBatch (s.withPorts r (· ++ later))) = .go (t.withPorts r (· ++ later)) := by
  rw [xmitFromPack_eq] at h ⊢
  obtain ⟨v, hv, hwrite⟩ := Flow.andThen_eq_go h
  obtain ⟨u, hans, hacct⟩ := Flow.andThen_eq_go hwrite
  rw [sendTurn_withPorts hcur, hv]
  show (awaitAnswer (v.withPorts r (· ++ later))).andThen xmitAcct = _
  rw [awaitAnswer_later hans, Flow.go_andThen, xmitAcct_withPorts, hacct]
  rfl

/-! The loop goes on from where it was held with its full bound on turns, and from the start with what is left of it: both are
enough for the commands left, since each turn moves `IDX`. -/

/-- What the head of a turn needs for that. -/
structure AtTurn (r : Request) (s : State) : Prop where
  config : cfgOk s.cfg = true
  cur : s.cur = some r
  even : s.idx.toNat % 2 = 0

/-- A turn that has packed `n` commands leaves what the head of the next one needs, and has moved `IDX`. -/
theorem AtTurn.next {n : Nat} (h : AtTurn r s) (keep : XKeep s t) (hsome : 1 ≤ n)
    (hidx : t.idx.toNat = s.idx.toNat + 2 * n) : AtTurn r t ∧ s.idx.toNat + 2 ≤ t.idx.toNat := by
  have := h.even
  exact ⟨⟨by rw [keep.cfg]; exact h.config, keep.cur.trans h.cur, by omega⟩, by omega⟩

theorem turn_atTurn {pairs : BitVec 13} (h : AtTurn r s) (hlt : s.idx.toNat < 2 * pairs.toNat)
    (he : xmitFromPack pairs (startBatch s) = .go t) : AtTurn r t ∧ s.idx.toNat + 2 ≤ t.idx.toNat := by
  obtain ⟨us, last, turn⟩ := turn_go h.config h.cur h.even hlt he
  exact h.next turn.keep turn.some turn.idx

theorem turn_stop_atTurn {pairs : BitVec 13} (h : AtTurn r s) (hlt : s.idx.toNat < 2 * pairs.toNat)
    (he : xmitFromPack pairs (startBatch s) = .stop t) : AtTurn r t ∧ s.idx.toNat + 2 ≤ t.idx.toNat := by
  obtain ⟨us, last, turn⟩ := turn_stop h.config h.cur h.even hlt he
  exact h.next turn.keep turn.some turn.idx

/-- Any bound that is enough for the commands left is as good as the full one. -/
theorem fromWrite_fuel {pairs : BitVec 13} {n : Nat} (h : AtTurn r s) (hfuel : 2 * pairs.toNat ≤ s.idx.toNat + 2 * n) :
    (xmitFromWrite s).andThen (xmitLoop pairs n) = fromWrite (.xmit pairs) s := by
  rw [fromWrite_xmit]
  cases hw : xmitFromWrite s with
  | go t =>
    obtain ⟨w, a, rest, u, dv, dt, -, -, -, -, -, -, e⟩ := xmitFromWrite_eq_go hw
    have hidx : t.idx = s.idx := by rw [e]; rfl
    have ht : AtTurn r t := by rw [e]; exact ⟨h.config, h.cur, h.even⟩
    exact xmitLoop_fuel (P := AtTurn r) (fun _ _ => turn_atTurn) ht (by rw [hidx]; exact hfuel) (by omega)
  | stop t => rfl
  | fault f => rfl
  | refuse x => rfl

/-- An `XMIT` held in `WRITE`, by induction over the turns that were answered well before. -/
theorem xmitLoop_later {pairs : BitVec 13} {n : Nat} (h : AtTurn r s) (hfuel : 2 * pairs.toNat ≤ s.idx.toNat + 2 * n)
    (he : xmitLoop pairs n s = .stop t) (hp : t.phase = .write) :
    t.answers = [] ∧ xmitLoop pairs n (s.withPorts r (· ++ later)) =
      fromWrite (.xmit pairs) (t.withPorts r (· ++ later)) := by
  induction n generalizing s with
  | zero =>
    cases he
    cases hp
  | succ n ih =>
    rw [xmitLoop] at he ⊢
    split at he
    · rename_i hlt
      rw [State.withPorts_idx, if_pos hlt]
      have hlt := idx_lt_lenOf.1 hlt
      rcases Flow.andThen_eq_stop he with hturn | ⟨u, hturn, hloop⟩
      · obtain ⟨ht, hidx⟩ := turn_stop_atTurn h hlt hturn
        rw [xmitFromPack_eq] at hturn
        obtain ⟨hans, hlate⟩ := held_later (later := later) (sendTurn_sends pairs s) xmitAcct_leavesWrite
          (sendTurn_withPorts h.cur) hturn hp
        refine ⟨hans, ?_⟩
        rw [xmitFromPack_eq, hlate]
        exact fromWrite_fuel (s := t.withPorts r (· ++ later)) ⟨ht.config, rfl, ht.even⟩
          (by rw [State.withPorts_idx]; omega)
      · obtain ⟨hu, hidx⟩ := turn_atTurn h hlt hturn
        rw [turn_later h.cur hturn, Flow.go_andThen]
        exact ih hu (by omega) hloop
    · cases he
      cases hp

/-- An auxiliary operation offers its byte and awaits the answer. -/
theorem auxWrite_eq (a : Byte) (s : State) :
    auxWrite a s = (Flow.go ((s.setAux a).putOffer [a])).andThen fun v => (awaitAnswer v).andThen auxFinish := rfl

theorem auxWrite_ne_go {a : Byte} : auxWrite a s ≠ .go t := by
  intro h
  obtain ⟨u, hans, hfin⟩ := Flow.andThen_eq_go h
  obtain ⟨w, b, rest, x, -, -, -, -, rfl⟩ := awaitAnswer_eq_go hans
  obtain ⟨word, e⟩ := auxFinish_eq (s := State.takeAnswer _ w b rest x) (a := b) rfl
  rw [e] at hfin
  cases hfin

theorem auxWrite_later {a : Byte} (he : (auxWrite a s).outcome = .next t) (hp : t.phase = .write) :
    t.answers = [] ∧ auxWrite a (s.withPorts r (· ++ later)) =
      (awaitAnswer (t.withPorts r (· ++ later))).andThen auxFinish := by
  have hstop := (Flow.outcome_eq_next.1 he).resolve_left auxWrite_ne_go
  rw [auxWrite_eq] at hstop ⊢
  exact held_later (putOffer_sends _ _) auxFinish_leavesWrite rfl hstop hp

/-- An operation held in `WRITE`, given answers from its start, is the operation from `WRITE` on with these answers. -/
theorem exec_later {i : Instr} (hcur : s.cur = some r) (he : exec i s = .next t) (hp : t.phase = .write) :
    cfgOk s.cfg = true ∧ t.answers = [] ∧ exec i (s.withPorts r (· ++ later)) =
      (fromWrite i (t.withPorts r (· ++ later))).outcome := by
  have hc : cfgOk s.cfg = true := by
    by_contra hbad
    rw [exec_refuses_badConfig i (by simpa using hbad)] at he
    cases he
  have hc' : cfgOk (s.withPorts r (· ++ later)).cfg = true := hc
  refine ⟨hc, ?_⟩
  cases i with
  | xinit =>
    rw [exec_xinit_eq hc] at he
    have hstop : (sendFrame ((s.toPhase .check).setDone 0)).andThen (fromWrite .xinit) = .stop t := by
      rcases Flow.outcome_eq_next.1 he with hgo | hstop
      · obtain ⟨v, -, hgo⟩ := Flow.andThen_eq_go hgo
        obtain ⟨u, -, hgo⟩ := Flow.andThen_eq_go hgo
        exact absurd hgo xinitAcct_ne_go
      · exact hstop
    obtain ⟨hans, hlate⟩ := held_later (later := later) (sendFrame_sends _) xinitAcct_leavesWrite
      (sendFrame_withPorts (s := (s.toPhase .check).setDone 0) hcur) hstop hp
    rw [exec_xinit_eq hc']
    exact ⟨hans, congrArg Flow.outcome hlate⟩
  | xmit pairs =>
    by_cases h0 : pairs = 0
    · subst h0
      rw [exec, execXmit_zero hc] at he
      cases he
      cases hp
    · rw [exec, execXmit_eq hc h0] at he
      rcases Flow.outcome_eq_next.1 he with hgo | hstop
      · exact absurd hgo xmitLoop_ne_go
      obtain ⟨hans, hlate⟩ := xmitLoop_later (later := later) (s := (s.toPhase .check).startXmit) ⟨hc, hcur, rfl⟩ (by simp)
        hstop hp
      rw [exec, execXmit_eq hc' h0]
      exact ⟨hans, congrArg Flow.outcome hlate⟩
  | setrw v =>
    rw [exec_setrw hc] at he
    obtain ⟨hans, hlate⟩ := auxWrite_later (r := r) (later := later) he hp
    rw [exec_setrw hc']
    exact ⟨hans, congrArg Flow.outcome hlate⟩
  | setaux v =>
    rw [exec_setaux hc] at he
    obtain ⟨hans, hlate⟩ := auxWrite_later (r := r) (later := later) he hp
    rw [exec_setaux hc']
    exact ⟨hans, congrArg Flow.outcome hlate⟩

end

/-- Settles O40: up to the write that is held, an operation receives the answers that are there and reads none behind them; there
it awaits the next one, in `WRITE` as from its start. -/
theorem lateAnswersResumeTheOperation : Obligations.LateAnswersResumeTheOperation := by
  unfold Obligations.LateAnswersResumeTheOperation
  intro i s t r later hrst hcur hd he hp
  have same := exec_same he
  have hcurt : t.cur = some r := same.cur.trans hcur
  obtain ⟨hc, hans, hlate⟩ := exec_later (later := later) hcur he hp
  have hs : { s with answers := s.answers ++ later } = s.withPorts r (· ++ later) := by
    rw [State.withPorts, ← hcur]
  have ht : { t with answers := later } = t.withPorts r (· ++ later) := by
    rw [State.withPorts, ← hcurt, hans]
    rfl
  rw [hs, hlate, ht]
  exact step_eq_fromWrite (by rw [State.withPorts_cfg, same.cfg]; exact hc) (same.rst.trans hrst) hp rfl hd

end Sys2Proof.Machine

namespace Sys2Proof

/-! ## Encoding: the opcode map over the header's number (R61 to R64, R72, R73) -/

/-! ### The decoder is its table of cases -/

/-- The case of the opcode map for what a header decodes to: the numbers of the headers that fall in it (R73). -/
def Decoded.Row : Decoded → Nat → Prop
  | .op .xinit, n => n = 1
  | .op (.xmit pairs), n => pairs ≠ 0 ∧ n = 2 * pairs.toNat
  | .op (.setrw v), n => n = 0x4000 + v.toNat
  | .op (.setaux v), n => n = 0x8000 + v.toNat
  | .rejected .badLength, n => n < 2 ^ 14 ∧ (n = 0 ∨ (n ≠ 1 ∧ n % 2 = 1))
  | .rejected .illegal, n => n / 2 ^ 14 = 3 ∨ (n / 2 ^ 14 ≠ 0 ∧ n / 2 % 2 ^ 13 ≠ 0)

/-- The level `V` of a header's number is its parity (R64). -/
theorem decide_odd_eq_iff {n : Nat} {v : Bool} : decide (n % 2 = 1) = v ↔ n % 2 = v.toNat := by
  rcases Nat.mod_two_eq_zero_or_one n with z | z <;> cases v <;> simp [z]

/-- Every header lies in the case of what it decodes to. -/
theorem decode_row (h : Header) : (decode h).Row h.toNat := by
  have hlt := h.isLt
  rw [decode_eq]
  split
  case isTrue illegal => exact illegal
  case isFalse legal =>
    split
    case isTrue one => exact one
    case isFalse notOne =>
      split
      case isTrue even =>
        have hn : (argHigh h).toNat = h.toNat / 2 := by rw [argHigh_toNat]; omega
        have hpos : (argHigh h).toNat ≠ 0 := by omega
        exact ⟨BitVec.toNat_ne.2 hpos, by omega⟩
      case isFalse bad =>
        split
        case isTrue short => exact ⟨short, by omega⟩
        case isFalse long =>
          have hv : h.toNat % 2 = (decide (h.toNat % 2 = 1)).toNat := decide_odd_eq_iff.1 rfl
          split
          case isTrue one => rw [Decoded.Row, ← hv]; omega
          case isFalse two => rw [Decoded.Row, ← hv]; omega

/-- No header lies in another case: one in the case of `d` decodes to `d`. -/
theorem decode_of_row {h : Header} {d : Decoded} (row : d.Row h.toNat) : decode h = d := by
  rw [decode_eq]
  match d, row with
  | .op .xinit, row =>
    have row : h.toNat = 1 := row
    rw [if_neg (by omega), if_pos row]
  | .op (.xmit pairs), ⟨hp, row⟩ =>
    have hlt := pairs.isLt
    have hpos : pairs.toNat ≠ 0 := BitVec.toNat_ne.1 hp
    have hn : argHigh h = pairs := BitVec.eq_of_toNat_eq (by rw [argHigh_toNat]; omega)
    rw [if_neg (by omega), if_neg (by omega), if_pos (by omega), hn]
  | .op (.setrw v), row =>
    have row : h.toNat = 0x4000 + v.toNat := row
    have hv := v.toNat_le
    have level : decide (h.toNat % 2 = 1) = v := decide_odd_eq_iff.2 (by omega)
    rw [if_neg (by omega), if_neg (by omega), if_neg (by omega), if_neg (by omega), if_pos (by omega), level]
  | .op (.setaux v), row =>
    have row : h.toNat = 0x8000 + v.toNat := row
    have hv := v.toNat_le
    have level : decide (h.toNat % 2 = 1) = v := decide_odd_eq_iff.2 (by omega)
    rw [if_neg (by omega), if_neg (by omega), if_neg (by omega), if_neg (by omega), if_neg (by omega), level]
  | .rejected .badLength, ⟨hlt, row⟩ =>
    rw [if_neg (by omega), if_neg (by omega), if_neg (by omega), if_pos hlt]
  | .rejected .illegal, row => exact if_pos row

/-- R73, "every 16-bit header falls in exactly one of these cases". -/
theorem decode_eq_iff {h : Header} {d : Decoded} : decode h = d ↔ d.Row h.toNat :=
  ⟨fun e => e ▸ decode_row h, decode_of_row⟩

/-! ### Encoding -/

/-- The case of an operation holds its one header, and that of a term that is no operation none. -/
theorem row_op_iff {i : Instr} {n : Nat} : (Decoded.op i).Row n ↔ i.wf = true ∧ n = (encode i).toNat := by
  cases i with
  | xinit => simp [Decoded.Row, Instr.wf, encode]
  | xmit pairs => simp [Decoded.Row, Instr.wf, encode_xmit_toNat]
  | setrw v => simp [Decoded.Row, Instr.wf, encode_setrw_toNat]
  | setaux v => simp [Decoded.Row, Instr.wf, encode_setaux_toNat]

/-- Decoding and encoding are inverse on the operations. -/
theorem decode_eq_op_iff {h : Header} {i : Instr} : decode h = .op i ↔ i.wf = true ∧ h = encode i := by
  rw [decode_eq_iff, row_op_iff, BitVec.toNat_eq]

/-- Settles O8: the header of a well-formed operation lies in that operation's case. -/
theorem decodeOfEncodeIsTheOperation : Obligations.DecodeOfEncodeIsTheOperation := by
  unfold Obligations.DecodeOfEncodeIsTheOperation
  exact fun i hwf => decode_eq_op_iff.2 ⟨hwf, rfl⟩

/-- Settles O9: the case of an operation holds no header but its own. -/
theorem encodeOfDecodeIsTheHeader : Obligations.EncodeOfDecodeIsTheHeader := by
  unfold Obligations.EncodeOfDecodeIsTheHeader
  intro h i hd
  obtain ⟨hwf, hh⟩ := decode_eq_op_iff.1 hd
  exact ⟨hh.symm, hwf⟩

/-! ### The cases by mask and match -/

/-- A mask of `n` bits from bit `k` on takes out a field. -/
theorem and_fieldMask (a n k : Nat) : a &&& (2 ^ n - 1) * 2 ^ k = a / 2 ^ k % 2 ^ n * 2 ^ k := by
  refine Nat.eq_of_testBit_eq fun j => ?_
  rw [Nat.testBit_and, Nat.testBit_mul_two_pow, Nat.testBit_mul_two_pow, Nat.testBit_two_pow_sub_one,
    Nat.testBit_mod_two_pow, Nat.testBit_div_two_pow]
  by_cases hk : k ≤ j
  · rw [Nat.sub_add_cancel hk, Bool.and_comm, Bool.and_assoc]
  · simp [hk]

section
variable (h : Header)

/-- A header under a mask of `n` bits from bit `k` on. -/
theorem toNat_and_mask {m : Header} (n k : Nat) (hm : m.toNat = (2 ^ n - 1) * 2 ^ k) :
    (h &&& m).toNat = h.toNat / 2 ^ k % 2 ^ n * 2 ^ k := by
  rw [BitVec.toNat_and, hm, and_fieldMask]

/-- The mask of `OP`. -/
theorem toNat_and_opMask : (h &&& 0xC000#16).toNat = h.toNat / 2 ^ 14 % 2 ^ 2 * 2 ^ 14 := toNat_and_mask h 2 14 rfl

/-- The mask of `ARG`. -/
theorem toNat_and_argMask : (h &&& 0x3FFF#16).toNat = h.toNat % 2 ^ 14 := by
  simpa using toNat_and_mask h (m := 0x3FFF#16) 14 0 rfl

/-- The mask of `ARG[13:1]`. -/
theorem toNat_and_argHighMask : (h &&& 0x3FFE#16).toNat = h.toNat / 2 % 2 ^ 13 * 2 := toNat_and_mask h 13 1 rfl

/-- The mask of `ARG[0]`. -/
theorem toNat_and_argBitMask : (h &&& 1#16).toNat = h.toNat % 2 := by
  rw [BitVec.toNat_and]
  exact Nat.and_one_is_mod h.toNat

/-- The mask of all bits but `ARG[0]`, which the rows of `SETRW` and `SETAUX` fix. -/
theorem toNat_and_levelMask : (h &&& 0xFFFE#16).toNat = h.toNat / 2 % 2 ^ 15 * 2 := toNat_and_mask h 15 1 rfl

/-- The mask of `OP` and `ARG[0]`, which the row of `XMIT` fixes. -/
theorem toNat_and_xmitMask : (h &&& 0xC001#16).toNat = 2 ^ 14 * (h.toNat / 2 ^ 14 % 2 ^ 2) + h.toNat % 2 := by
  have hbit : h.toNat % 2 < 2 ^ 14 := by omega
  rw [show 0xC001#16 = 0xC000#16 ||| 1#16 from rfl, BitVec.and_or_distrib_left, BitVec.toNat_or, toNat_and_opMask,
    toNat_and_argBitMask, Nat.two_pow_add_eq_or_of_lt hbit, Nat.mul_comm (2 ^ 14)]

/-- `ARG[0]` is the parity of the header's number. -/
theorem eq_getLsbD_zero_iff {v : Bool} : v = h.getLsbD 0 ↔ h.toNat % 2 = v.toNat := by
  rw [BitVec.getLsbD, Nat.testBit_zero, eq_comm, decide_odd_eq_iff]

end

/-- Settles O10: each case is the numbers it holds, and each mask and match a condition on the number. -/
theorem opcodeMapByMaskAndMatch : Obligations.OpcodeMapByMaskAndMatch := by
  unfold Obligations.OpcodeMapByMaskAndMatch
  intro h
  have hlt := h.isLt
  simp only [decode_eq_iff, Decoded.Row, eq_getLsbD_zero_iff, BitVec.toNat_eq, ne_eq, toNat_and_xmitMask, toNat_and_opMask,
    toNat_and_argMask, toNat_and_argHighMask, toNat_and_argBitMask, toNat_and_levelMask,
    show h &&& 0xFFFF#16 = h from BitVec.and_allOnes, BitVec.ofNat_eq_ofNat, BitVec.toNat_ofNat]
  refine ⟨trivial, fun pairs => ?_, fun v => ?_, fun v => ?_, ?_, ?_⟩
  · have hp := pairs.isLt
    omega
  · have hv := v.toNat_le
    omega
  · have hv := v.toNat_le
    omega
  · omega
  · omega

/-- Settles O7: each header is a fixed word, on which the decoder runs. -/
theorem headersDecodeAsTabulated : Obligations.HeadersDecodeAsTabulated := by
  unfold Obligations.HeadersDecodeAsTabulated
  decide

end Sys2Proof

namespace Sys2Proof.Machine

/-! ### Taking requests (R66) -/

section
variable {s t : State} {r : Request} {rest : List Request}

/-- In `READY` the first request is taken, with its header decoded. -/
theorem takeNext_request {u : Time} (hq : s.requests = r :: rest) (ha : advance s.now r.after = some u) :
    takeNext s = .request (decode r.hdr) (s.takeRequest r rest u) := by
  simp only [takeNext, hq, ha]

theorem takeNext_idle (hq : s.requests = []) : takeNext s = .idle := by
  simp only [takeNext, hq]

/-- With no request presented nothing happens. -/
theorem step_idle (hc : cfgOk s.cfg = true) (hrst : s.rst = false) (hp : s.phase = .ready) (hq : s.requests = []) :
    step s = .next s := by
  simp [step, hc, hrst, hp, takeNext_idle hq]

/-- In `READY` a request whose header decodes to an operation starts it. -/
theorem step_starts {u : Time} {i : Instr} (hc : cfgOk s.cfg = true) (hrst : s.rst = false) (hp : s.phase = .ready)
    (hq : s.requests = r :: rest) (ha : advance s.now r.after = some u) (hd : decode r.hdr = .op i) :
    step s = exec i (s.takeRequest r rest u) := by
  simp [step, hc, hrst, hp, takeNext_request hq ha, hd]

/-- Outside `READY` a step takes no request, and lets the current one go only in the return to `READY`. -/
theorem step_takes_none (h : step s = .next t) (hp : s.phase ≠ .ready) :
    t.requests = s.requests ∧ (t.cur = s.cur ∨ t.phase = .ready) := by
  obtain ⟨-, ⟨-, ready, -⟩ | ⟨-, ready, -⟩ | ⟨-, ready, -⟩ | ⟨-, -, rfl⟩ | ⟨-, -, -, ⟨-, rfl⟩ | ⟨_, -, ⟨i, -, hx⟩ |
    ⟨e, -, rfl⟩⟩⟩⟩ := step_cases h
  · exact absurd ready hp
  · exact absurd ready hp
  · exact absurd ready hp
  · rcases takeResponse_cases s with ⟨w, -, -, e⟩ | ⟨-, e⟩ <;> rw [e]
    · exact ⟨State.release_requests s w, .inr (State.release_phase s w)⟩
    · exact ⟨rfl, .inl rfl⟩
  · exact ⟨rfl, .inl rfl⟩
  · have same := resumeOp_same hx
    exact ⟨same.requests, .inl same.cur⟩
  · exact ⟨rfl, .inl rfl⟩

/-- No phase in which an operation ends a step is `READY`. -/
theorem Ends.not_ready (h : Ends s) : s.phase ≠ .ready := by
  rcases h with h | h | h <;> simp [h]

/-- In `READY` a step takes the first request, and the block is then busy with it. -/
theorem step_takes_first (h : step s = .next t) (hp : s.phase = .ready) (hrst : s.rst = false)
    (hq : s.requests = r :: rest) : t.requests = rest ∧ t.cur = some r ∧ t.phase ≠ .ready := by
  obtain ⟨-, ⟨reset, -⟩ | ⟨-, -, idle, -⟩ | ⟨-, -, r', rest', u, taken, -, how⟩ | ⟨-, resp, -⟩ | ⟨-, busy, -⟩⟩ :=
    step_cases h
  · simp [hrst] at reset
  · simp [hq] at idle
  · obtain ⟨rfl, rfl⟩ := List.cons.inj (hq.symm.trans taken)
    rcases how with ⟨i, -, hx⟩ | ⟨e, -, rfl⟩
    · have same := exec_same hx
      exact ⟨same.requests, same.cur, (exec_ends hx).not_ready⟩
    · exact ⟨rfl, rfl, nofun⟩
  · simp [hp] at resp
  · exact absurd hp busy

end

/-- Settles O14: of all that a step can be, only a start in `READY` touches the list of requests. -/
theorem requestsAreTakenOnlyInReady : Obligations.RequestsAreTakenOnlyInReady := by
  unfold Obligations.RequestsAreTakenOnlyInReady
  exact ⟨fun _ _ => step_takes_none, fun _ _ _ _ => step_takes_first, fun _ => step_idle⟩

/-- Settles O11: the state that the operation starts from is the one with its request taken. -/
theorem stepRunsTheDecodedOperation : Obligations.StepRunsTheDecodedOperation := by
  unfold Obligations.StepRunsTheDecodedOperation
  exact fun s r rest u i => step_starts

/-! ### The response (R65, R66) -/

theorem step_resp {s : State} (hc : cfgOk s.cfg = true) (hrst : s.rst = false) (hp : s.phase = .resp) :
    step s = .next (takeResponse s) := by
  simp [step, hc, hrst, hp]

/-- Settles O15: the five registers that are free are the four scratch registers and the counter of draws. -/
theorem responseEndsTheRequest : Obligations.ResponseEndsTheRequest := by
  unfold Obligations.ResponseEndsTheRequest
  intro s w hc hrst hp hw
  rw [step_resp hc hrst hp]
  refine ⟨fun hr => ?_, fun hr => ?_⟩
  · rw [takeResponse_ready hw hr]
    exact ⟨_, _, _, _, _, rfl⟩
  · simp [takeResponse, hw, hr]

/-- Settles O16: the word is the code followed by the count. -/
theorem responseWordFields : Obligations.ResponseWordFields := by
  unfold Obligations.ResponseWordFields
  intro done e
  refine ⟨BitVec.extractLsb'_append_eq_right, ?_⟩
  have hcode : (respWord done e).extractLsb' 14 2 = e.code := BitVec.extractLsb'_append_eq_left
  rw [hcode]
  cases e <;> rfl

end Sys2Proof.Machine

namespace Sys2Proof.Machine

/-! ## The frame encoder (40_frame_encoder.md) -/

/-- Settles O17: these are the definitions of the three byte sequences. -/
theorem frameRecordAndSlotBytes : Obligations.FrameRecordAndSlotBytes := by
  unfold Obligations.FrameRecordAndSlotBytes
  exact fun c d dh dl a => ⟨rfl, rfl, rfl⟩

/-! ### Bytes and masks -/

section
variable {x m n : Byte}

theorem getElem_of_and_eq_zero (h : x &&& m = 0#8) {i : Nat} (hi : i < 8) : x[i] = true → m[i] = false := by
  have hbit : (x[i] && m[i]) = false := by rw [← BitVec.getElem_and, h, BitVec.getElem_zero]
  simpa using hbit

/-- Clearing bits that a byte does not have leaves it as it is. -/
theorem and_not_eq_self (h : x &&& m = 0#8) : x &&& ~~~m = x := by
  ext i hi
  simpa using getElem_of_and_eq_zero h hi

/-- Setting bits that a byte does not have flips them. -/
theorem or_eq_xor (h : x &&& m = 0#8) : x ||| m = x ^^^ m := by
  ext i hi
  have hbit := getElem_of_and_eq_zero h hi
  cases hx : x[i] <;> simp_all

/-- A byte with bits in `m` only shares no bit with what `m` shares none with. -/
theorem and_eq_zero_of_within (hx : x &&& ~~~m = 0#8) (hm : m &&& n = 0#8) : x &&& n = 0#8 := by
  have hself : x &&& m = x := by simpa using and_not_eq_self hx
  rw [← hself, BitVec.and_assoc, hm, BitVec.and_zero]

/-- A byte with bits in `n` only has none outside a mask that covers `n`. -/
theorem and_not_or_eq_zero (h : x &&& ~~~n = 0#8) : x &&& ~~~(m ||| n) = 0#8 := by
  rw [BitVec.not_or, BitVec.and_comm (~~~m), ← BitVec.and_assoc, h, BitVec.zero_and]

end

/-! ### The role bits (R80, R84) -/

section
variable {c : Cfg} {d a : Byte}

/-- The role bits are the enable bit and those of the lines that `AUX` may set. -/
theorem roleMask_eq (c : Cfg) : roleMask c = eMask c ||| (rwMask c ||| auxMask c) := BitVec.or_assoc ..

theorem eMask_outside_roles (c : Cfg) : eMask c &&& ~~~roleMask c = 0#8 := by
  rw [roleMask_eq, BitVec.or_comm]
  exact and_not_or_eq_zero (BitVec.and_not_self _)

theorem legalAux_outside_roles (ha : a &&& ~~~(rwMask c ||| auxMask c) = 0#8) : a &&& ~~~roleMask c = 0#8 := by
  rw [roleMask_eq]
  exact and_not_or_eq_zero ha

/-- A legal `AUX` has enable 0 (R71), for the enable bit is no line of `AUX` (R8). -/
theorem legalAux_enable (hc : cfgOk c = true) (ha : a &&& ~~~(rwMask c ||| auxMask c) = 0#8) : a &&& eMask c = 0#8 := by
  obtain ⟨her, hea, -, -, -, -, -⟩ := masks_of_cfgOk hc
  have hlines : eMask c &&& (rwMask c ||| auxMask c) = 0#8 := by
    rw [BitVec.and_or_distrib_left]
    exact BitVec.or_eq_zero_iff.2 ⟨her, hea⟩
  exact and_eq_zero_of_within ha (by rwa [BitVec.and_comm])

theorem elemOk.enable (hd : elemOk c d) : d &&& eMask c = 0#8 := by
  unfold elemOk at hd
  rw [roleMask_eq, BitVec.and_or_distrib_left] at hd
  exact (BitVec.or_eq_zero_iff.1 hd).1

theorem elemOk.outside_roles (hd : elemOk c d) : d &&& ~~~roleMask c = d := and_not_eq_self hd

end

/-! ### What a frame and a slot carry (R83) -/

section
variable {c : Cfg} {d dh dl a : Byte}

/-- The byte with the pulse off has enable 0. -/
theorem or_legalAux_enable (hc : cfgOk c = true) (hd : elemOk c d) (ha : a &&& ~~~(rwMask c ||| auxMask c) = 0#8) :
    (d ||| a) &&& eMask c = 0#8 := by
  rw [BitVec.and_or_distrib_right, hd.enable, legalAux_enable hc ha, BitVec.or_self]

/-- The byte with the pulse asserted has enable 1. -/
theorem or_eMask_enable {x : Byte} (hoff : x &&& eMask c = 0#8) : (x ||| eMask c) &&& eMask c = eMask c := by
  rw [BitVec.and_or_distrib_right, hoff, BitVec.and_self, BitVec.zero_or]

/-- Enable along a frame: one pulse, in the middle. -/
theorem frame_enable (hc : cfgOk c = true) (hd : elemOk c d) (ha : a &&& ~~~(rwMask c ||| auxMask c) = 0#8) :
    (frame c d a).map (· &&& eMask c) = [0#8, eMask c, 0#8] := by
  have hoff := or_legalAux_enable hc hd ha
  simp only [frame, List.map_cons, List.map_nil, hoff, or_eMask_enable hoff]

/-- Enable along a slot: one pulse in each of its two frames, none in the fillers. -/
theorem slot_enable (hc : cfgOk c = true) (hdh : elemOk c dh) (hdl : elemOk c dl)
    (ha : a &&& ~~~(rwMask c ||| auxMask c) = 0#8) :
    (slot c dh dl a).map (· &&& eMask c) =
      [0#8, eMask c, 0#8] ++ [0#8, eMask c, 0#8] ++ List.replicate c.fill.toNat 0#8 := by
  simp only [slot, record, fillers, List.map_append, frame_enable hc hdh ha, frame_enable hc hdl ha,
    List.map_replicate, BitVec.zero_and]

/-- Without its role bits every byte of a frame is the element (R83 c). -/
theorem frame_outside_roles (hd : elemOk c d) (ha : a &&& ~~~(rwMask c ||| auxMask c) = 0#8) :
    ∀ b ∈ frame c d a, b &&& ~~~roleMask c = d := by
  have hoff : (d ||| a) &&& ~~~roleMask c = d := by
    rw [BitVec.and_or_distrib_right, hd.outside_roles, legalAux_outside_roles ha, BitVec.or_zero]
  have hon : (d ||| a ||| eMask c) &&& ~~~roleMask c = d := by
    rw [BitVec.and_or_distrib_right, hoff, eMask_outside_roles, BitVec.or_zero]
  simp [frame, hoff, hon]

end

/-- Settles O18: enable is 0 in the byte with the pulse off, so that setting it flips it, and no line of `AUX` reaches the bits of
the element. -/
theorem frameDecodesToItsElement : Obligations.FrameDecodesToItsElement := by
  unfold Obligations.FrameDecodesToItsElement
  intro c d a hc hd ha
  have hoff := or_legalAux_enable hc hd ha
  exact ⟨_, _, _, rfl, rfl, or_eq_xor hoff, hoff, or_eMask_enable hoff, frame_outside_roles hd ha⟩

/-- Settles O19: the enable bits along a slot are read off offset by offset. -/
theorem enableIsHighOnlyMidFrame : Obligations.EnableIsHighOnlyMidFrame := by
  unfold Obligations.EnableIsHighOnlyMidFrame
  intro c dh dl a hc hdh hdl ha
  refine ⟨legalAux_enable hc ha, fun i b hb => ?_⟩
  obtain ⟨-, -, -, -, -, -, hpulse⟩ := masks_of_cfgOk hc
  have hbit : ([0#8, eMask c, 0#8] ++ [0#8, eMask c, 0#8] ++ List.replicate c.fill.toNat 0#8)[i]? = some (b &&& eMask c) := by
    rw [← slot_enable hc hdh hdl ha, List.getElem?_map, hb, Option.map_some]
  match i with
  | 0 | 2 | 3 | 5 =>
    have hlow : 0#8 = b &&& eMask c := by simpa using hbit
    simp [← hlow]
  | 1 | 4 =>
    have hhigh : eMask c = b &&& eMask c := by simpa using hbit
    simpa [← hhigh] using hpulse
  | k + 6 =>
    have hlow : b &&& eMask c = 0#8 := List.eq_of_mem_replicate (List.mem_of_getElem? (i := k) hbit)
    simp [hlow]

end Sys2Proof.Machine

namespace Sys2Proof.Machine

/-! ## The timing scheduler (41_timing_scheduler.md) -/

/-! ### Classification, WaitDeadline and Arm (R93, R95 to R97) -/

/-- Settles O20: the combined value is the two low nibbles, high one first. -/
theorem slowMeansValueBelowFour : Obligations.SlowMeansValueBelowFour := by
  unfold Obligations.SlowMeansValueBelowFour
  intro dh dl
  have hval := cmdval_toNat dh dl
  have hslow : slow dh dl = true ↔ (cmdval dh dl).toNat < 4 := decide_eq_true_iff
  exact ⟨by omega, hslow, by rw [hslow]; omega⟩

/-- A look that finds no draw sees no time pass (R91). -/
theorem hold_nil (target now : Time) : hold target now [] = if target ≤ now then .over now [] else .held now := rfl

/-- Armed and short of the deadline, `WaitDeadline` holds the block. -/
theorem waitDeadline_held {s : State} {t : Time} (hv : s.dlValid = true) (h : hold s.dlTime s.now s.ticks = .held t) :
    waitDeadline s = .stop { s with phase := .wait, now := t, ticks := [] } := by
  have htarget : s.holdTarget = s.dlTime := if_pos hv
  simp only [waitDeadline, htarget, h]
  rfl

/-- Idle, or at or past the deadline, `WaitDeadline` goes on at once where no time passes. -/
theorem waitDeadline_at_once {s : State} (hts : s.ticks = []) (hdl : s.dlValid = true → s.dlTime ≤ s.now) :
    ∃ dt n, waitDeadline s = .go { s with phase := .wait, ticks := [], dlValid := false, dlTime := dt, draws := n } := by
  refine waitDeadline_over (u := s.now) ?_
  rw [hts, hold_nil, if_pos (holdTarget_le hdl)]

/-- Settles O21: whether it goes on or stops, `WaitDeadline` moves the phase, the clock and the scheduler only. -/
theorem waitDeadlineHoldsUntilTheDeadline : Obligations.WaitDeadlineHoldsUntilTheDeadline := by
  unfold Obligations.WaitDeadlineHoldsUntilTheDeadline
  refine ⟨fun s t h => ?_, fun s t h => ?_, fun s hts hdl => ?_⟩
  · obtain ⟨hv, hnow, hdl, dt, n, e⟩ := waitDeadline_eq_go h
    refine ⟨hv, hnow, hdl, ?_⟩
    rw [e]
    exact ⟨rfl, rfl, rfl, rfl, rfl, rfl⟩
  · obtain ⟨hv, hlt, -, e⟩ := waitDeadline_eq_stop h
    refine ⟨hv, hlt, ?_⟩
    rw [e]
    exact ⟨rfl, hv, rfl, rfl, rfl, rfl⟩
  · obtain ⟨dt, n, e⟩ := waitDeadline_at_once hts hdl
    exact ⟨_, e, rfl, rfl⟩

/-- Settles O22: where the sum fits 64 bits it is the sum of the words. -/
theorem armSetsTheDeadline : Obligations.ArmSetsTheDeadline := by
  unfold Obligations.ArmSetsTheDeadline
  intro settle s
  refine ⟨fun hfit => ?_, fun hbig => ?_⟩
  · have hsum : (s.now + settle).toNat = s.now.toNat + settle.toNat := by rw [BitVec.toNat_add, Nat.mod_eq_of_lt hfit]
    have hadv : advance s.now settle.toNat = some (s.now + settle) := advance_eq_some.2 ⟨hfit, hsum⟩
    exact ⟨by rw [arm, hadv]; rfl, hsum⟩
  · rcases arm_cases settle s with ⟨t, hfit, -, -⟩ | ⟨-, e⟩
    · omega
    · exact e

/-! ### What is armed after an answer (R98, R101, R119) -/

/-- An answer is good for `len` bytes when it is no failure and accepts them all (R48). -/
theorem Answer.good_iff {a : Answer} {len : Nat} : a.good len = true ↔ a.fail = false ∧ a.n = len := by
  simp [Answer.good]

/-- Settles O32: an answer of a count that fits is accounted, and the table of R98 says what is armed then. -/
theorem confirmedUnitsArmByTheTable : Obligations.ConfirmedUnitsArmByTheTable := by
  unfold Obligations.ConfirmedUnitsArmByTheTable
  intro s a ha hfit
  rcases xmitAcct_cases ha with ⟨dv, dt, harm, how⟩ | hrefused
  · refine ⟨s.accounted a dv dt, ?_, ?_, ?_, rfl, rfl, rfl, rfl, rfl, rfl, rfl, rfl⟩
    · rcases how with ⟨hgood, e⟩ | ⟨hbad, e⟩
      · rw [e, if_pos (Answer.good_iff.1 hgood)]
      · rw [e, if_neg (fun h => by simp [Answer.good_iff.2 h] at hbad)]
        rfl
    · rintro ⟨hall, hclass⟩
      rcases armedAfter_cases harm with ⟨-, -, hdv, hdt⟩ | ⟨hnot | ⟨hfast, hbatched⟩, -⟩
      · exact ⟨hdv, hdt⟩
      · exact absurd hall hnot
      · simp [hfast, hbatched] at hclass
    · intro hnot
      rcases armedAfter_cases harm with ⟨hall, hclass, -⟩ | ⟨-, hkept⟩
      · exact absurd ⟨hall, hclass⟩ hnot
      · exact hkept
  · exact absurd hrefused (xmitAcct_ne_refuse ha hfit)

/-! ### A transmit held in WAIT (R93, R172) -/

/-- With its element there, an `XINIT` packs its frame. -/
theorem xinitPack_goes {s : State} {d : Byte} (hc : cfgOk s.cfg = true) (hd : s.element 1 0 = some d) :
    ∃ t, xinitPack s = .go t ∧
      t = { s with phase := .pack, bufLen := 3, buf := Memory.writeBytes s.buf 0 (frame s.cfg d s.aux) } := by
  obtain ⟨-, -, -, -, -, -, hcap, -⟩ := (cfgOk_iff _).1 hc
  have hroom : 0 + (frame s.cfg d s.aux).length ≤ (s.toPhase .pack).cfg.bufCap := by simp; omega
  simp only [xinitPack, hd, storeBytes_go hroom, Flow.go_andThen]
  exact ⟨_, rfl, rfl⟩

/-- A transmit that `WaitDeadline` holds does nothing more. -/
theorem fromWait_held {i : Instr} {s t : State} (hi : i = .xinit ∨ ∃ pairs, i = .xmit pairs)
    (h : waitDeadline s = .stop t) : fromWait i s = .stop t := by
  rcases hi with rfl | ⟨pairs, rfl⟩ <;> simp [fromWait, h]

/-- Settles O26: the frame is packed first, and then the deadline holds the block. -/
theorem xinitIsHeldByTheDeadline : Obligations.XinitIsHeldByTheDeadline := by
  unfold Obligations.XinitIsHeldByTheDeadline
  intro s r d t hc hcur hd hv hhold
  have hel : ((s.toPhase .check).setDone 0).element 1 0 = some d := element_eq_some.2 ⟨by omega, r, hcur, hd⟩
  obtain ⟨u, hpack, hu⟩ := xinitPack_goes (s := (s.toPhase .check).setDone 0) hc hel
  have hwait := waitDeadline_held (s := u) (t := t) (by rw [hu]; exact hv) (by rw [hu]; exact hhold)
  obtain ⟨hlt, -⟩ := hold_held hhold
  rw [exec_xinit hc, hpack, Flow.go_andThen, fromWait_held (.inl rfl) hwait, hu]
  exact ⟨_, rfl, rfl, rfl, hlt, hv, rfl, rfl, rfl, Memory.readBytes_writeBytes s.buf (frame s.cfg d s.aux), rfl, rfl, rfl, rfl⟩

/-- Settles O39: short of the deadline the one look finds the same instant; from the deadline on the buffer is offered. -/
theorem heldTransmitGoesOnWhenTheDeadlineHasCome : Obligations.HeldTransmitGoesOnWhenTheDeadlineHasCome := by
  unfold Obligations.HeldTransmitGoesOnWhenTheDeadlineHasCome
  intro s r i hc hrst hp hcur hd hi hts hv
  rw [step_eq_resumeOp hc hrst (by simp [hp]) (by simp [hp]) hcur hd]
  refine ⟨fun hlt => ?_, fun hle hans => ?_⟩
  · have hhold : hold s.dlTime s.now s.ticks = .held s.now := by
      rw [hts, hold_nil, if_neg (BitVec.not_le.2 hlt)]
    have hstay : waitDeadline s = .stop s := by
      rw [waitDeadline_held hv hhold, ← hp, ← hts]
    rw [resumeOp_wait hp, fromWait_held hi hstay, Flow.stop_outcome]
  · obtain ⟨dt, n, hgo⟩ := waitDeadline_at_once hts fun _ => hle
    rw [resumeOp_wait_offers hi hp hgo hans]
    exact ⟨_, rfl, rfl, rfl, rfl, rfl⟩

/-! ### Time (R91) -/

/-- Settles O44: taking a request lets time pass, an operation does not turn it back, and nothing else touches it. -/
theorem timeNeverDecreases : Obligations.TimeNeverDecreases := by
  unfold Obligations.TimeNeverDecreases
  intro s t h
  show s.now.toNat ≤ t.now.toNat
  obtain ⟨-, ⟨-, -, rfl⟩ | ⟨-, -, -, rfl⟩ | ⟨-, -, r, rest, u, -, hu, ⟨i, -, hx⟩ | ⟨e, -, rfl⟩⟩ | ⟨-, -, rfl⟩ |
    ⟨-, -, -, ⟨-, rfl⟩ | ⟨r, -, ⟨i, -, hx⟩ | ⟨e, -, rfl⟩⟩⟩⟩ := step_cases h
  · exact Nat.le_refl _
  · exact Nat.le_refl _
  · exact Nat.le_trans (advance_le hu) (exec_same hx).now
  · exact advance_le hu
  · rcases takeResponse_cases s with ⟨w, -, -, e⟩ | ⟨-, e⟩ <;> rw [e]
    exact Nat.le_refl s.now.toNat
  · exact Nat.le_refl _
  · exact (resumeOp_same hx).now
  · exact Nat.le_refl _

/-! ### The auxiliary operations do not touch the scheduler (R102, R142) -/

/-- Setting a line of `AUX` keeps the others (R140, R141). -/
theorem setLine_and_not_mask (m a : Byte) (v : Bool) : setLine m a v &&& ~~~m = a &&& ~~~m := by
  cases v with
  | false => rw [setLine, if_neg Bool.false_ne_true, BitVec.and_assoc, BitVec.and_self]
  | true =>
    rw [setLine, if_pos rfl]
    ext i hi
    cases hm : m[i] <;> simp [hm]

/-- All that an auxiliary operation does: `AUX` takes its new value, and the one byte is on offer or answered; the other fields
that change are ports. -/
theorem auxWrite_eq_next {a : Byte} {s t : State} (he : (auxWrite a s).outcome = .next t) :
    (t.phase = .write ∨ t.phase = .resp) ∧ t = { s with
      aux := a, phase := t.phase, now := t.now, answers := t.answers, offer := t.offer, ans := t.ans, rsp := t.rsp
      writes := t.writes } := by
  rcases Flow.next_of_andThen he with hheld | ⟨u, hans, hfin⟩
  · obtain ⟨rfl, -⟩ := awaitAnswer_eq_stop hheld
    exact ⟨.inl rfl, rfl⟩
  · obtain ⟨w, b, rest, now, -, -, -, -, rfl⟩ := awaitAnswer_eq_go hans
    obtain ⟨word, e⟩ := auxFinish_eq (s := State.takeAnswer _ w b rest now) (a := b) rfl
    rw [e] at hfin
    cases hfin
    exact ⟨.inr rfl, rfl⟩

/-- An operation that answers a next state has a well-formed configuration (R8). -/
theorem cfgOk_of_exec {i : Instr} {s t : State} (he : exec i s = .next t) : cfgOk s.cfg = true := by
  by_contra hbad
  rw [exec_refuses_badConfig i (by simpa using hbad)] at he
  cases he

/-- Settles O35: an auxiliary operation sets its line of `AUX` and moves ports; it stores nothing. -/
theorem auxiliaryOperationsFrame : Obligations.AuxiliaryOperationsFrame := by
  unfold Obligations.AuxiliaryOperationsFrame
  intro i mask v s t hi he
  have hc := cfgOk_of_exec he
  have hwrite : (auxWrite (setLine (mask s.cfg) s.aux v) (s.toPhase .check)).outcome = .next t := by
    rcases hi with ⟨rfl, rfl⟩ | ⟨rfl, rfl⟩
    · rw [← exec_setrw hc, he]
    · rw [← exec_setaux hc, he]
  obtain ⟨-, e⟩ := auxWrite_eq_next hwrite
  rw [e]
  exact ⟨rfl, setLine_and_not_mask (mask s.cfg) s.aux v, rfl, rfl, rfl, rfl, rfl, rfl, rfl, rfl, rfl, rfl, rfl, rfl, rfl, rfl,
    fun _ => rfl⟩

end Sys2Proof.Machine

namespace Sys2Proof.Machine

/-! ### The settle guarantee (R103): what a write owes -/

theorem owed_of_short {c : Cfg} {v : WriteRec} (h : v.n ≠ v.bytes.length) : owed c v = 0 := if_neg h

/-- R99: a confirmed frame of `XINIT` owes `T_INIT`. -/
theorem owed_frame {c : Cfg} {v : WriteRec} (hlen : v.bytes.length = 3) (hn : v.n = 3) : owed c v = c.tInit.toNat := by
  rw [owed, if_pos (hn.trans hlen.symm), if_pos hlen]

/-- R98: what a write of whole units that is confirmed in full owes is the settle time that the block arms for it. -/
theorem owed_units {s : State} {v : WriteRec} (hn : v.n = v.bytes.length) (hlen : v.bytes.length ≠ 3)
    (hflag : flagged s v.bytes) : owed s.cfg v = (settleAfter s).elim 0 BitVec.toNat := by
  obtain ⟨u, hlast, hslow⟩ := hflag
  simp only [owed, if_pos hn, if_neg hlen, hlast, settleAfter, hslow]
  cases s.lastSlow <;> cases s.cfg.mode <;> rfl

/-- R98, R101, R119: after a write of whole units, answered `a` while the scheduler was Idle, an armed deadline covers what the
write owes; where none is armed it owes nothing. -/
theorem armedAfter_covers_owed {s : State} {a : Answer} {v : WriteRec} {dv : Bool} {dt : Time} (harm : armedAfter s a dv dt)
    (hidle : s.dlValid = false) (hn : v.n = a.n) (hlen : v.bytes.length = unitsInHand s * slotSize s.cfg)
    (hsome : 1 ≤ unitsInHand s) (hflag : flagged s v.bytes) :
    (dv = true → s.now.toNat + owed s.cfg v ≤ dt.toNat) ∧ (dv = false → owed s.cfg v = 0) := by
  have hslot := slotSize_pos s.cfg
  have hlen3 : v.bytes.length ≠ 3 := by
    have := Nat.mul_le_mul hsome hslot
    omega
  by_cases hfull : v.n = v.bytes.length
  · have hunits : a.n / slotSize s.cfg = unitsInHand s := by
      rw [← hn, hfull, hlen, Nat.mul_div_cancel _ (by omega)]
    rw [owed_units hfull hlen3 hflag]
    cases hset : settleAfter s with
    | some settle =>
      simp only [armedAfter, hset, if_pos hunits] at harm
      simp [harm]
    | none =>
      simp only [armedAfter, hset] at harm
      simp [harm, hidle]
  · rw [owed_of_short hfull]
    refine ⟨fun hdv => ?_, fun _ => rfl⟩
    rcases armedAfter_cases harm with ⟨-, -, -, hdt⟩ | ⟨-, hkept, -⟩
    · omega
    · simp [hkept, hidle] at hdv

/-! ### The settle guarantee along an operation -/

/-- The settle guarantee speaks of the writes, the scheduler, the offer, and of `now` as a lower bound. -/
theorem Settled.of_eq {s t : State} (h : Settled s) (hcfg : t.cfg = s.cfg) (hw : t.writes = s.writes)
    (hv : t.dlValid = s.dlValid) (ht : t.dlTime = s.dlTime) (ho : t.offer = s.offer) (hnow : s.now.toNat ≤ t.now.toNat) :
    Settled t := by
  constructor <;> rw [hcfg, hw]
  · exact h.past
  · rw [hv, ht]
    exact h.armed
  · rw [hv]
    exact fun hidle => Nat.le_trans (h.idle hidle) hnow
  · rw [ho]
    exact h.offered

/-- The one place where a transmit write is added to those observed, its answer: it was issued after what the one before it owed,
and what it owes itself is in `DL_TIME` or has passed. -/
theorem Settled.answer {s t : State} {o : Offer} {v : WriteRec} (h : Settled s) (ho : s.offer = some o)
    (hbytes : v.bytes = o.bytes) (hissued : v.issued = o.issued) (hlen : o.bytes.length ≠ 1) (hcfg : t.cfg = s.cfg)
    (hw : t.writes = s.writes ++ [v]) (hnow : t.now = v.answered) (hoff : t.offer = none)
    (hcover : (t.dlValid = true → v.answered.toNat + owed s.cfg v ≤ t.dlTime.toNat) ∧
      (t.dlValid = false → owed s.cfg v = 0)) : Settled t := by
  obtain ⟨harmed, hidle⟩ := hcover
  have hfilter : t.writes.filter WriteRec.transmits = s.writes.filter WriteRec.transmits ++ [v] := by
    rw [hw, List.filter_append]
    simp [WriteRec.transmits, hbytes, hlen]
  constructor <;> rw [hcfg, hfilter]
  · exact (spaced_append _ _ _).2 ⟨h.past, hissued ▸ h.offered o ho hlen⟩
  · rwa [releasedAt_append]
  · rw [releasedAt_append, hnow]
    exact fun hv => Nat.le_of_eq (by rw [hidle hv, Nat.add_zero])
  · simp [hoff]

/-- A write of one byte, of `SETRW` or `SETAUX`, is none of those that the guarantee speaks of (R102). -/
theorem Settled.answer_aux {s t : State} {v : WriteRec} (h : Settled s) (hlen : v.bytes.length = 1) (hcfg : t.cfg = s.cfg)
    (hw : t.writes = s.writes ++ [v]) (hv : t.dlValid = s.dlValid) (ht : t.dlTime = s.dlTime) (hoff : t.offer = none)
    (hnow : s.now.toNat ≤ t.now.toNat) : Settled t := by
  have hfilter : t.writes.filter WriteRec.transmits = s.writes.filter WriteRec.transmits := by
    rw [hw, List.filter_append]
    simp [WriteRec.transmits, hlen]
  constructor <;> rw [hcfg, hfilter]
  · exact h.past
  · rw [hv, ht]
    exact h.armed
  · rw [hv]
    exact fun hidle => Nat.le_trans (h.idle hidle) hnow
  · simp [hoff]

/-- Every state in which a stretch ends meets the guarantee. -/
def Flow.Settles (m : Flow) : Prop := ∀ t, m = .go t ∨ m = .stop t → Settled t

theorem Flow.Settles.stop {t : State} (h : Settled t) : (Flow.stop t).Settles := by
  rintro u (e | e) <;> cases e
  exact h

theorem Flow.Settles.andThen {m : Flow} {k : State → Flow} (h : m.Settles)
    (hk : ∀ t, m = .go t → Settled t → (k t).Settles) : (m.andThen k).Settles := by
  cases m with
  | go t => exact hk t rfl (h t (.inl rfl))
  | stop t => exact .stop (h t (.inr rfl))
  | fault f => rintro u (e | e) <;> cases e
  | refuse x => rintro u (e | e) <;> cases e

theorem Flow.Settles.of_next {m : Flow} {t : State} (h : m.Settles) (e : m.outcome = .next t) : Settled t :=
  h t (Flow.outcome_eq_next.1 e)

/-- R93: the hold ends, and the write is issued, at an instant where what was owed has passed: it was in `DL_TIME` or had passed
before. -/
theorem waitOffer_settles {s : State} (h : Settled s) : ((waitDeadline s).andThen offerBuffer).Settles := by
  rintro t (he | he)
  · obtain ⟨dt, n, hnow, hdl, e⟩ := waitOffer_eq_go he
    have hcfg : t.cfg = s.cfg := by rw [e]
    have hw : t.writes = s.writes := by rw [e]
    have hv : t.dlValid = false := by rw [e]
    have hreleased : releasedAt s.cfg (s.writes.filter WriteRec.transmits) ≤ t.now.toNat := by
      cases hvs : s.dlValid with
      | true => exact Nat.le_trans (h.armed hvs) (hdl hvs)
      | false => exact Nat.le_trans (h.idle hvs) hnow
    constructor <;> rw [hcfg, hw]
    · exact h.past
    · simp [hv]
    · exact fun _ => hreleased
    · intro o ho _
      rw [e] at ho
      cases ho
      exact hreleased
  · obtain ⟨-, -, hnow, e⟩ := waitOffer_eq_stop he
    exact h.of_eq (by rw [e]) (by rw [e]) (by rw [e]) (by rw [e]) (by rw [e]) hnow

/-- Awaiting an answer settles if accounting it does. -/
theorem awaitAnswer_andThen_settles {s : State} {acct : State → Flow} (h : Settled s)
    (hacct : ∀ w a rest u, s.offer = some w → a.n ≤ w.bytes.length → s.now.toNat ≤ u.toNat →
      (acct (s.takeAnswer w a rest u)).Settles) : ((awaitAnswer s).andThen acct).Settles := by
  intro t ht
  cases hans : awaitAnswer s with
  | go v =>
    rw [hans] at ht
    obtain ⟨w, a, rest, u, ho, -, hn, hu, rfl⟩ := awaitAnswer_eq_go hans
    exact hacct w a rest u ho hn (advance_le hu) t ht
  | stop v =>
    rw [hans] at ht
    obtain ⟨rfl, -⟩ := awaitAnswer_eq_stop hans
    exact Flow.Settles.stop h t ht
  | fault f => simp [hans] at ht
  | refuse x => simp [hans] at ht

section
variable {s : State} {w : Offer} {a : Answer} {rest : List Answer} {u : Time}

theorem xinitAcct_settles (hs : Settled s) (hp : s.phase = .write) (hf : inFlight .xinit s) (ho : s.offer = some w)
    (hn : a.n ≤ w.bytes.length) : (xinitAcct (s.takeAnswer w a rest u)).Settles := by
  obtain ⟨-, -, -, hoff, hidle⟩ := hf
  have hlen := hoff w ho
  rintro t (he | he)
  · exact absurd he xinitAcct_ne_go
  obtain ⟨dv, dt, rfl, harm⟩ := xinitAcct_eq_stop (a := a) rfl he
  refine hs.answer ho rfl rfl (by omega) rfl rfl rfl rfl ?_
  rcases harm with ⟨hdiv, rfl, hdt⟩ | ⟨hdiv, rfl, -⟩
  · rw [owed_frame hlen (show a.n = 3 by omega)]
    exact ⟨fun _ => Nat.le_of_eq hdt.symm, nofun⟩
  · exact ⟨by simp [hidle hp], fun _ => owed_of_short (show a.n ≠ w.bytes.length by omega)⟩

theorem xmitAcct_settles {pairs : BitVec 13} (hs : Settled s) (hp : s.phase = .write) (hf : inFlight (.xmit pairs) s)
    (ho : s.offer = some w) : (xmitAcct (s.takeAnswer w a rest u)).Settles := by
  obtain ⟨hsome, -, hbuf, -, -, hoff, -, hidle⟩ := hf
  obtain ⟨hlen, hflag⟩ := hoff w ho
  have hlen1 : w.bytes.length ≠ 1 := by
    have := Nat.mul_le_mul hsome (slotSize_pos s.cfg)
    omega
  have accounted : ∀ dv dt, armedAfter (s.takeAnswer w a rest u) a dv dt →
      Settled ((s.takeAnswer w a rest u).accounted a dv dt) := by
    intro dv dt harm
    exact hs.answer ho rfl rfl hlen1 rfl rfl rfl rfl
      (armedAfter_covers_owed (v := ⟨w.bytes, w.issued, u, a.n, a.fail⟩) harm (hidle hp) rfl (hlen.trans hbuf) hsome hflag)
  rcases xmitAcct_cases (s := s.takeAnswer w a rest u) (a := a) rfl with ⟨dv, dt, harm, ⟨-, e⟩ | ⟨-, e⟩⟩ | e <;> rw [e]
  · rintro t (e | e) <;> cases e
    exact accounted dv dt harm
  · exact .stop ((accounted dv dt harm).of_eq rfl rfl rfl rfl rfl (Nat.le_refl _))
  · rintro t (e | e) <;> cases e

theorem auxFinish_settles (hs : Settled s) (hlen : w.bytes.length = 1) (hu : s.now.toNat ≤ u.toNat) :
    (auxFinish (s.takeAnswer w a rest u)).Settles := by
  obtain ⟨word, e⟩ := auxFinish_eq (s := s.takeAnswer w a rest u) (a := a) rfl
  rw [e]
  exact .stop (hs.answer_aux hlen rfl rfl rfl rfl rfl hu)

end

theorem xmitFromWrite_settles {s : State} {r : Request} {pairs : BitVec 13} (h : Inv s) (hs : Settled s) (hp : s.phase = .write)
    (hcur : s.cur = some r) (hd : decode r.hdr = .op (.xmit pairs)) : (xmitFromWrite s).Settles :=
  awaitAnswer_andThen_settles hs fun _ _ _ _ ho _ _ => xmitAcct_settles hs hp (h.inFlight (.inr hp) hcur hd) ho

theorem xmitFromWait_settles {s : State} {r : Request} {pairs : BitVec 13} (h : Inv s) (hs : Settled s) (hp : s.phase = .wait)
    (hcur : s.cur = some r) (hd : decode r.hdr = .op (.xmit pairs)) : (xmitFromWait s).Settles := by
  refine (waitOffer_settles hs).andThen fun t hsent ht => ?_
  obtain ⟨hinv, hpt, hct⟩ := waitOffer_go_inv h hp hsent
  exact xmitFromWrite_settles hinv ht hpt (hct.trans hcur) hd

theorem turn_settles {s : State} {r : Request} {pairs : BitVec 13} (h : TurnHead pairs r s) (hs : Settled s)
    (hlt : s.idx.toNat < 2 * pairs.toNat) : (xmitFromPack pairs (startBatch s)).Settles := by
  intro t ht
  cases hpack : xmitPack pairs (startBatch s) with
  | go u =>
    obtain ⟨us, last, hl⟩ := xmitPack_eq_go h.config h.cur h.even hlt hpack
    rw [xmitFromPack, hpack, Flow.go_andThen] at ht
    have packed : Settled (u.toPhase .wait) := by
      refine hs.of_eq ?_ ?_ ?_ ?_ ?_ (Nat.le_of_eq ?_) <;> rw [hl.frame] <;> rfl
    exact xmitFromWait_settles (loaded_inv h hl) packed rfl (hl.keep.cur.trans h.cur) h.op t ht
  | stop u => exact absurd hpack xmitPack_ne_stop
  | fault f => simp [xmitFromPack, hpack] at ht
  | refuse x => simp [xmitFromPack, hpack] at ht

theorem xmitLoop_settles {s : State} {r : Request} {pairs : BitVec 13} {n : Nat} (h : TurnHead pairs r s) (hs : Settled s) :
    (xmitLoop pairs n s).Settles := by
  induction n generalizing s with
  | zero => exact .stop (hs.of_eq rfl rfl rfl rfl rfl (Nat.le_refl _))
  | succ n ih =>
    rw [xmitLoop]
    split
    · rename_i hlt
      have hlt := idx_lt_lenOf.1 hlt
      exact (turn_settles h hs hlt).andThen fun t hgo ht => ih (turn_turnHead h hlt hgo).1 ht
    · exact .stop (hs.of_eq rfl rfl rfl rfl rfl (Nat.le_refl _))

/-- Every operation held in `WRITE`. -/
theorem fromWrite_settles {s : State} {r : Request} {i : Instr} (h : Inv s) (hs : Settled s) (hp : s.phase = .write)
    (hcur : s.cur = some r) (hd : decode r.hdr = .op i) : (fromWrite i s).Settles := by
  have hf := h.inFlight (.inr hp) hcur hd
  cases i with
  | xinit => exact awaitAnswer_andThen_settles hs fun _ _ _ _ ho hn _ => xinitAcct_settles hs hp hf ho hn
  | xmit pairs =>
    rw [fromWrite_xmit]
    exact (xmitFromWrite_settles h hs hp hcur hd).andThen fun t hgo ht =>
      xmitLoop_settles (xmitFromWrite_turnHead h hp hcur hd hgo) ht
  | setrw v | setaux v =>
    obtain ⟨-, -, hlen⟩ := hf
    exact awaitAnswer_andThen_settles hs fun w _ _ _ ho _ hu => auxFinish_settles hs (hlen w ho) hu

/-- Every operation held in `WAIT`. -/
theorem fromWait_settles {s : State} {r : Request} {i : Instr} (h : Inv s) (hs : Settled s) (hp : s.phase = .wait)
    (hcur : s.cur = some r) (hd : decode r.hdr = .op i) : (fromWait i s).Settles := by
  have transmit : (((waitDeadline s).andThen offerBuffer).andThen (fromWrite i)).Settles := by
    refine (waitOffer_settles hs).andThen fun t hsent ht => ?_
    obtain ⟨hinv, hpt, hct⟩ := waitOffer_go_inv h hp hsent
    exact fromWrite_settles hinv ht hpt (hct.trans hcur) hd
  cases i with
  | xinit | xmit pairs => exact transmit
  | setrw v | setaux v => exact .stop hs

/-- `SETRW` and `SETAUX`, from their start: what they offer is one byte. -/
theorem auxWrite_settles {s : State} (a : Byte) (hs : Settled s) : (auxWrite a s).Settles := by
  have offered : Settled ((s.setAux a).putOffer [a]) :=
    { past := hs.past, armed := hs.armed, idle := hs.idle, offered := by rintro o ⟨⟩ hlen; exact absurd rfl hlen }
  exact awaitAnswer_andThen_settles offered fun w _ _ _ ho _ hu => auxFinish_settles offered (by cases ho; rfl) hu

/-- Every operation, from its start. -/
theorem exec_settled {s t : State} {r : Request} {i : Instr} (h : Begun i r s) (hs : Settled s) (he : exec i s = .next t) :
    Settled t := by
  have checked : Settled (s.toPhase .check) := hs.of_eq rfl rfl rfl rfl rfl (Nat.le_refl _)
  cases i with
  | xinit =>
    rw [exec_xinit h.config] at he
    have hbegun : Begun .xinit r ((s.toPhase .check).setDone 0) := h.scratch
    rcases Flow.next_of_andThen he with hstop | ⟨u, hpack, hwait⟩
    · exact absurd hstop xinitPack_ne_stop
    · have hu := xinitPack_inv hbegun rfl hpack
      obtain ⟨d, -, -, rfl⟩ := xinitPack_eq_go hpack
      exact (fromWait_settles hu (hs.of_eq rfl rfl rfl rfl rfl (Nat.le_refl _)) rfl h.cur h.op).of_next hwait
  | xmit pairs =>
    by_cases hp : pairs = 0
    · subst hp
      rw [exec, execXmit_zero h.config] at he
      cases he
      exact hs.of_eq rfl rfl rfl rfl rfl (Nat.le_refl _)
    · rw [exec, execXmit_eq h.config hp] at he
      exact (xmitLoop_settles (r := r) (s := (s.toPhase .check).startXmit) ⟨h.scratch, rfl⟩
        (hs.of_eq rfl rfl rfl rfl rfl (Nat.le_refl _))).of_next he
  | setrw v =>
    rw [exec_setrw h.config] at he
    exact (auxWrite_settles _ checked).of_next he
  | setaux v =>
    rw [exec_setaux h.config] at he
    exact (auxWrite_settles _ checked).of_next he

/-- Settles O43: case by case over what a step can be; only issuing a transmit write and accounting its answer touch what the
guarantee speaks of. -/
theorem stepKeepsSettleTimes : Obligations.StepKeepsSettleTimes := by
  unfold Obligations.StepKeepsSettleTimes
  intro s t h hs hrst he
  obtain ⟨-, ⟨reset, -⟩ | ⟨-, -, -, rfl⟩ | ⟨-, hp, r, rest, now, -, hnow, how⟩ | ⟨-, -, rfl⟩ |
    ⟨-, hready, hresp, ⟨-, rfl⟩ | ⟨r, hcur, ⟨i, hd, hx⟩ | ⟨e, -, rfl⟩⟩⟩⟩ := step_cases he
  · simp [hrst] at reset
  · exact hs
  · have taken : Settled (s.takeRequest r rest now) := hs.of_eq rfl rfl rfl rfl rfl (advance_le hnow)
    rcases how with ⟨i, hd, hx⟩ | ⟨e, -, rfl⟩
    · exact exec_settled (takeRequest_begun h hp hd rest now) taken hx
    · exact taken.of_eq rfl rfl rfl rfl rfl (Nat.le_refl _)
  · rcases takeResponse_cases s with ⟨w, -, -, e⟩ | ⟨-, e⟩ <;> rw [e]
    · exact hs.of_eq rfl rfl rfl rfl rfl (Nat.le_refl _)
    · exact hs
  · exact hs
  · rcases h.phase with hp | hp | hp | hp
    · exact absurd hp hready
    · rw [resumeOp_wait hp] at hx
      exact (fromWait_settles h hs hp hcur hd).of_next hx
    · rw [resumeOp_write hp] at hx
      exact (fromWrite_settles h hs hp hcur hd).of_next hx
    · exact absurd hp hresp
  · exact hs.of_eq rfl rfl rfl rfl rfl (Nat.le_refl _)

end Sys2Proof.Machine

namespace Sys2Proof.Machine

/-! ### Draws of time that come late (R93, R104, R172)

The draws of time are read in `WaitDeadline` only, so that every other stretch of a transmit does the same whatever draws are to
come. -/

/-- The same state with the draws to come replaced. -/
def State.withTicks (ts : List Nat) (s : State) : State := { s with ticks := ts }

section
variable (ts : List Nat) (s : State)

@[simp] theorem State.withTicks_cfg : (s.withTicks ts).cfg = s.cfg := rfl
@[simp] theorem State.withTicks_dlValid : (s.withTicks ts).dlValid = s.dlValid := rfl
@[simp] theorem State.withTicks_idx : (s.withTicks ts).idx = s.idx := rfl
@[simp] theorem State.withTicks_j : (s.withTicks ts).j = s.j := rfl
@[simp] theorem State.withTicks_lastSlow : (s.withTicks ts).lastSlow = s.lastSlow := rfl
@[simp] theorem State.withTicks_now : (s.withTicks ts).now = s.now := rfl
@[simp] theorem State.withTicks_answers : (s.withTicks ts).answers = s.answers := rfl
@[simp] theorem State.withTicks_ans : (s.withTicks ts).ans = s.ans := rfl
@[simp] theorem State.withTicks_element : (s.withTicks ts).element = s.element := rfl

end

/-- A stretch that does not look at the time base. -/
def IgnoresTicks (f : State → Flow) : Prop := ∀ ts s, f (s.withTicks ts) = (f s).map (State.withTicks ts)

theorem IgnoresTicks.andThen {f g : State → Flow} (hf : IgnoresTicks f) (hg : IgnoresTicks g) :
    IgnoresTicks fun s => (f s).andThen g :=
  fun ts s => Flow.map_andThen (hf ts s) fun t _ => hg ts t

/-- It leaves the draws as they are, and those behind them. -/
theorem IgnoresTicks.go {f : State → Flow} {s t : State} (hf : IgnoresTicks f) (h : f s = .go t) (ts : List Nat) :
    f (s.withTicks (s.ticks ++ ts)) = .go (t.withTicks (t.ticks ++ ts)) := by
  have hsame : f s = (f s).map (State.withTicks s.ticks) := hf s.ticks s
  rw [h] at hsame
  have hst : t = t.withTicks s.ticks := Flow.go.inj hsame
  have hticks : t.ticks = (t.withTicks s.ticks).ticks := congrArg State.ticks hst
  rw [hf, h, hticks]
  rfl

theorem storeBytes_ignoresTicks (i : Nat) (bytes : List Byte) : IgnoresTicks (storeBytes i bytes) := by
  intro ts s
  rcases storeBytes_cases i bytes s with ⟨h, e⟩ | ⟨h, e⟩ <;> rw [e]
  · exact storeBytes_go h
  · exact if_neg (by simpa using h)

theorem xinitPack_ignoresTicks : IgnoresTicks xinitPack := by
  intro ts s
  simp only [xinitPack, State.withTicks_element]
  split
  · exact Flow.map_andThen (storeBytes_ignoresTicks _ _ ts (s.toPhase .pack)) fun _ _ => rfl
  · rfl

theorem xmitPackDirect_ignoresTicks (pairs : BitVec 13) : IgnoresTicks (xmitPackDirect pairs) := by
  intro ts s
  simp only [xmitPackDirect, State.withTicks_element, State.withTicks_idx]
  split
  · exact Flow.map_andThen (storeBytes_ignoresTicks _ _ ts (s.toPhase .pack).nextPair) fun _ _ => rfl
  · rfl

theorem packSlot_ignoresTicks (pairs : BitVec 13) : IgnoresTicks (packSlot pairs) := by
  intro ts s
  simp only [packSlot, State.withTicks_element, State.withTicks_idx]
  split
  · exact Flow.map_andThen (storeBytes_ignoresTicks _ _ ts (s.toPhase .pack).nextPair) fun _ _ => rfl
  · rfl

theorem packLoop_ignoresTicks (pairs : BitVec 13) (n : Nat) : IgnoresTicks (packLoop pairs n) := by
  induction n with
  | zero => exact fun _ _ => rfl
  | succ n ih =>
    refine (packSlot_ignoresTicks pairs).andThen fun ts s => ?_
    rw [show batchClosed pairs (s.withTicks ts) = batchClosed pairs s from rfl]
    split
    · rfl
    · exact ih ts s

theorem xmitPack_ignoresTicks (pairs : BitVec 13) : IgnoresTicks (xmitPack pairs) := by
  intro ts s
  simp only [xmitPack, State.withTicks_cfg]
  split
  · exact xmitPackDirect_ignoresTicks pairs ts s
  · exact Flow.map_andThen (packLoop_ignoresTicks pairs _ ts s) fun _ _ => rfl

theorem armIf_ignoresTicks (b : Bool) (settle : Time) : IgnoresTicks (armIf b settle) := by
  intro ts s
  cases b with
  | false => rfl
  | true =>
    simp only [armIf, if_true, arm, State.withTicks_now]
    cases advance s.now settle.toNat <;> rfl

theorem countUnits_ignoresTicks (good : Bool) (c : Nat) : IgnoresTicks (countUnits good c) := by
  intro ts s
  cases good <;> rfl

theorem xmitAcct_ignoresTicks : IgnoresTicks xmitAcct := by
  intro ts s
  have accounted : ∀ (b good : Bool) (settle : Time) (c : Nat),
      (armIf b settle (s.withTicks ts).emptyBuffer).andThen (countUnits good c) =
        ((armIf b settle s.emptyBuffer).andThen (countUnits good c)).map (State.withTicks ts) :=
    fun b good settle c => (armIf_ignoresTicks b settle).andThen (countUnits_ignoresTicks good c) ts s.emptyBuffer
  simp only [xmitAcct, xmitAcctDirect, xmitAcctBatched, accounted, State.withTicks_cfg, State.withTicks_ans,
    State.withTicks_lastSlow, State.withTicks_j]
  cases s.cfg.mode <;> cases s.ans <;> rfl

/-! #### A hold, with more draws behind -/

/-- A hold that ends leaves the draws behind its own. Where it found none it saw no time pass, as with one draw of 0. -/
theorem hold_over_later {target now t : Time} {ds ts : List Nat} (h : hold target now ds = .over t ts) :
    ∃ k, ∀ more, hold target now (ds ++ List.replicate k 0 ++ more) = .over t (ts ++ more) := by
  induction ds generalizing now with
  | nil =>
    rw [hold_nil] at h
    split at h <;> cases h
    have hzero : advance t 0 = some t := advance_eq_some.2 ⟨by simpa using t.isLt, rfl⟩
    exact ⟨1, fun more => hold_first hzero ‹_›⟩
  | cons d ds ih =>
    simp only [hold] at h
    split at h
    · rename_i u hu
      split at h
      · rename_i hle
        cases h
        exact ⟨0, fun more => by simpa using hold_first hu hle⟩
      · rename_i hlt
        obtain ⟨k, hk⟩ := ih h
        exact ⟨k, fun more => by simpa [hold, hu, hlt] using hk more⟩
    · cases h

/-- A hold that has not ended goes on from the instant it has come to. -/
theorem hold_held_later {target now t : Time} {ds : List Nat} (h : hold target now ds = .held t) (more : List Nat) :
    hold target now (ds ++ more) = hold target t more := by
  induction ds generalizing now with
  | nil =>
    rw [hold_nil] at h
    split at h <;> cases h
    rfl
  | cons d ds ih =>
    simp only [hold] at h
    split at h
    · rename_i u hu
      split at h
      · cases h
      · rename_i hlt
        simpa [hold, hu, hlt] using ih h
    · cases h

/-- Time that has passed is as good as the draw that lets it pass. -/
theorem hold_advanced {target now u : Time} {d : Nat} (h : advance now d = some u) :
    hold target u [] = hold target now [d] := by
  simp only [hold, h]
  split <;> rfl

/-- Of the clock, `WaitDeadline` reads only how its hold ends. -/
theorem waitDeadline_congr {s : State} {phase : Phase} {now : Time} {ticks : List Nat}
    (h : hold s.holdTarget now ticks = hold s.holdTarget s.now s.ticks) :
    waitDeadline { s with phase, now, ticks } = waitDeadline s := by
  unfold waitDeadline
  rw [← h]
  rfl

theorem waitDeadline_of_over {s : State} {u : Time} {ts : List Nat} (h : hold s.holdTarget s.now s.ticks = .over u ts) :
    waitDeadline s = if s.dlValid then .go ((s.toPhase .wait).passTo u ts).clearDeadline
      else .go ((s.toPhase .wait).passTo u ts) := by
  simp only [waitDeadline, h]

/-- `WaitDeadline` that goes on leaves the draws behind its own. -/
theorem waitDeadline_go_later {s t : State} (h : waitDeadline s = .go t) :
    ∃ k, ∀ more, waitDeadline (s.withTicks (s.ticks ++ List.replicate k 0 ++ more)) = .go (t.withTicks (t.ticks ++ more)) := by
  rcases waitDeadline_cases s with ⟨u, ts, hover, hv, e⟩ | ⟨u, ts, hover, hv, e⟩ | ⟨u, -, -, e⟩ | ⟨-, e⟩ <;> rw [e] at h <;>
    cases h
  all_goals
    obtain ⟨k, hk⟩ := hold_over_later hover
    refine ⟨k, fun more => ?_⟩
    rw [waitDeadline_of_over (s := s.withTicks (s.ticks ++ List.replicate k 0 ++ more)) (hk more)]
  · exact if_pos hv
  · exact if_neg (by simp [hv])

/-- `WaitDeadline` that holds the block goes on from where it holds. -/
theorem waitDeadline_stop_later {s t : State} (h : waitDeadline s = .stop t) (more : List Nat) :
    waitDeadline (s.withTicks (s.ticks ++ more)) = waitDeadline (t.withTicks more) := by
  rcases waitDeadline_cases s with ⟨u, ts, -, -, e⟩ | ⟨u, ts, -, -, e⟩ | ⟨u, hheld, -, e⟩ | ⟨-, e⟩ <;> rw [e] at h <;>
    cases h
  exact (waitDeadline_congr (s := s.withTicks (s.ticks ++ more)) (hold_held_later hheld more).symm).symm

/-! #### A transmit held in WAIT -/

/-- The same state with the request `r` in progress and draws and answers added behind those to come. -/
def State.withMore (r : Request) (more : List Answer) (ts : List Nat) (s : State) : State :=
  (s.withTicks (s.ticks ++ ts)).withPorts r (· ++ more)

section
variable {r : Request} {more : List Answer} {s t : State}

theorem startBatch_withMore (ts : List Nat) : startBatch (s.withMore r more ts) = (startBatch s).withMore r more ts := by
  simp only [startBatch, show (s.withMore r more ts).cfg = s.cfg from rfl]
  split <;> rfl

theorem xinitPack_later (hcur : s.cur = some r) (h : xinitPack s = .go t) (ts : List Nat) :
    xinitPack (s.withMore r more ts) = .go (t.withMore r more ts) := by
  rw [State.withMore, xinitPack_withPorts (s := s.withTicks (s.ticks ++ ts)) (.refl _ r) hcur, xinitPack_ignoresTicks.go h]
  rfl

theorem xmitPack_later {pairs : BitVec 13} (hcur : s.cur = some r) (h : xmitPack pairs s = .go t) (ts : List Nat) :
    xmitPack pairs (s.withMore r more ts) = .go (t.withMore r more ts) := by
  rw [State.withMore, xmitPack_withPorts (s := s.withTicks (s.ticks ++ ts)) (.refl _ r) hcur, (xmitPack_ignoresTicks pairs).go h]
  rfl

theorem waitOffer_later (h : (waitDeadline s).andThen offerBuffer = .go t) :
    ∃ k, ∀ ts, (waitDeadline (s.withMore r more (List.replicate k 0 ++ ts))).andThen offerBuffer =
      .go (t.withMore r more ts) := by
  obtain ⟨u, hwait, hput⟩ := Flow.andThen_eq_go h
  obtain ⟨k, hk⟩ := waitDeadline_go_later hwait
  obtain rfl := Flow.go.inj hput
  refine ⟨k, fun ts => ?_⟩
  rw [State.withMore, waitDeadline_withPorts, ← List.append_assoc, hk]
  rfl

theorem xmitFromWrite_later (h : xmitFromWrite s = .go t) (ts : List Nat) :
    xmitFromWrite (s.withMore r more ts) = .go (t.withMore r more ts) := by
  obtain ⟨u, hans, hacct⟩ := Flow.andThen_eq_go h
  obtain ⟨w, a, rest, x, ho, ha, hn, hx, rfl⟩ := awaitAnswer_eq_go hans
  have hanswer : awaitAnswer (s.withMore r more ts) = .go ((s.takeAnswer w a rest x).withMore r more ts) :=
    awaitAnswer_go (s := s.withMore r more ts) ho (by simp [State.withMore, ha]) hn hx
  rw [xmitFromWrite, hanswer, Flow.go_andThen, State.withMore, xmitAcct_withPorts, xmitAcct_ignoresTicks.go hacct]
  rfl

/-- A turn that goes on leaves the draws and the answers behind its own. -/
theorem turn_go_later {pairs : BitVec 13} (hcur : s.cur = some r) (h : xmitFromPack pairs (startBatch s) = .go t) :
    ∃ k, ∀ ts, xmitFromPack pairs (startBatch (s.withMore r more (List.replicate k 0 ++ ts))) = .go (t.withMore r more ts) := by
  obtain ⟨u, hpack, hwait⟩ := Flow.andThen_eq_go h
  obtain ⟨v, hoffer, hwrite⟩ := xmitFromWait_eq_go hwait
  obtain ⟨k, hk⟩ := waitOffer_later hoffer
  refine ⟨k, fun ts => ?_⟩
  rw [startBatch_withMore, xmitFromPack, xmitPack_later (by simpa using hcur) hpack, Flow.go_andThen, xmitFromWait, hk,
    Flow.go_andThen, xmitFromWrite_later hwrite]

/-- An operation that stops in accounting an answer offers its response. -/
def Responds (acct : State → Flow) : Prop := ∀ s a t, s.ans = some a → acct s = .stop t → t.phase = .resp

theorem xinitAcct_responds : Responds xinitAcct := by
  intro s a t ha h
  obtain ⟨dv, dt, rfl, -⟩ := xinitAcct_eq_stop ha h
  rfl

theorem xmitAcct_responds : Responds xmitAcct := by
  intro s a t ha h
  rcases xmitAcct_cases ha with ⟨dv, dt, -, ⟨-, e⟩ | ⟨-, e⟩⟩ | e <;> rw [e] at h <;> cases h
  rfl

/-- So a transmit that is held in `WAIT` is held by `WaitDeadline`. -/
theorem waitDeadline_of_held {acct : State → Flow} (hacct : Responds acct)
    (h : ((waitDeadline s).andThen offerBuffer).andThen (fun v => (awaitAnswer v).andThen acct) = .stop t)
    (hp : t.phase = .wait) : waitDeadline s = .stop t := by
  rcases Flow.andThen_eq_stop h with hheld | ⟨v, hsent, hwrite⟩
  · exact (Flow.andThen_eq_stop hheld).resolve_right fun ⟨_, _, hoffer⟩ => offerBuffer_ne_stop hoffer
  · obtain ⟨dt, n, -, -, e⟩ := waitOffer_eq_go hsent
    have hv : v.phase = .write := by rw [e]
    rcases Flow.andThen_eq_stop hwrite with hheld | ⟨u, hans, hstop⟩
    · rw [(awaitAnswer_eq_stop hheld).1, hv] at hp
      cases hp
    · obtain ⟨w, a, rest, x, -, -, -, -, rfl⟩ := awaitAnswer_eq_go hans
      rw [hacct _ a t rfl hstop] at hp
      cases hp

/-- `WaitDeadline` is all that a transmit does with the state it is held in. -/
theorem fromWait_congr {i : Instr} (hi : i = .xinit ∨ ∃ pairs, i = .xmit pairs) (h : waitDeadline s = waitDeadline t) :
    fromWait i s = fromWait i t := by
  rcases hi with rfl | ⟨pairs, rfl⟩ <;> simp only [fromWait, h]

/-- Given more draws and answers, `WaitDeadline` goes on from where it holds the block. -/
theorem waitDeadline_held_later (h : waitDeadline s = .stop t) :
    t.ticks = [] ∧ ∀ ts, waitDeadline (s.withMore r more ts) = waitDeadline (t.withMore r more ts) := by
  obtain ⟨-, -, -, e⟩ := waitDeadline_eq_stop h
  have hticks : t.ticks = [] := by rw [e]
  refine ⟨hticks, fun ts => ?_⟩
  rw [State.withMore, State.withMore, waitDeadline_withPorts, waitDeadline_withPorts, waitDeadline_stop_later h, hticks]
  rfl

/-- Any bound on turns that is enough for the commands left is as good as the full one. -/
theorem fromWait_fuel {pairs : BitVec 13} {n : Nat} (h : AtTurn r s) (hfuel : 2 * pairs.toNat ≤ s.idx.toNat + 2 * n) :
    (xmitFromWait s).andThen (xmitLoop pairs n) = fromWait (.xmit pairs) s := by
  show _ = ((waitDeadline s).andThen offerBuffer).andThen (fromWrite (.xmit pairs))
  rw [xmitFromWait, Flow.andThen_assoc]
  cases hw : (waitDeadline s).andThen offerBuffer with
  | go v =>
    have keep := waitGo_keep hw
    obtain ⟨dt, k, -, -, e⟩ := waitOffer_eq_go hw
    have hidx : v.idx = s.idx := by rw [e]
    exact fromWrite_fuel (r := r) ⟨by rw [keep.cfg]; exact h.config, keep.cur.trans h.cur, by rw [hidx]; exact h.even⟩
      (by rw [hidx]; exact hfuel)
  | stop v => rfl
  | fault f => rfl
  | refuse x => rfl

/-- An `XMIT` held in `WAIT`, by induction over the turns that went on before: the looks of these that found no draw are the draws
of 0. -/
theorem xmitLoop_held_later {pairs : BitVec 13} {n : Nat} (h : AtTurn r s)
    (hfuel : 2 * pairs.toNat ≤ s.idx.toNat + 2 * n) (he : xmitLoop pairs n s = .stop t) (hp : t.phase = .wait) :
    t.ticks = [] ∧ ∃ k, ∀ ts, xmitLoop pairs n (s.withMore r more (List.replicate k 0 ++ ts)) =
      fromWait (.xmit pairs) (t.withMore r more ts) := by
  induction n generalizing s with
  | zero =>
    cases he
    cases hp
  | succ n ih =>
    rw [xmitLoop] at he
    split at he
    · rename_i hlt
      have hloop : ∀ ts, xmitLoop pairs (n + 1) (s.withMore r more ts) =
          (xmitFromPack pairs (startBatch (s.withMore r more ts))).andThen (xmitLoop pairs n) :=
        fun ts => if_pos hlt
      have hlt := idx_lt_lenOf.1 hlt
      rcases Flow.andThen_eq_stop he with hturn | ⟨u, hturn, hrest⟩
      · obtain ⟨ht, hidx⟩ := turn_stop_atTurn h hlt hturn
        obtain ⟨u, hpack, hwait⟩ := (Flow.andThen_eq_stop hturn).resolve_left xmitPack_ne_stop
        obtain ⟨hticks, hlate⟩ := waitDeadline_held_later (r := r) (more := more)
          (waitDeadline_of_held xmitAcct_responds hwait hp)
        refine ⟨hticks, 0, fun ts => ?_⟩
        have hpacked := xmitPack_later (more := more) (by simpa using h.cur) hpack ts
        rw [hloop, List.replicate_zero, List.nil_append, startBatch_withMore, xmitFromPack, hpacked, Flow.go_andThen,
          xmitFromWait, hlate]
        exact fromWait_fuel (s := t.withMore r more ts) ⟨ht.config, rfl, ht.even⟩
          (show 2 * pairs.toNat ≤ t.idx.toNat + 2 * n by omega)
      · obtain ⟨hu, hidx⟩ := turn_atTurn h hlt hturn
        obtain ⟨hticks, k, hk⟩ := ih hu (by omega) hrest
        obtain ⟨j, hj⟩ := turn_go_later (more := more) h.cur hturn
        refine ⟨hticks, j + k, fun ts => ?_⟩
        rw [hloop, List.replicate_add, List.append_assoc, hj, Flow.go_andThen, hk]
    · cases he
      cases hp

/-- An operation held in `WAIT`, given draws and answers from its start, is the operation from `WAIT` on with these. -/
theorem exec_held_later {i : Instr} (hcur : s.cur = some r) (he : exec i s = .next t) (hp : t.phase = .wait) :
    (i = .xinit ∨ ∃ pairs, i = .xmit pairs) ∧ t.ticks = [] ∧
      ∃ k, ∀ ts, exec i (s.withMore r more (List.replicate k 0 ++ ts)) = (fromWait i (t.withMore r more ts)).outcome := by
  have hc := cfgOk_of_exec he
  have hc' : ∀ ts, cfgOk (s.withMore r more ts).cfg = true := fun _ => hc
  cases i with
  | xinit =>
    rw [exec_xinit hc] at he
    obtain ⟨u, hpack, hwait⟩ := (Flow.next_of_andThen he).resolve_left xinitPack_ne_stop
    have hstop : fromWait .xinit u = .stop t := by
      rcases Flow.outcome_eq_next.1 hwait with hgo | hstop
      · obtain ⟨v, -, hgo⟩ := Flow.andThen_eq_go hgo
        obtain ⟨x, -, hgo⟩ := Flow.andThen_eq_go hgo
        exact absurd hgo xinitAcct_ne_go
      · exact hstop
    obtain ⟨hticks, hlate⟩ := waitDeadline_held_later (r := r) (more := more)
      (waitDeadline_of_held xinitAcct_responds hstop hp)
    refine ⟨.inl rfl, hticks, 0, fun ts => ?_⟩
    have hpacked := xinitPack_later (s := (s.toPhase .check).setDone 0) (more := more) hcur hpack ts
    rw [exec_xinit (hc' _), ← fromWait_congr (.inl rfl) (hlate ts)]
    exact congrArg (fun m => (m.andThen (fromWait .xinit)).outcome) hpacked
  | xmit pairs =>
    by_cases h0 : pairs = 0
    · subst h0
      rw [exec, execXmit_zero hc] at he
      cases he
      cases hp
    · rw [exec, execXmit_eq hc h0] at he
      have hstop := (Flow.outcome_eq_next.1 he).resolve_left xmitLoop_ne_go
      obtain ⟨hticks, k, hk⟩ := xmitLoop_held_later (more := more) (s := (s.toPhase .check).startXmit) ⟨hc, hcur, rfl⟩
        (by simp) hstop hp
      refine ⟨.inr ⟨pairs, rfl⟩, hticks, k, fun ts => ?_⟩
      rw [exec, execXmit_eq (hc' _) h0]
      exact congrArg Flow.outcome (hk ts)
  | setrw v =>
    rw [exec_setrw hc] at he
    obtain ⟨hends, -⟩ := auxWrite_eq_next he
    simp [hp] at hends
  | setaux v =>
    rw [exec_setaux hc] at he
    obtain ⟨hends, -⟩ := auxWrite_eq_next he
    simp [hp] at hends

end

/-- A step in `WAIT` is the operation in progress going on from there. -/
theorem step_eq_fromWait {s : State} {r : Request} {i : Instr} (hc : cfgOk s.cfg = true) (hrst : s.rst = false)
    (hp : s.phase = .wait) (hcur : s.cur = some r) (hd : decode r.hdr = .op i) : step s = (fromWait i s).outcome := by
  rw [step_eq_resumeOp hc hrst (by simp [hp]) (by simp [hp]) hcur hd, resumeOp_wait hp]

/-- Settles O50: up to the hold that has not ended, an operation uses the draws that are there, and none behind them; a look that
finds none is a draw of 0. There it looks at the next draw, in `WAIT` as from its start. -/
theorem lateTimeResumesTheOperation : Obligations.LateTimeResumesTheOperation := by
  unfold Obligations.LateTimeResumesTheOperation
  intro i s t r more hrst hcur hd he hp
  have same := exec_same he
  have hcurt : t.cur = some r := same.cur.trans hcur
  obtain ⟨hi, hticks, k, hk⟩ := exec_held_later (more := more) hcur he hp
  have hs : ∀ ts, { s with ticks := s.ticks ++ List.replicate k 0 ++ ts, answers := s.answers ++ more } =
      s.withMore r more (List.replicate k 0 ++ ts) := by
    intro ts
    rw [State.withMore, State.withPorts, State.withTicks, ← hcur, List.append_assoc]
  have ht : ∀ ts, { t with ticks := ts, answers := t.answers ++ more } = t.withMore r more ts := by
    intro ts
    rw [State.withMore, State.withPorts, State.withTicks, ← hcurt, hticks]
    rfl
  have hc : cfgOk t.cfg = true := by rw [same.cfg]; exact cfgOk_of_exec he
  have hrstt : t.rst = false := same.rst.trans hrst
  refine ⟨k, fun ts => ?_, fun d u hu => ?_⟩
  · rw [hs, hk, ht]
    exact step_eq_fromWait hc hrstt hp rfl hd
  · rw [hs, hk, ← ht, step_eq_fromWait (s := { t with now := u, answers := t.answers ++ more }) hc hrstt hp hcurt hd]
    have hpassed : hold t.holdTarget u t.ticks = hold t.holdTarget t.now [d] := by
      rw [hticks]
      exact hold_advanced hu
    exact congrArg Flow.outcome (fromWait_congr hi
      (waitDeadline_congr (s := { t with ticks := [d], answers := t.answers ++ more }) hpassed))

end Sys2Proof.Machine

namespace Sys2Proof.Machine

/-! ## Transmit (42_transmit.md) -/

/-! ### A rejected length (R111, R153) -/

/-- In `READY` a request whose header is rejected is answered with its error at once (R72). -/
theorem step_rejects {s : State} {r : Request} {rest : List Request} {u : Time} {e : Reject} (hc : cfgOk s.cfg = true)
    (hrst : s.rst = false) (hp : s.phase = .ready) (hq : s.requests = r :: rest) (ha : advance s.now r.after = some u)
    (hd : decode r.hdr = .rejected e) : step s = .next (reject e (s.takeRequest r rest u)) := by
  simp [step, hc, hrst, hp, takeNext_request hq ha, hd]

/-- Settles O13: the header lies in the bad-length case of the opcode map, and `raiseErr` touches the phase and the
response. -/
theorem badLengthIsAnswered : Obligations.BadLengthIsAnswered := by
  unfold Obligations.BadLengthIsAnswered
  refine ⟨fun s r rest t hc hrst hp hq ha hlt hbad => ?_, fun s hc => ?_⟩
  · have hd : decode r.hdr = .rejected .badLength := decode_eq_iff.2 ⟨hlt, by omega⟩
    rw [step_rejects hc hrst hp hq ha hd]
    rfl
  · rw [exec, execXmit_zero hc]
    rfl

/-! ### XINIT, whatever the channel and the time base do (R113) -/

/-- From `WRITE`, an `XINIT` is held, or answered and ended. -/
theorem fromWrite_xinit_eq_next {s t : State} (he : (fromWrite .xinit s).outcome = .next t) :
    t = s ∨ ∃ w a rest u dv dt, s.offer = some w ∧ t = { s.takeAnswer w a rest u with
      phase := .resp, ans := none, bufLen := 0, buf := Memory.unspecify s.buf s.bufLen s.draws, draws := s.draws + 1
      dlValid := dv, dlTime := dt, done := BitVec.ofNat 14 (a.n / 3), rsp := t.rsp } := by
  rcases Flow.next_of_andThen he with hheld | ⟨x, hans, hacct⟩
  · exact .inl (awaitAnswer_eq_stop hheld).1
  · obtain ⟨w, a, rest, u, ho, -, -, -, rfl⟩ := awaitAnswer_eq_go hans
    have hacct : (xinitAcct (s.takeAnswer w a rest u)).outcome = .next t := hacct
    have hstop := (Flow.outcome_eq_next.1 hacct).resolve_left xinitAcct_ne_go
    obtain ⟨dv, dt, e, -⟩ := xinitAcct_eq_stop (a := a) rfl hstop
    exact .inr ⟨w, a, rest, u, dv, dt, ho, by rw [e]; rfl⟩

/-- What an `XINIT` moves: the scheduler, the clock, ports, `DONE`, and in the buffer `BUF[0..2]`, where its frame is. -/
def XinitMoves (s t : State) : Prop :=
  t = { s with
    phase := t.phase, done := t.done, bufLen := t.bufLen, buf := t.buf, now := t.now, ticks := t.ticks, draws := t.draws
    dlValid := t.dlValid, dlTime := t.dlTime, answers := t.answers, offer := t.offer, ans := t.ans, rsp := t.rsp
    writes := t.writes } ∧
  ∀ a, 3 ≤ a → Memory.read t.buf a = Memory.read s.buf a

theorem fromWait_xinit_moves {s t : State} (hlen : s.bufLen = 3) (he : (fromWait .xinit s).outcome = .next t) :
    XinitMoves s t := by
  rcases Flow.next_of_andThen he with hheld | ⟨v, hsent, hwrite⟩
  · obtain ⟨-, -, -, e⟩ := waitOffer_eq_stop hheld
    rw [e]
    exact ⟨rfl, fun _ _ => rfl⟩
  · obtain ⟨dt, n, -, -, hv⟩ := waitOffer_eq_go hsent
    rcases fromWrite_xinit_eq_next hwrite with rfl | ⟨w, a, rest, u, dv, dl, -, ht⟩
    · rw [hv]
      exact ⟨rfl, fun _ _ => rfl⟩
    · rw [ht, hv]
      refine ⟨rfl, fun k hk => ?_⟩
      show Memory.read (Memory.unspecify s.buf s.bufLen n) k = _
      rw [Memory.read_unspecify, if_neg (by omega)]

theorem exec_xinit_moves {s t : State} (he : exec .xinit s = .next t) : XinitMoves s t := by
  rw [exec_xinit (cfgOk_of_exec he)] at he
  rcases Flow.next_of_andThen he with hstop | ⟨u, hpack, hwait⟩
  · exact absurd hstop xinitPack_ne_stop
  obtain ⟨d, -, -, rfl⟩ := xinitPack_eq_go hpack
  obtain ⟨hmoves, hbuf⟩ := fromWait_xinit_moves rfl hwait
  refine ⟨hmoves, fun a ha => (hbuf a ha).trans ?_⟩
  exact Memory.read_writeBytes_outside _ _ _ _ (.inr (by simpa using ha))

/-- Settles O36: what an `XINIT` moves is none of these. -/
theorem xinitFrame : Obligations.XinitFrame := by
  unfold Obligations.XinitFrame
  intro s t he
  obtain ⟨e, hbuf⟩ := exec_xinit_moves he
  rw [e]
  exact ⟨rfl, rfl, rfl, rfl, rfl, rfl, rfl, rfl, rfl, rfl, by simpa using hbuf⟩

/-! ### XINIT completes (R99, R113) -/

/-- `if b: Arm(T)` goes on where the deadline fits 64 bits. -/
theorem armIf_goes {b : Bool} {settle : Time} {s : State} (h : b = true → s.now.toNat + settle.toNat < 2 ^ 64) :
    ∃ t, armIf b settle s = .go t := by
  cases b with
  | false => exact ⟨s, rfl⟩
  | true =>
    rcases arm_cases settle s with ⟨t, -, -, e⟩ | ⟨hbig, -⟩
    · exact ⟨_, e⟩
    · have := h rfl
      omega

/-- The answer to an `XINIT` is accounted where the deadline it may arm fits. -/
theorem xinitAcct_stops {s : State} {a : Answer} (ha : s.ans = some a)
    (hfit : a.n / 3 = 1 → s.now.toNat + s.cfg.tInit.toNat < 2 ^ 64) : ∃ t, xinitAcct s = .stop t := by
  obtain ⟨t, harm⟩ := armIf_goes (b := a.n / 3 == 1) (settle := s.cfg.tInit) (s := s.emptyBuffer)
    fun hb => hfit (by simpa using hb)
  simp only [xinitAcct, ha, harm, Flow.go_andThen]
  split <;> exact ⟨_, rfl⟩

/-- `DONE` of an `XINIT` whose channel accepts at most the three bytes of its frame (R113). -/
theorem xinit_count {n : Nat} (hn : n ≤ 3) : BitVec.ofNat 14 (n / 3) = if n = 3 then 1 else 0 := by
  obtain rfl | hshort : n = 3 ∨ n < 3 := by omega
  · rfl
  · rw [if_neg (by omega), Nat.div_eq_of_lt hshort]
    rfl

/-- Its response word (R65, R113). -/
theorem xinit_response {a : Answer} (hn : a.n ≤ 3) :
    (if a.good 3 then respWord 1 .ok else respWord (BitVec.ofNat 14 (a.n / 3)) .channel) =
      if a.n = 3 then (if a.fail then 0x8001#16 else 0x0001#16) else 0x8000#16 := by
  rw [xinit_count hn]
  by_cases h3 : a.n = 3
  · cases hf : a.fail <;> simp [Answer.good, h3, hf] <;> rfl
  · simp [Answer.good, h3]
    rfl

/-- With its element there and its hold over at `t`, an `XINIT` packs its frame and offers it then. -/
theorem sendFrame_goes {s : State} {d : Byte} {t : Time} {ts : List Nat} (hc : cfgOk s.cfg = true)
    (hd : s.element 1 0 = some d) (hhold : hold s.holdTarget s.now s.ticks = .over t ts) :
    ∃ v dt n, sendFrame s = .go v ∧ v = { s with
      phase := .write, bufLen := 3, buf := Memory.writeBytes s.buf 0 (frame s.cfg d s.aux), now := t, ticks := ts
      dlValid := false, dlTime := dt, draws := n, offer := some ⟨frame s.cfg d s.aux, t⟩ } := by
  obtain ⟨p, hpack, hp⟩ := xinitPack_goes hc hd
  obtain ⟨dt, n, hwait⟩ := waitDeadline_over (s := p) (u := t) (ts := ts) (by rw [hp]; exact hhold)
  have hbytes : Memory.readBytes p.buf 0 p.bufLen = frame s.cfg d s.aux := by
    rw [hp]
    exact Memory.readBytes_writeBytes s.buf (frame s.cfg d s.aux)
  refine ⟨_, dt, n, by rw [sendFrame, hpack, Flow.go_andThen, hwait, Flow.go_andThen, offerBuffer_eq, hbytes], ?_⟩
  rw [hp]
  rfl

/-- An answer that is there is accounted, and the `XINIT` ends (R113). -/
theorem fromWrite_xinit_ends {s : State} {w : Offer} {a : Answer} {rest : List Answer} {u : Time} (ho : s.offer = some w)
    (ha : s.answers = a :: rest) (hn : a.n ≤ w.bytes.length) (hu : advance s.now a.after = some u)
    (hfit : a.n / 3 = 1 → u.toNat + s.cfg.tInit.toNat < 2 ^ 64) :
    ∃ t, fromWrite .xinit s = .stop t ∧ xinitAcct (s.takeAnswer w a rest u) = .stop t := by
  obtain ⟨t, hacct⟩ := xinitAcct_stops (s := s.takeAnswer w a rest u) (a := a) rfl hfit
  refine ⟨t, ?_, hacct⟩
  rw [fromWrite, awaitAnswer_go ho ha hn hu, Flow.go_andThen]
  exact hacct

/-- Settles O25: the frame is offered when the hold is over, and its answer accounted. -/
theorem xinitSendsOneFrameAndArms : Obligations.XinitSendsOneFrameAndArms := by
  unfold Obligations.XinitSendsOneFrameAndArms
  refine ⟨by decide, fun s r d a rest t u ts hc hcur hd hhold hans hn hu hfit => ?_⟩
  have hel : ((s.toPhase .check).setDone 0).element 1 0 = some d := element_eq_some.2 ⟨by omega, r, hcur, hd⟩
  have hone : a.n / 3 = 1 ↔ a.n = 3 := by omega
  obtain ⟨v, dt, n, hsent, hv⟩ := sendFrame_goes (s := (s.toPhase .check).setDone 0) hc hel hhold
  obtain ⟨w, hends, hacct⟩ := fromWrite_xinit_ends (s := v) (w := ⟨frame s.cfg d s.aux, t⟩) (by rw [hv]; rfl)
    (by rw [hv]; exact hans) hn (by rw [hv]; exact hu) (by rw [hv]; exact fun h => hfit (hone.1 h))
  obtain ⟨dv, dl, hw, harm⟩ := xinitAcct_eq_stop (a := a) rfl hacct
  rw [xinit_response hn, xinit_count hn] at hw
  rw [exec_xinit_eq hc, hsent, Flow.go_andThen, hends, hw]
  subst hv
  refine ⟨_, rfl, rfl, rfl, rfl, rfl, ?_, ?_, rfl, rfl, rfl, rfl, rfl, rfl, rfl, rfl, rfl⟩
  · show dv = _
    rcases harm with ⟨h1, hdv, -⟩ | ⟨h1, hdv, -⟩
    · rw [hdv, decide_eq_true (hone.1 h1)]
    · rw [hdv, decide_eq_false (mt hone.2 h1)]
      rfl
  · intro h3
    rcases harm with ⟨-, -, hdl⟩ | ⟨h1, -, -⟩
    · exact hdl
    · exact absurd (hone.2 h3) h1

/-! ### XMIT, turn by turn (R110, R124) -/

/-- Of no commands, an `XMIT` is answered at once (log entry 14). -/
theorem exec_xmit_zero {s t : State} (he : exec (.xmit 0) s = .next t) : t = raiseErr .length 0 (s.toPhase .check) := by
  have hc := cfgOk_of_exec he
  rw [exec, execXmit_zero hc] at he
  cases he
  rfl

/-- A turn that answers a next state has read a stream. -/
theorem turn_has_request {pairs : BitVec 13} {s t : State} (hlt : s.idx.toNat < 2 * pairs.toNat)
    (he : (xmitFromPack pairs (startBatch s)).outcome = .next t) : ∃ r, s.cur = some r := by
  rcases Flow.next_of_andThen he with hstop | ⟨u, hpack, -⟩
  · exact absurd hstop xmitPack_ne_stop
  · exact xmitPack_has_request hlt hpack

/-- An `XMIT` with commands that answers a next state has run its loop, from the first command of a stream. -/
theorem exec_xmit_loop {pairs : BitVec 13} {s t : State} (hp : pairs ≠ 0) (he : exec (.xmit pairs) s = .next t) :
    xmitLoop pairs pairs.toNat (s.toPhase .check).startXmit = .stop t ∧
      ∃ r, AtTurn r (s.toPhase .check).startXmit := by
  have hc := cfgOk_of_exec he
  rw [exec, execXmit_eq hc hp] at he
  have hpos : 0 < pairs.toNat := Nat.pos_of_ne_zero (BitVec.toNat_ne.1 hp)
  have hlt : (s.toPhase .check).startXmit.idx.toNat < 2 * pairs.toNat := by simp; omega
  refine ⟨(Flow.outcome_eq_next.1 he).resolve_left xmitLoop_ne_go, ?_⟩
  obtain ⟨n, hn⟩ : ∃ n, pairs.toNat = n + 1 := ⟨pairs.toNat - 1, by omega⟩
  rw [hn, xmitLoop, if_pos (idx_lt_lenOf.2 hlt)] at he
  obtain ⟨r, hr⟩ : ∃ r, (s.toPhase .check).startXmit.cur = some r := by
    rcases Flow.next_of_andThen he with hstop | ⟨u, hgo, -⟩
    · exact turn_has_request hlt (by rw [hstop]; rfl)
    · exact turn_has_request hlt (by rw [hgo]; rfl)
  exact ⟨r, hc, hr, rfl⟩

/-- The induction over the turns of an `XMIT` with commands, whatever the length of its stream: `P` holds at the first turn,
each turn that goes on keeps it, and each way to stop gives `Q`. -/
theorem exec_xmit_induct {pairs : BitVec 13} {P Q : State → Prop} {s t : State} (hp : pairs ≠ 0)
    (he : exec (.xmit pairs) s = .next t) (start : P (s.toPhase .check).startXmit)
    (go : ∀ r u v, AtTurn r u → P u → u.idx.toNat < 2 * pairs.toNat → xmitFromPack pairs (startBatch u) = .go v → P v)
    (stop : ∀ r u v, AtTurn r u → P u → u.idx.toNat < 2 * pairs.toNat → xmitFromPack pairs (startBatch u) = .stop v → Q v)
    (fin : ∀ u, P u → 2 * pairs.toNat ≤ u.idx.toNat → Q (respond u.done u)) : Q t := by
  obtain ⟨hloop, r, hturn⟩ := exec_xmit_loop hp he
  refine xmitLoop_induct (P := fun u => AtTurn r u ∧ P u) ?_ ?_ ?_ ⟨hturn, start⟩ (by simp) hloop
  · rintro u v ⟨hu, hPu⟩ hlt hgo
    obtain ⟨hv, hidx⟩ := turn_atTurn hu hlt hgo
    exact ⟨⟨hv, go r u v hu hPu hlt hgo⟩, hidx⟩
  · rintro u v ⟨hu, hPu⟩ hlt hstop
    exact stop r u v hu hPu hlt hstop
  · rintro u ⟨-, hPu⟩ hge
    exact fin u hPu hge

/-! ### What XMIT leaves alone -/

/-- The phase, the response and the loop's own registers are none of what `XKeep` speaks of. -/
theorem XKeep.scratch {s t : State} {phase : Phase} {idx done : Count} {rsp : Option RespWord} (h : XKeep s t) :
    XKeep s { t with phase, idx, done, rsp } :=
  ⟨h.cfg, h.aux, h.j, h.rst, h.requests, h.cur, h.rspReady, h.responses, h.buf⟩

theorem exec_xmit_keep {pairs : BitVec 13} {s t : State} (he : exec (.xmit pairs) s = .next t) : XKeep s t := by
  by_cases hp : pairs = 0
  · subst hp
    obtain rfl := exec_xmit_zero he
    exact (XKeep.refl s).scratch
  · refine exec_xmit_induct (P := XKeep s) hp he (XKeep.refl s).scratch ?_ ?_ fun u hu _ => hu.scratch
    · intro r u v hu hkeep hlt hgo
      obtain ⟨us, last, turn⟩ := turn_go hu.config hu.cur hu.even hlt hgo
      exact hkeep.trans turn.keep
    · intro r u v hu hkeep hlt hstop
      obtain ⟨us, last, turn⟩ := turn_stop hu.config hu.cur hu.even hlt hstop
      exact hkeep.trans turn.keep

/-- Settles O37: no turn moves any of these. -/
theorem xmitFrame : Obligations.XmitFrame := by
  unfold Obligations.XmitFrame
  intro pairs s t he
  have keep := exec_xmit_keep he
  exact ⟨keep.cfg, keep.aux, keep.j, keep.rst, keep.requests, keep.cur, keep.rspReady, keep.responses, keep.buf⟩

/-! ### The writes of XMIT are batches of its stream (R116, R117) -/

/-- The write `v` offers the units of consecutive commands of `cmds`, no more than fit and none but the last slow. -/
def IsBatch (c : Cfg) (a : Byte) (cmds : List Cmd) (v : WriteRec) : Prop :=
  ∃ us : List Cmd, v.bytes = writeBytes c a us ∧ 1 ≤ us.length ∧ us.length ≤ slotCount c ∧ us <:+: cmds ∧
    ∀ u ∈ us.dropLast, slow u.1 u.2 = false

/-- From `s` to `t` only batches of `cmds` were written. -/
def WroteBatches (s : State) (cmds : List Cmd) (t : State) : Prop :=
  ∃ new : List WriteRec, t.writes = s.writes ++ new ∧ ∀ v ∈ new, IsBatch s.cfg s.aux cmds v

/-- The commands packed in a turn are consecutive in the stream. -/
theorem infix_of_prefix_drop {us cmds : List Cmd} {k : Nat} (h : us <+: cmds.drop k) : us <:+: cmds :=
  h.isInfix.trans (List.drop_suffix k cmds).isInfix

theorem WroteBatches.refl (s : State) (cmds : List Cmd) : WroteBatches s cmds s := ⟨[], by simp, by simp⟩

/-- It depends on the writes only. -/
theorem WroteBatches.of_eq {s t u : State} {cmds : List Cmd} (h : WroteBatches s cmds t) (hw : u.writes = t.writes) :
    WroteBatches s cmds u := by
  obtain ⟨new, hnew, hall⟩ := h
  exact ⟨new, hw.trans hnew, hall⟩

theorem WroteBatches.append {s t u : State} {cmds : List Cmd} {v : WriteRec} (h : WroteBatches s cmds t)
    (hw : u.writes = t.writes ++ [v]) (hv : IsBatch s.cfg s.aux cmds v) : WroteBatches s cmds u := by
  obtain ⟨new, hnew, hall⟩ := h
  refine ⟨new ++ [v], by rw [hw, hnew, List.append_assoc], fun x hx => ?_⟩
  rcases List.mem_append.1 hx with hx | hx
  · exact hall x hx
  · exact List.mem_singleton.1 hx ▸ hv

theorem exec_xmit_wroteBatches {pairs : BitVec 13} {s t : State} {r : Request} (hr : s.cur = some r)
    (he : exec (.xmit pairs) s = .next t) : WroteBatches s (commands r.stream) t := by
  have unwritten := WroteBatches.refl s (commands r.stream)
  by_cases hp : pairs = 0
  · subst hp
    obtain rfl := exec_xmit_zero he
    exact unwritten.of_eq rfl
  refine exec_xmit_induct (P := fun u => XKeep s u ∧ WroteBatches s (commands r.stream) u) hp he
    ⟨(XKeep.refl s).scratch, unwritten.of_eq rfl⟩ ?_ ?_ fun u hu _ => hu.2
  · rintro r' u v hu ⟨keep, wrote⟩ hlt hgo
    obtain rfl : r = r' := Option.some.inj (hr.symm.trans (keep.cur.symm.trans hu.cur))
    obtain ⟨us, last, turn⟩ := turn_go hu.config hu.cur hu.even hlt hgo
    obtain ⟨issued, a, rest, -, -, -, -, -, -, -, hw⟩ := turn.sent
    have fits := turn.fits
    rw [keep.cfg] at hw fits
    rw [keep.aux] at hw
    exact ⟨keep.trans turn.keep,
      wrote.append hw ⟨us, rfl, turn.some, fits, infix_of_prefix_drop turn.taken, turn.fast⟩⟩
  · rintro r' u v hu ⟨keep, wrote⟩ hlt hstop
    obtain rfl : r = r' := Option.some.inj (hr.symm.trans (keep.cur.symm.trans hu.cur))
    obtain ⟨us, last, turn⟩ := turn_stop hu.config hu.cur hu.even hlt hstop
    have fits := turn.fits
    rw [keep.cfg] at fits
    rcases turn.how with ⟨-, -, -, -, -, -, hw, -⟩ | ⟨-, -, -, -, hw, -⟩ |
      ⟨-, -, -, issued, a, rest, -, -, -, -, -, -, hw, -⟩
    · exact wrote.of_eq hw
    · exact wrote.of_eq hw
    · rw [keep.cfg, keep.aux] at hw
      exact wrote.append hw ⟨us, rfl, turn.some, fits, infix_of_prefix_drop turn.taken, turn.fast⟩

/-- In batched mode the unit of a command is its slot (R112). -/
theorem unitBytes_batched {c : Cfg} (hm : c.mode = .batched) (a : Byte) : unitBytes c a = fun u => slot c u.1 u.2 a := by
  funext u
  simp only [unitBytes, hm]

/-- Settles O29: in batched mode the units of a batch are slots. -/
theorem slowCommandClosesItsBatch : Obligations.SlowCommandClosesItsBatch := by
  unfold Obligations.SlowCommandClosesItsBatch
  intro pairs s t r new hm hr he hw v hv
  obtain ⟨new', hw', hall⟩ := exec_xmit_wroteBatches hr he
  obtain rfl : new = new' := List.append_cancel_left (hw.symm.trans hw')
  obtain ⟨us, hbytes, hbatch⟩ := hall v hv
  rw [writeBytes, unitBytes_batched hm] at hbytes
  exact ⟨us, hbytes, hbatch⟩

/-! ### At the response nothing is in hand (R118, R122) -/

/-- Nothing is in hand, no answer is unaccounted, and the bytes sent last are free values of one draw. -/
structure Emptied (s : State) : Prop where
  empty : s.bufLen = 0
  offer : s.offer = none
  ans : s.ans = none
  free : ∃ (w : WriteRec) (k : Nat), s.writes.getLast? = some w ∧
    ∀ a, a < w.bytes.length → Memory.read s.buf a = Config.freeByte k a

/-- Once the answer to a write of the whole buffer is accounted, all of it is unspecified. -/
theorem emptied_of_answer {s : State} {w : Offer} {a : Answer} {rest : List Answer} {u dlTime : Time} {phase : Phase}
    {dlValid : Bool} {done : Count} {rsp : Option RespWord} (hlen : w.bytes.length = s.bufLen) :
    Emptied { s.takeAnswer w a rest u with
      phase, ans := none, bufLen := 0, buf := Memory.unspecify s.buf s.bufLen s.draws, draws := s.draws + 1
      dlValid, dlTime, done, rsp } where
  empty := rfl
  offer := rfl
  ans := rfl
  free := by
    refine ⟨_, s.draws, List.getLast?_concat, fun k hk => ?_⟩
    simp only [hlen] at hk
    rw [Memory.read_unspecify, if_pos hk]

/-- The write that `WAIT` issues is that of the whole buffer. -/
theorem waitOffer_offers_buffer {s v : State} {w : Offer} (h : (waitDeadline s).andThen offerBuffer = .go v)
    (ho : v.offer = some w) : w.bytes.length = v.bufLen := by
  obtain ⟨dt, n, -, -, e⟩ := waitOffer_eq_go h
  rw [e] at ho ⊢
  obtain rfl := Option.some.inj ho
  simp

theorem fromWait_xinit_emptied {s t : State} (he : (fromWait .xinit s).outcome = .next t) (hp : t.phase = .resp) :
    Emptied t := by
  rcases Flow.next_of_andThen he with hheld | ⟨v, hsent, hwrite⟩
  · obtain ⟨-, -, -, e⟩ := waitOffer_eq_stop hheld
    rw [e] at hp
    cases hp
  · rcases fromWrite_xinit_eq_next hwrite with rfl | ⟨w, a, rest, u, dv, dt, ho, e⟩
    · obtain ⟨dt, n, -, -, e⟩ := waitOffer_eq_go hsent
      rw [e] at hp
      cases hp
    · rw [e]
      exact emptied_of_answer (waitOffer_offers_buffer hsent ho)

theorem xmitFromWait_go_emptied {s t : State} (he : xmitFromWait s = .go t) : Emptied t := by
  obtain ⟨v, hsent, hwrite⟩ := xmitFromWait_eq_go he
  obtain ⟨w, a, rest, u, dv, dt, ho, -, -, -, -, -, rfl⟩ := xmitFromWrite_eq_go hwrite
  exact emptied_of_answer (waitOffer_offers_buffer hsent ho)

theorem xmitFromWait_stop_emptied {s t : State} (he : xmitFromWait s = .stop t) (hp : t.phase = .resp) : Emptied t := by
  rcases xmitFromWait_eq_stop he with hheld | ⟨v, hsent, hwrite⟩
  · obtain ⟨-, -, -, e⟩ := waitOffer_eq_stop hheld
    rw [e] at hp
    cases hp
  · rcases xmitFromWrite_eq_stop hwrite with ⟨rfl, -⟩ | ⟨w, a, rest, u, dv, dt, ho, -, -, -, -, -, rfl⟩
    · obtain ⟨dt, n, -, -, e⟩ := waitOffer_eq_go hsent
      rw [e] at hp
      cases hp
    · exact emptied_of_answer (waitOffer_offers_buffer hsent ho)

theorem exec_xinit_emptied {s t : State} (he : exec .xinit s = .next t) (hp : t.phase = .resp) : Emptied t := by
  rw [exec_xinit (cfgOk_of_exec he)] at he
  rcases Flow.next_of_andThen he with hstop | ⟨u, -, hwait⟩
  · exact absurd hstop xinitPack_ne_stop
  · exact fromWait_xinit_emptied hwait hp

/-- By induction over the turns: the first one finds the buffer as it may be, every later one empty. -/
theorem exec_xmit_emptied {pairs : BitVec 13} {s t : State} (hne : pairs ≠ 0) (he : exec (.xmit pairs) s = .next t)
    (hp : t.phase = .resp) : Emptied t := by
  have hpos : 0 < pairs.toNat := Nat.pos_of_ne_zero (BitVec.toNat_ne.1 hne)
  revert hp
  refine exec_xmit_induct (P := fun u => 0 < u.idx.toNat → Emptied u) (Q := fun u => u.phase = .resp → Emptied u) hne he
    (by simp) ?_ ?_ ?_
  · intro r u v hu hP hlt hgo _
    obtain ⟨x, -, hwait⟩ := Flow.andThen_eq_go hgo
    exact xmitFromWait_go_emptied hwait
  · intro r u v hu hP hlt hstop hp
    rcases Flow.andThen_eq_stop hstop with hstop | ⟨x, -, hwait⟩
    · exact absurd hstop xmitPack_ne_stop
    · exact xmitFromWait_stop_emptied hwait hp
  · intro u hP hge _
    obtain ⟨empty, offer, ans, free⟩ := hP (by omega)
    exact ⟨empty, offer, ans, free⟩

/-- Settles O33: `XINIT` and `XMIT` respond only when the answer to a write of the whole buffer is accounted. -/
theorem transmitEndsWithAnEmptyBuffer : Obligations.TransmitEndsWithAnEmptyBuffer := by
  unfold Obligations.TransmitEndsWithAnEmptyBuffer
  intro i s t hi he hp
  obtain ⟨haux, empty, offer, ans, free⟩ : t.aux = s.aux ∧ Emptied t := by
    rcases hi with rfl | ⟨pairs, rfl, hne⟩
    · obtain ⟨e, -⟩ := exec_xinit_moves he
      exact ⟨by rw [e], exec_xinit_emptied he hp⟩
    · exact ⟨(exec_xmit_keep he).aux, exec_xmit_emptied hne he hp⟩
  exact ⟨empty, haux, offer, ans, free⟩

/-! ### What XMIT has written and what it answers (R110, R112, R120) -/

/-- Settles O28: the ends of `Ended`, of which each holds that much. -/
theorem xmitWritesFollowThePlan : Obligations.XmitWritesFollowThePlan := by
  unfold Obligations.XmitWritesFollowThePlan
  intro pairs s t r hp hr hlen he
  obtain ⟨new, hw, -, how⟩ := xmit_ended hp hr hlen he
  refine ⟨new, hw, ?_⟩
  rcases how with ⟨hwait, hgood, hplan⟩ | ⟨hwrite, hgood, o, ho, hplan⟩ | ⟨hresp, hgood, hplan, hrsp, -⟩ |
    ⟨hresp, ok, bad, hnew, hgood, hbad, hplan, d, hd, -, hrsp, -⟩
  · exact ⟨hplan, .inl ⟨hwait, hgood⟩⟩
  · exact ⟨(List.prefix_append _ _).trans hplan, .inr (.inl ⟨hwrite, hgood, o, ho, hplan⟩)⟩
  · exact ⟨hplan ▸ List.prefix_rfl, .inr (.inr (.inl ⟨hresp, hgood, hplan, hrsp⟩))⟩
  · refine ⟨hplan, .inr (.inr (.inr ⟨hresp, ok, bad, hnew, hgood, hbad, ?_⟩))⟩
    rw [← hd, BitVec.ofNat_toNat, BitVec.setWidth_eq]
    exact hrsp

/-- At its response an `XMIT` has confirmed the units of its first `DONE` commands, and at `OK` those are all of them. -/
theorem xmit_responds {pairs : BitVec 13} {s t : State} {r : Request} {new : List WriteRec} (hp : pairs ≠ 0)
    (hr : s.cur = some r) (hlen : r.stream.length = 2 * pairs.toNat) (he : exec (.xmit pairs) s = .next t)
    (hresp : t.phase = .resp) (hw : t.writes = s.writes ++ new) :
    ∃ (d : Count) (e : Err), t.rsp = some (respWord d e) ∧ d.toNat ≤ pairs.toNat ∧ (e = .ok → d.toNat = pairs.toNat) ∧
      new.flatMap (confirmed s.cfg) = ((commands r.stream).take d.toNat).flatMap (unitBytes s.cfg s.aux) := by
  obtain ⟨new', hw', -, how⟩ := xmit_ended hp hr hlen he
  obtain rfl : new = new' := List.append_cancel_left (hw.symm.trans hw')
  rcases how with ⟨hwait, -⟩ | ⟨hwrite, -⟩ | ⟨-, -, -, hrsp, hconf⟩ | ⟨-, -, -, -, -, -, -, d, -, hle, hrsp, hconf, -⟩
  · simp [hresp] at hwait
  · simp [hresp] at hwrite
  · have hd : (BitVec.ofNat 14 pairs.toNat).toNat = pairs.toNat := by
      rw [BitVec.toNat_ofNat, Nat.mod_eq_of_lt (Nat.lt_trans pairs.isLt (by decide))]
    refine ⟨_, _, hrsp, hd.le, fun _ => hd, ?_⟩
    rw [hconf, hd, List.take_of_length_le (by rw [commands_length]; omega)]
  · exact ⟨d, .channel, hrsp, hle, nofun, hconf⟩

/-- Settles O30: whether it ends with `OK` or with `ERR_CHANNEL`. -/
theorem confirmedUnitsAreTheFirstDone : Obligations.ConfirmedUnitsAreTheFirstDone := by
  unfold Obligations.ConfirmedUnitsAreTheFirstDone
  intro pairs s t r new hp hr hlen he hresp hw
  obtain ⟨d, e, hrsp, hle, -, hconf⟩ := xmit_responds hp hr hlen he hresp hw
  exact ⟨d, e, hrsp, hle, hconf⟩

/-- Settles O31: the first request confirms the first `DONE` commands, the second all of its stream, which is the rest. -/
theorem retryOfTheSuffixRebuildsTheStream : Obligations.RetryOfTheSuffixRebuildsTheStream := by
  unfold Obligations.RetryOfTheSuffixRebuildsTheStream
  intro pairs pairs' s t s' t' r r' d d' new new' hp hr hlen he hresp hw hrsp hlt hpairs' hcfg hr' hstream he' hresp' hw'
    hrsp'
  have hlen' : r'.stream.length = 2 * pairs'.toNat := by rw [hstream, List.length_drop]; omega
  have hp' : pairs' ≠ 0 := by rintro rfl; simp at hpairs'; omega
  have hcmds : commands r'.stream = (commands r.stream).drop d.toNat := by rw [hstream, commands_drop]
  obtain ⟨d₁, e₁, hrsp₁, -, -, hconf⟩ := xmit_responds hp hr hlen he hresp hw
  obtain ⟨rfl, -⟩ := respWord_inj (Option.some.inj (hrsp.symm.trans hrsp₁))
  obtain ⟨d₂, e₂, hrsp₂, -, hall, hconf'⟩ := xmit_responds hp' hr' hlen' he' hresp' hw'
  obtain ⟨rfl, rfl⟩ := respWord_inj (Option.some.inj (hrsp'.symm.trans hrsp₂))
  have hcount := hall rfl
  rw [hcfg, hcmds, List.take_of_length_le (by rw [List.length_drop, commands_length]; omega)] at hconf'
  exact ⟨_, _, List.take_append_drop d.toNat (commands r.stream), by rw [List.length_take, commands_length]; omega, hconf,
    hconf'⟩

/-! ### A run on a good channel, as `goodRun` plans it -/

/-- The deadline that stands: none when Idle (R22). -/
def State.due (s : State) : Option Time := if s.dlValid then some s.dlTime else none

theorem State.holdTarget_eq (s : State) : s.holdTarget = s.due.getD 0 := by
  cases hv : s.dlValid <;> simp [State.holdTarget, State.due, hv]

/-- No batch of the cut is empty. -/
theorem cutFrom_nonempty {ns : Nat} {acc us b : List Cmd} (hb : b ∈ cutFrom ns acc us) : b ≠ [] := by
  induction us generalizing acc with
  | nil =>
    simp only [cutFrom] at hb
    split at hb
    · simp at hb
    · exact List.mem_singleton.1 hb ▸ ‹_›
  | cons u us ih =>
    simp only [cutFrom] at hb
    split at hb
    · rcases List.mem_cons.1 hb with rfl | hb
      · simp
      · exact ih hb
    · exact ih hb

/-- No planned write is empty. -/
theorem plannedWrites_nonempty {c : Cfg} {us b : List Cmd} (hb : b ∈ plannedWrites c us) : b ≠ [] := by
  unfold plannedWrites at hb
  cases hm : c.mode with
  | direct =>
    simp only [hm, List.mem_map] at hb
    obtain ⟨u, -, rfl⟩ := hb
    simp
  | batched =>
    simp only [hm] at hb
    exact cutFrom_nonempty hb

/-- The writes of the run are the planned ones, all good. -/
theorem goodRun_writes {c : Cfg} {a : Byte} {plan : List (List Cmd)} {due : Option Time} {now : Time} {ticks : List Nat}
    {answers : List Answer} {e : Run} (h : goodRun c a plan due now ticks answers = some e) :
    e.writes.map WriteRec.bytes = plan.map (writeBytes c a) ∧ ∀ v ∈ e.writes, v.good = true := by
  induction plan generalizing due now ticks answers e with
  | nil =>
    cases h
    simp
  | cons us plan ih =>
    obtain ⟨t, left, ans, rest, u, due', e', -, -, hgood, -, -, hrun, rfl⟩ := goodRun_cons h
    obtain ⟨hbytes, hall⟩ := ih hrun
    refine ⟨by simp [hbytes], List.forall_mem_cons.2 ⟨?_, hall⟩⟩
    simpa [WriteRec.good, Answer.good] using hgood

/-- The run uses one answer a write and only the draws looked at, and time grows by exactly these. -/
theorem goodRun_uses {c : Cfg} {a : Byte} {plan : List (List Cmd)} {due : Option Time} {now : Time} {ticks : List Nat}
    {answers : List Answer} {e : Run} (h : goodRun c a plan due now ticks answers = some e) :
    ∃ ds as, ticks = ds ++ e.ticks ∧ answers = as ++ e.answers ∧ as.length = plan.length ∧
      e.now.toNat = now.toNat + ds.sum + (as.map Answer.after).sum := by
  induction plan generalizing due now ticks answers e with
  | nil =>
    cases h
    exact ⟨[], [], rfl, rfl, rfl, rfl⟩
  | cons us plan ih =>
    obtain ⟨t, left, ans, rest, u, due', e', hhold, rfl, -, hu, -, hrun, rfl⟩ := goodRun_cons h
    obtain ⟨-, -, pre, rfl, ht⟩ := hold_over hhold
    obtain ⟨ds, as, rfl, rfl, hlen, hnow⟩ := ih hrun
    refine ⟨pre ++ ds, ans :: as, by simp, rfl, by simp [hlen], ?_⟩
    have hadv := (advance_eq_some.1 hu).2
    simp only [List.sum_append, List.map_cons, List.sum_cons]
    omega

/-- What a write arms depends on its last command only (R98). -/
theorem dueAfter_last {c : Cfg} {us : List Cmd} {last : Cmd} (h : us.getLast? = some last) (u : Time) :
    dueAfter c us u = dueAfter c [last] u := by
  simp only [dueAfter, settleOf, h, List.getLast?_singleton]

/-- At its end the run leaves what its last command arms then. -/
theorem goodRun_deadline {c : Cfg} {a : Byte} {plan : List (List Cmd)} {due : Option Time} {now : Time} {ticks : List Nat}
    {answers : List Answer} {e : Run} {last : Cmd} (h : goodRun c a plan due now ticks answers = some e)
    (hne : ∀ us ∈ plan, us ≠ []) (hlast : plan.flatten.getLast? = some last) :
    dueAfter c [last] e.now = some e.deadline := by
  induction plan generalizing due now ticks answers e with
  | nil => simp at hlast
  | cons us plan ih =>
    obtain ⟨t, left, ans, rest, u, due', e', -, -, -, -, hdue, hrun, rfl⟩ := goodRun_cons h
    obtain ⟨-, hne'⟩ := List.forall_mem_cons.1 hne
    cases plan with
    | nil =>
      cases hrun
      rw [← dueAfter_last (by simpa using hlast)]
      exact hdue
    | cons vs plan =>
      refine ih (e := e') hrun hne' ?_
      have hvs : vs ++ plan.flatten ≠ [] := by simp [hne' vs]
      rw [List.flatten_cons, List.flatten_cons, List.getLast?_append_of_ne_nil _ hvs] at hlast
      exact hlast

/-! ### XMIT completes on a good channel (R114 to R116, R126) -/

/-- `PACK` and `WAIT` of a turn: with the stream there and the hold over at `t`, the write of the next commands is offered
then. -/
theorem sendTurn_goes {pairs : BitVec 13} {s : State} {r : Request} {t : Time} {left : List Nat} (h : AtTurn r s)
    (hlen : 2 * pairs.toNat ≤ r.stream.length) (hlt : s.idx.toNat < 2 * pairs.toNat)
    (hhold : hold s.holdTarget s.now s.ticks = .over t left) :
    ∃ us last p v dt n, Loaded pairs s (commands r.stream) us last p ∧ sendTurn pairs s = .go v ∧ v = { s with
      phase := .write, idx := p.idx, j := p.j, lastSlow := slow last.1 last.2, buf := p.buf
      bufLen := us.length * slotSize s.cfg, now := t, ticks := left, dlValid := false, dlTime := dt, draws := n
      offer := some ⟨writeBytes s.cfg s.aux us, t⟩ } := by
  obtain ⟨p, hpack⟩ := xmitPack_goes h.config h.cur hlen h.even hlt
  obtain ⟨us, last, loaded⟩ := xmitPack_eq_go h.config h.cur h.even hlt hpack
  have hp := loaded.frame
  obtain ⟨dt, n, hwait⟩ := waitDeadline_over (s := p) (u := t) (ts := left) (by rw [hp]; exact hhold)
  have hbytes : Memory.readBytes p.buf 0 p.bufLen = writeBytes s.cfg s.aux us := by
    have hl : p.bufLen = us.length * slotSize s.cfg := by rw [hp]
    rw [hl, loaded.bytes]
  refine ⟨us, last, p, _, dt, n, loaded,
    by rw [sendTurn, hpack, Flow.go_andThen, hwait, Flow.go_andThen, offerBuffer_eq, hbytes], ?_⟩
  conv_lhs => rw [hp]
  rfl

/-- What a write of `us` arms when all its units are confirmed, the scheduler being Idle, is what `dueAfter` says. -/
theorem armedAfter_due {s : State} {a : Answer} {us : List Cmd} {dv : Bool} {dt : Time} {due : Option Time}
    (harm : armedAfter s a dv dt) (hidle : s.dlValid = false) (hall : a.n / slotSize s.cfg = unitsInHand s)
    (hsettle : settleAfter s = settleOf s.cfg us) (hdue : dueAfter s.cfg us s.now = some due) :
    (if dv then some dt else none) = due := by
  simp only [armedAfter, hsettle] at harm
  simp only [dueAfter] at hdue
  cases hs : settleOf s.cfg us with
  | none =>
    simp only [hs, Option.some.injEq] at harm hdue
    rw [harm.1, hidle, ← hdue]
    rfl
  | some settle =>
    simp only [hs, if_pos hall] at harm hdue
    obtain ⟨x, hx, rfl⟩ := Option.map_eq_some_iff.1 hdue
    rw [harm.1, if_pos rfl, BitVec.eq_of_toNat_eq (harm.2.trans (advance_eq_some.1 hx).2.symm)]

/-- Where `dueAfter` has a value, the settle time that is armed fits. -/
theorem settle_fits_of_dueAfter {c : Cfg} {us : List Cmd} {u settle : Time} {due : Option Time}
    (hdue : dueAfter c us u = some due) (hs : settleOf c us = some settle) : u.toNat + settle.toNat < 2 ^ 64 := by
  simp only [dueAfter, hs] at hdue
  obtain ⟨x, hx, -⟩ := Option.map_eq_some_iff.1 hdue
  exact (advance_eq_some.1 hx).1

/-- The settle time after a write is that of the commands it was packed of (R98, R119). -/
theorem settleAfter_eq_settleOf {s : State} {us : List Cmd} {last : Cmd} (hlast : us.getLast? = some last)
    (hslow : s.lastSlow = slow last.1 last.2) : settleAfter s = settleOf s.cfg us := by
  cases hm : s.cfg.mode <;> simp only [settleAfter, settleOf, hlast, hslow, hm]

/-- `WRITE` and `ACCT` of a turn: a good answer at `u` is accounted and leaves the deadline of `dueAfter`. -/
theorem answer_goes {v : State} {w : Offer} {a : Answer} {rest : List Answer} {u : Time} {us : List Cmd} {last : Cmd}
    {due : Option Time} (ho : v.offer = some w) (ha : v.answers = a :: rest) (hu : advance v.now a.after = some u)
    (hlen : w.bytes.length = us.length * slotSize v.cfg) (hunits : unitsInHand v = us.length)
    (hidle : v.dlValid = false) (hlast : us.getLast? = some last) (hslow : v.lastSlow = slow last.1 last.2)
    (hgood : a.good (us.length * slotSize v.cfg) = true) (hdue : dueAfter v.cfg us u = some due) :
    ∃ t, (awaitAnswer v).andThen xmitAcct = .go t ∧ t.due = due ∧ t.now = u ∧ t.ticks = v.ticks ∧ t.answers = rest ∧
      t.idx = v.idx ∧ t.writes = v.writes ++ [⟨w.bytes, w.issued, u, a.n, a.fail⟩] := by
  obtain ⟨hfail, hn⟩ := Answer.good_iff.1 hgood
  have hsettle := settleAfter_eq_settleOf (s := v.takeAnswer w a rest u) hlast hslow
  have hall : a.n / slotSize v.cfg = unitsInHand v := by
    rw [hunits]
    exact Answer.good_div (by have := slotSize_pos v.cfg; omega) hgood
  rw [awaitAnswer_go ho ha (by omega) hu, Flow.go_andThen]
  rcases xmitAcct_cases (s := v.takeAnswer w a rest u) (a := a) rfl with ⟨dv, dt, harm, ⟨-, e⟩ | ⟨hbad, -⟩⟩ | hrefused
  · exact ⟨_, e, armedAfter_due harm hidle hall hsettle hdue, rfl, rfl, rfl, rfl, rfl⟩
  · have hunits' : unitsInHand (v.takeAnswer w a rest u) = us.length := hunits
    rw [hunits', State.takeAnswer_cfg, hgood] at hbad
    cases hbad
  · refine absurd hrefused (xmitAcct_ne_refuse_of_settle (a := a) rfl fun settle hs => ?_)
    exact settle_fits_of_dueAfter hdue (hsettle.symm.trans hs)

/-- One turn carries out the head of the plan, and leaves the rest of it to be carried out from where the turn ends. -/
theorem turn_carries_out {pairs : BitVec 13} {s : State} {r : Request} {e : Run} (h : AtTurn r s)
    (hlen : (commands r.stream).length = pairs.toNat) (hlt : s.idx.toNat < 2 * pairs.toNat)
    (hrun : goodRun s.cfg s.aux (plannedWrites s.cfg ((commands r.stream).drop (s.idx.toNat / 2))) s.due s.now s.ticks
      s.answers = some e) :
    ∃ t e' v, xmitFromPack pairs (startBatch s) = .go t ∧ t.writes = s.writes ++ [v] ∧
      goodRun s.cfg s.aux (plannedWrites s.cfg ((commands r.stream).drop (t.idx.toNat / 2))) t.due t.now t.ticks
        t.answers = some e' ∧ e = { e' with writes := v :: e'.writes } := by
  have hstream : 2 * pairs.toNat ≤ r.stream.length := by rw [commands_length] at hlen; omega
  -- The plan begins with a batch, and the turn packs that one.
  obtain ⟨us, plan, hplan⟩ : ∃ us plan, plannedWrites s.cfg ((commands r.stream).drop (s.idx.toNat / 2)) = us :: plan := by
    refine List.exists_cons_of_ne_nil fun hnil => ?_
    have hflat := plannedWrites_flatten s.cfg ((commands r.stream).drop (s.idx.toNat / 2))
    rw [hnil] at hflat
    have := List.drop_eq_nil_iff.1 hflat.symm
    omega
  rw [hplan] at hrun
  obtain ⟨i, left, ans, rest, u, due, e', hhold, hans, hgood, hu, hdue, hrun', rfl⟩ := goodRun_cons hrun
  rw [← State.holdTarget_eq] at hhold
  obtain ⟨us', last, p, v, dt, n, loaded, hsent, hv⟩ := sendTurn_goes h hstream hlt hhold
  have hhead := planned_turn hlen h.even loaded.final loaded.fast loaded.taken loaded.fits (fun hd => (loaded.direct hd).1)
    loaded.idx loaded.closed
  obtain ⟨rfl, rfl⟩ := List.cons.inj (hplan.symm.trans hhead)
  obtain ⟨t, hgo, hdue', hnow, hticks, hanswers, hidx, hwrites⟩ := answer_goes (v := v)
    (w := ⟨writeBytes s.cfg s.aux us, i⟩) (us := us) (last := last) (due := due) (by rw [hv]) (by rw [hv]; exact hans)
    (by rw [hv]; exact hu) (by rw [hv]; simp) (loaded.unitsInHand_eq (by rw [hv]) (by rw [hv])) (by rw [hv]) loaded.final
    (by rw [hv]) (by rw [hv]; exact hgood) (by rw [hv]; exact hdue)
  have hturn : xmitFromPack pairs (startBatch s) = .go t := by rw [xmitFromPack_eq, hsent]; exact hgo
  refine ⟨t, e', _, hturn, ?_, ?_, rfl⟩
  · rw [hwrites, hv]
  · have hp : t.idx = p.idx := by rw [hidx, hv]
    have hleft : t.ticks = left := by rw [hticks, hv]
    rw [hdue', hnow, hleft, hanswers, hp]
    exact hrun'

/-- With no command left the loop responds, whatever turns it may still take. -/
theorem xmitLoop_finished {pairs : BitVec 13} {n : Nat} {s : State} (hge : 2 * pairs.toNat ≤ s.idx.toNat) :
    xmitLoop pairs n s = .stop (respond s.done s) := by
  cases n with
  | zero => rfl
  | succ n => rw [xmitLoop, if_neg (mt idx_lt_lenOf.1 (by omega))]

section
variable {pairs : BitVec 13} {n : Nat} {s0 s : State} {r : Request} {new : List WriteRec} {e : Run}

/-- What the loop leaves of the run `e` when it has carried it out from `s` on. -/
def CarriedOut (pairs : BitVec 13) (n : Nat) (s : State) (e : Run) : Prop :=
  ∃ t, xmitLoop pairs n s = .stop (respond t.done t) ∧ t.done.toNat = pairs.toNat ∧ t.writes = s.writes ++ e.writes ∧
    t.due = e.deadline ∧ t.now = e.now ∧ t.ticks = e.ticks ∧ t.answers = e.answers

/-- With no command left there is nothing to carry out. -/
theorem carriedOut_nothing (hlen : (commands r.stream).length = pairs.toNat)
    (p : Progress pairs s0 (commands r.stream) new s) (hge : 2 * pairs.toNat ≤ s.idx.toNat)
    (hrun : goodRun s0.cfg s0.aux (plannedWrites s0.cfg ((commands r.stream).drop (s.idx.toNat / 2))) s.due s.now s.ticks
      s.answers = some e) : CarriedOut pairs n s e := by
  have heven := p.even
  have hwithin := p.within
  rw [List.drop_of_length_le (by omega), plannedWrites_nil] at hrun
  cases hrun
  exact ⟨s, xmitLoop_finished hge, by omega, by simp, rfl, rfl, rfl, rfl⟩

/-- The loop carries out the plan that is left, a turn for each write. -/
theorem xmitLoop_carries_out (hc : cfgOk s0.cfg = true) (hr : s0.cur = some r)
    (hlen : (commands r.stream).length = pairs.toNat) (p : Progress pairs s0 (commands r.stream) new s)
    (hfuel : 2 * pairs.toNat ≤ s.idx.toNat + 2 * n)
    (hrun : goodRun s0.cfg s0.aux (plannedWrites s0.cfg ((commands r.stream).drop (s.idx.toNat / 2))) s.due s.now s.ticks
      s.answers = some e) : CarriedOut pairs n s e := by
  induction n generalizing s new e with
  | zero => exact carriedOut_nothing hlen p (by omega) hrun
  | succ n ih =>
    by_cases hlt : s.idx.toNat < 2 * pairs.toNat
    · have hturn : AtTurn r s := ⟨by rw [p.keep.cfg]; exact hc, p.keep.cur.trans hr, by have := p.even; omega⟩
      obtain ⟨t, e', v, hgo, hw, hrun', rfl⟩ := turn_carries_out hturn hlen hlt (by rw [p.keep.cfg, p.keep.aux]; exact hrun)
      obtain ⟨new', p', hidx⟩ := progress_go hc hr hlen p hlt hgo
      rw [p.keep.cfg, p.keep.aux] at hrun'
      obtain ⟨t', hloop, hdone, hw', hrest⟩ := ih p' (by omega) hrun'
      refine ⟨t', ?_, hdone, by rw [hw', hw, List.append_assoc]; rfl, hrest⟩
      rw [xmitLoop, if_pos (idx_lt_lenOf.2 hlt), hgo]
      exact hloop
    · exact carriedOut_nothing hlen p (by omega) hrun

end

/-- A deadline that was armed now is the sum it stands for (R95). -/
theorem dlTime_of_due {s : State} {settle : Time} (h : (advance s.now settle.toNat).map some = some s.due) :
    s.dlValid = true ∧ s.dlTime.toNat = s.now.toNat + settle.toNat := by
  obtain ⟨x, hx, hdue⟩ := Option.map_eq_some_iff.1 h
  unfold State.due at hdue
  split at hdue
  · obtain rfl := Option.some.inj hdue
    exact ⟨‹_›, (advance_eq_some.1 hx).2⟩
  · cases hdue

/-- What stands after the last command is what R98 arms: `T_SLOW` after a slow one, `T_FAST` after a fast one in direct
mode. -/
theorem due_after_last {s : State} {c : Cfg} {last : Cmd} (h : dueAfter c [last] s.now = some s.due) :
    s.dlValid = (slow last.1 last.2 || decide (c.mode = .direct)) ∧
      (slow last.1 last.2 = true → s.dlTime.toNat = s.now.toNat + c.tSlow.toNat) ∧
      (slow last.1 last.2 = false → c.mode = .direct → s.dlTime.toNat = s.now.toNat + c.tFast.toNat) := by
  cases hs : slow last.1 last.2 with
  | true =>
    simp only [dueAfter, settleOf, List.getLast?_singleton, hs, if_true] at h
    obtain ⟨hv, ht⟩ := dlTime_of_due h
    simp [hv, ht]
  | false =>
    cases hm : c.mode with
    | direct =>
      simp only [dueAfter, settleOf, List.getLast?_singleton, hs, hm, Bool.false_eq_true, if_false] at h
      obtain ⟨hv, ht⟩ := dlTime_of_due h
      simp [hv, ht]
    | batched =>
      simp only [dueAfter, settleOf, List.getLast?_singleton, hs, hm, Bool.false_eq_true, if_false, Option.some.injEq] at h
      have hv : s.dlValid = false := by
        by_contra hv
        simp [State.due, hv] at h
      simp [hv]

/-- Settles O27: the loop carries out the plan turn by turn; what the run says of itself then holds of the state at the
response. -/
theorem xmitCompletesOnAGoodChannel : Obligations.XmitCompletesOnAGoodChannel := by
  unfold Obligations.XmitCompletesOnAGoodChannel
  intro pairs s r e last hc hp hr hlen hlast hrun
  have hcmds : (commands r.stream).length = pairs.toNat := by rw [commands_length]; omega
  have hstart : Progress pairs s (commands r.stream) [] (s.toPhase .check).startXmit :=
    ⟨(XKeep.refl s).scratch, by simp, by simp, by simp, by simp, by simp, by simp, by simp, by simp⟩
  have hfirst : (commands r.stream).drop ((s.toPhase .check).startXmit.idx.toNat / 2) = commands r.stream := by simp
  obtain ⟨t, hloop, hdone, hw, hdue, hnow, hticks, hanswers⟩ :=
    xmitLoop_carries_out (n := pairs.toNat) (e := e) hc hr hcmds hstart (by simp) (by rw [hfirst]; exact hrun)
  have hexec : exec (.xmit pairs) s = .next (respond t.done t) := by
    rw [exec, execXmit_eq hc hp, hloop]
    rfl
  have hcount : t.done = BitVec.ofNat 14 pairs.toNat := by rw [← hdone, BitVec.ofNat_toNat, BitVec.setWidth_eq]
  obtain ⟨empty, aux, offer, -⟩ := transmitEndsWithAnEmptyBuffer _ _ _ (.inr ⟨pairs, rfl, hp⟩) hexec rfl
  obtain ⟨hbytes, hgood⟩ := goodRun_writes hrun
  obtain ⟨ds, as, hds, has, haslen, htime⟩ := goodRun_uses hrun
  have hdeadline := goodRun_deadline hrun (fun _ => plannedWrites_nonempty) (by rw [plannedWrites_flatten]; exact hlast)
  rw [← hnow, ← hdue] at hdeadline
  refine ⟨_, ds, as, hexec, rfl, by rw [respond_rsp, hcount], hcount, hw, hbytes, hgood, empty, aux, hanswers, hticks, hnow,
    offer, ?_, ?_, haslen, ?_, due_after_last hdeadline⟩
  · rw [respond_ticks, hticks]; exact hds
  · rw [respond_answers, hanswers]; exact has
  · rw [respond_now, hnow]; exact htime

end Sys2Proof.Machine

namespace Sys2Proof.Machine

/-! ### The auxiliary operations complete (R140, R141, R144) -/

/-- The response to the answered byte: `(0, OK)` on a good write, `(0, ERR_CHANNEL)` on any other. -/
theorem auxFinish_answered {s : State} {a : Answer} (ha : s.ans = some a) :
    auxFinish s = .stop { s with
      phase := .resp, ans := none, rsp := some (if a.fail = false ∧ a.n = 1 then 0x0000#16 else 0x8000#16) } := by
  by_cases hgood : a.fail = false ∧ a.n = 1
  · simp only [auxFinish, ha, if_pos (Answer.good_iff.2 hgood), if_pos hgood]
    rfl
  · simp only [auxFinish, ha, if_neg (mt Answer.good_iff.1 hgood), if_neg hgood]
    rfl

/-- The one byte offered and answered, an auxiliary operation responds; `AUX` keeps the value `b` whatever the answer says. -/
theorem auxWrite_answered {b : Byte} {s : State} {a : Answer} {rest : List Answer} {t : Time}
    (hans : s.answers = a :: rest) (hn : a.n ≤ 1) (ht : advance s.now a.after = some t) :
    auxWrite b s = .stop { s with
      aux := b, phase := .resp, now := t, answers := rest, offer := none, ans := none
      rsp := some (if a.fail = false ∧ a.n = 1 then 0x0000#16 else 0x8000#16)
      writes := s.writes ++ [⟨[b], s.now, t, a.n, a.fail⟩] } := by
  have hgo := awaitAnswer_go (s := (s.setAux b).putOffer [b]) (w := ⟨[b], s.now⟩) rfl hans hn ht
  rw [auxWrite, auxFromWrite, hgo, Flow.go_andThen, auxFinish_answered rfl]
  rfl

/-- Settles O23: `SETRW` offers the new `AUX`, and the answer to that byte ends it. -/
theorem setrwWritesTheReadWriteLine : Obligations.SetrwWritesTheReadWriteLine := by
  unfold Obligations.SetrwWritesTheReadWriteLine
  refine ⟨fun v => decode_eq_op_iff.2 ⟨rfl, ?_⟩, fun v s a rest t hc hans hn ht => ?_⟩
  · cases v <;> rfl
  · rw [exec_setrw hc, auxWrite_answered (s := s.toPhase .check) hans hn ht]
    rfl

/-- Settles O24: `SETAUX` offers the new `AUX`, and the answer to that byte ends it. -/
theorem setauxWritesTheAuxiliaryLine : Obligations.SetauxWritesTheAuxiliaryLine := by
  unfold Obligations.SetauxWritesTheAuxiliaryLine
  refine ⟨fun v => decode_eq_op_iff.2 ⟨rfl, ?_⟩, fun v s a rest t hc hans hn ht => ?_⟩
  · cases v <;> rfl
  · rw [exec_setaux hc, auxWrite_answered (s := s.toPhase .check) hans hn ht]
    rfl

end Sys2Proof.Machine

namespace Sys2Proof.Machine

/-! ## Exceptions (60_exceptions.md) -/

/-! ### Errors are precise at the command (R158) -/

theorem WriteRec.good_iff {w : WriteRec} : w.good = true ↔ w.fail = false ∧ w.n = w.bytes.length := by
  simp [WriteRec.good]

/-- Of good writes every byte is on the wire (R48). -/
theorem wire_of_good {ws : List WriteRec} (h : ∀ v ∈ ws, v.good = true) : wire ws = ws.flatMap WriteRec.bytes :=
  List.flatMap_congr fun v hv => List.take_of_length_le (WriteRec.good_iff.1 (h v hv)).2.ge

/-- A good write has no byte behind the accepted ones. -/
theorem presented_of_good {ws : List WriteRec} (h : ∀ v ∈ ws, v.good = true) :
    ws.flatMap WriteRec.presented = ws.flatMap WriteRec.bytes :=
  List.flatMap_congr fun v hv => List.take_of_length_le (Nat.le_succ_of_le (WriteRec.good_iff.1 (h v hv)).2.ge)

theorem wire_append (ws vs : List WriteRec) : wire (ws ++ vs) = wire ws ++ wire vs := List.flatMap_append

theorem zero_lt_slotSize (c : Cfg) : 0 < slotSize c := Nat.lt_of_lt_of_le (by decide) (slotSize_pos c)

/-- Behind the units of the first commands are those of the other ones. -/
theorem writeBytes_drop (c : Cfg) (a : Byte) (us : List Cmd) (k : Nat) :
    (writeBytes c a us).drop (k * slotSize c) = writeBytes c a (us.drop k) := by
  have parts : writeBytes c a us = writeBytes c a (us.take k) ++ writeBytes c a (us.drop k) := by
    rw [writeBytes, writeBytes, writeBytes, ← List.flatMap_append, List.take_append_drop]
  have whole := List.take_append_drop (k * slotSize c) (writeBytes c a us)
  rw [writeBytes_take] at whole
  exact List.append_cancel_left (whole.trans parts)

/-- The first bytes of a write of commands that follow the first `k` lie behind the units of those in the bytes of the
stream. -/
theorem writeBytes_take_append {c : Cfg} {a : Byte} {cmds us : List Cmd} {k : Nat} (h : us <+: cmds.drop k) (n : Nat) :
    writeBytes c a (cmds.take k) ++ (writeBytes c a us).take n =
      (writeBytes c a cmds).take (k * slotSize c + min n (us.length * slotSize c)) := by
  rw [List.take_add, writeBytes_take, writeBytes_drop, ← List.take_take, writeBytes_take, ← List.prefix_iff_eq_take.1 h]

/-- What an `XMIT` that answers `(d, ERR_CHANNEL)` has written: good writes of the first `k` commands, then the failed write
`bad` of the commands `us` that follow them, of which it confirmed `n div U` (R112, R121). `IDX` is behind `us`. -/
structure FailedAt (s t : State) (cmds : List Cmd) (d : Count) (ok : List WriteRec) (bad : WriteRec) (k : Nat)
    (us : List Cmd) : Prop where
  good : ∀ v ∈ ok, v.good = true
  failed : bad.good = false
  sent : ok.flatMap WriteRec.bytes = writeBytes s.cfg s.aux (cmds.take k)
  next : us <+: cmds.drop k
  bytes : bad.bytes = writeBytes s.cfg s.aux us
  count : bad.n ≤ us.length * slotSize s.cfg
  done : d.toNat = k + bad.n / slotSize s.cfg
  fits : us.length ≤ slotCount s.cfg
  direct : s.cfg.mode = .direct → us.length = 1
  idx : t.idx.toNat = 2 * (k + us.length)

/-- Of the ways in which an `XMIT` ends, only the failed write answers `ERR_CHANNEL`. -/
theorem xmit_failedAt {pairs : BitVec 13} {s t : State} {r : Request} {new : List WriteRec} {d : Count} (hp : pairs ≠ 0)
    (hr : s.cur = some r) (hlen : r.stream.length = 2 * pairs.toNat) (he : exec (.xmit pairs) s = .next t)
    (hresp : t.phase = .resp) (hw : t.writes = s.writes ++ new) (hrsp : t.rsp = some (respWord d .channel)) :
    ∃ ok bad k us, new = ok ++ [bad] ∧ FailedAt s t (commands r.stream) d ok bad k us := by
  obtain ⟨new', hw', -, how⟩ := xmit_ended hp hr hlen he
  obtain rfl : new = new' := List.append_cancel_left (hw.symm.trans hw')
  rcases how with ⟨hwait, -⟩ | ⟨hwrite, -⟩ | ⟨-, -, -, hok, -⟩ |
    ⟨-, ok, bad, hnew, hgood, hbad, -, d', -, -, hrsp', -, k, us, hsent, hnext, hbytes, hcount, hdone, hfits, hdirect, hidx⟩
  · simp [hresp] at hwait
  · simp [hresp] at hwrite
  · obtain ⟨-, hcode⟩ := respWord_inj (Option.some.inj (hrsp.symm.trans hok))
    cases hcode
  · obtain ⟨rfl, -⟩ := respWord_inj (Option.some.inj (hrsp.symm.trans hrsp'))
    exact ⟨ok, bad, k, us, hnew, hgood, hbad, hsent, hnext, hbytes, hcount, hdone, hfits, hdirect, hidx⟩

section
variable {s t : State} {cmds us : List Cmd} {d : Count} {ok : List WriteRec} {bad : WriteRec} {k : Nat}

/-- The bytes accepted in all are the first ones of the stream: `DONE` units, and what is left of `n` beside whole units. -/
theorem FailedAt.wire_eq (h : FailedAt s t cmds d ok bad k us) :
    wire (ok ++ [bad]) = (writeBytes s.cfg s.aux cmds).take (d.toNat * slotSize s.cfg + bad.n % slotSize s.cfg) := by
  have hn : k * slotSize s.cfg + bad.n = d.toNat * slotSize s.cfg + bad.n % slotSize s.cfg := by
    have hdiv := Nat.div_add_mod' bad.n (slotSize s.cfg)
    rw [h.done, Nat.add_mul]
    omega
  calc wire (ok ++ [bad])
      = writeBytes s.cfg s.aux (cmds.take k) ++ (writeBytes s.cfg s.aux us).take bad.n := by
        rw [wire_append, wire_of_good h.good, h.sent, wire, List.flatMap_singleton, h.bytes]
    _ = (writeBytes s.cfg s.aux cmds).take (d.toNat * slotSize s.cfg + bad.n % slotSize s.cfg) := by
        rw [writeBytes_take_append h.next, Nat.min_eq_left h.count, hn]

/-- The bytes accepted and the one after them lie within the units of commands 0 to `DONE`. -/
theorem FailedAt.presented_prefix (h : FailedAt s t cmds d ok bad k us) :
    (ok ++ [bad]).flatMap WriteRec.presented <+: writeBytes s.cfg s.aux (cmds.take (d.toNat + 1)) := by
  have hn : k * slotSize s.cfg + (bad.n + 1) ≤ (d.toNat + 1) * slotSize s.cfg := by
    have hmod := Nat.mod_lt bad.n (zero_lt_slotSize s.cfg)
    have hdiv := Nat.div_add_mod' bad.n (slotSize s.cfg)
    rw [h.done, Nat.add_mul, Nat.add_mul]
    omega
  rw [List.flatMap_append, presented_of_good h.good, h.sent, List.flatMap_singleton, WriteRec.presented, h.bytes,
    writeBytes_take_append h.next, ← writeBytes_take]
  exact List.take_prefix_take_left (by omega)

/-- The bytes offered in all are the units of the commands up to the failed write and including it. -/
theorem FailedAt.offered_eq (h : FailedAt s t cmds d ok bad k us) :
    (ok ++ [bad]).flatMap WriteRec.bytes = writeBytes s.cfg s.aux (cmds.take (k + us.length)) := by
  rw [List.flatMap_append, h.sent, List.flatMap_singleton, h.bytes, List.take_add, ← List.prefix_iff_eq_take.1 h.next,
    writeBytes, writeBytes, writeBytes, List.flatMap_append]

/-- Command `DONE` is one of the failed write, or the first one behind it. -/
theorem FailedAt.done_le (h : FailedAt s t cmds d ok bad k us) : d.toNat ≤ k + us.length := by
  rw [h.done]
  exact Nat.add_le_add_left (Nat.div_le_of_le_mul (Nat.mul_comm _ _ ▸ h.count)) k

/-- The failed write reaches at most one command from `DONE` on in direct mode, and `NS` in batched mode. -/
theorem FailedAt.le_done_add (h : FailedAt s t cmds d ok bad k us) :
    k + us.length ≤ d.toNat + (match s.cfg.mode with
      | .direct => 1
      | .batched => slotCount s.cfg) := by
  have hk : k ≤ d.toNat := h.done ▸ Nat.le_add_right k _
  split
  next hm => exact Nat.add_le_add hk (h.direct hm).le
  next => exact Nat.add_le_add hk h.fits

/-- A failed write without a whole unit behind command `DONE` ends with that command at the latest. -/
theorem FailedAt.le_done_succ (h : FailedAt s t cmds d ok bad k us)
    (hlen : bad.bytes.length ≤ (bad.n / slotSize s.cfg + 1) * slotSize s.cfg) : k + us.length ≤ d.toNat + 1 := by
  rw [h.bytes, writeBytes_length] at hlen
  have hunits := Nat.le_of_mul_le_mul_right hlen (zero_lt_slotSize s.cfg)
  rw [h.done]
  omega

end

/-- Settles O51: all the bytes that count are the first ones of the stream, and how many they are is read off the failed
write. -/
theorem errorsArePreciseAtCommandGranularity : Obligations.ErrorsArePreciseAtCommandGranularity := by
  unfold Obligations.ErrorsArePreciseAtCommandGranularity
  intro pairs s t r new d hp hr hlen he hresp hw hrsp
  obtain ⟨ok, bad, k, us, rfl, h⟩ := xmit_failedAt hp hr hlen he hresp hw hrsp
  refine ⟨⟨_, ?_, ?_, List.take_prefix (bad.n % slotSize s.cfg) _⟩,
    ⟨bad, k + us.length, List.getLast?_concat, h.failed, h.done_le, h.le_done_add, h.le_done_succ, h.idx, h.offered_eq⟩,
    h.presented_prefix⟩
  · rw [h.wire_eq, List.take_add, writeBytes_take, writeBytes_drop, writeBytes, writeBytes]
  · exact Nat.lt_of_le_of_lt (List.length_take_le _ _) (Nat.mod_lt _ (zero_lt_slotSize s.cfg))

/-! ### An illegal header (R72, R152) -/

/-- Settles O12: the header lies in the illegal case of the opcode map, and `raiseErr` touches the phase and the response. -/
theorem illegalHeaderIsAnswered : Obligations.IllegalHeaderIsAnswered := by
  unfold Obligations.IllegalHeaderIsAnswered
  intro s r rest t hc hrst hp hq ha hbad
  have hd : decode r.hdr = .rejected .illegal :=
    decode_eq_iff.2 (hbad.imp (opField_eq_iff r.hdr 3 (by decide)).1
      (And.imp (mt (opField_eq_iff r.hdr 0 (by decide)).2) (mt (argHigh_eq_zero_iff r.hdr).2)))
  rw [step_rejects hc hrst hp hq ha hd]
  rfl

end Sys2Proof.Machine

namespace Sys2Proof.Machine

/-! ### Reset (R180, R182, R183) -/

/-- With `rst` at 1 in `READY` a step is the reset of the block (R180). -/
theorem step_resets {s : State} (hc : cfgOk s.cfg = true) (hrst : s.rst = true) (hp : s.phase = .ready) :
    step s = .next (resetBlock s) := by
  simp [step, hc, hrst, hp]

/-- Settles O1: the step is `resetBlock`, which moves the block's registers only, to what the state after reset holds. -/
theorem resetLeavesBlockIdleAndSilent : Obligations.ResetLeavesBlockIdleAndSilent := by
  unfold Obligations.ResetLeavesBlockIdleAndSilent
  refine ⟨fun s hc hrst hp => ⟨resetBlock s, step_resets hc hrst hp, ?block⟩, ?reset⟩
  case block => simp
  case reset => decide

/-- Settles O2: outside `READY` the step with `rst` at 1 has the refusal for its only case. -/
theorem resetDuringAnOperationIsRefused : Obligations.ResetDuringAnOperationIsRefused := by
  unfold Obligations.ResetDuringAnOperationIsRefused
  exact fun _ => step_refuses_reset

end Sys2Proof.Machine
